-- ==== Sys2Proof/Word.lean ====
section
/-! DEFINITION. The word types of PXC: every channel and buffer cell is 8 bits (00_scope R6), the wide registers are 32
bits (10_state R20). Quantities the spec treats as numbers (block indexes, coordinates, counts) are natural numbers (R8). -/

namespace Sys2Proof

/-- One channel of a pixel, or one cell of a byte buffer: `u8` of R8. -/
abbrev Byte := BitVec 8

/-- The contents of a 32-bit register: `u32` of R8. -/
abbrev Word := BitVec 32

end Sys2Proof
end

