-- ==== Sys2Proof/Config.lean ====
section
/-! DEFINITION. What an implementation fixes (00_scope R6, R7) and the free values, which nothing in Lean can evaluate. -/

namespace Sys2Proof

/-- Which predicate `LegalText` is (R7, R179; decision D22; log 1). -/
inductive TextRule where
  | utf8            -- the default, well-formed UTF-8 (44_decoder R180)
  | anyBytes        -- every byte sequence is legal text
  | other (n : Nat) -- a predicate of the implementation's own, which the model leaves uninterpreted
  deriving DecidableEq, Repr

/-- The parameters the source leaves open (R7). `BUS_BINDING` is not modelled (U24). -/
structure Config where
  /-- `PIXEL_SIZE_MAX`, the greatest usable `pixel_size` (R201, D7). -/
  pixelSizeMax : Nat
  /-- `OBUF_CAP` in bytes; `none` is infinity (R205, D6). -/
  obufCap : Option Nat
  /-- `LegalText` (R179, D22). -/
  textRule : TextRule
  deriving DecidableEq, Repr

namespace Config

/-- `IN_MAX`, the greatest input length, which is also the number of `IBUF` cells (R6, R25). -/
abbrev inMax : Nat := 765

/-- `CHUNK_MAX` (R6, R111). -/
abbrev chunkMax : Nat := 255

/-- `OVF_MAX` (R6). -/
abbrev ovfMax : Nat := 765

/-- `TOTAL_MAX` (R6). -/
abbrev totalMax : Nat := 1021

/-- `N_MAX` (R6). -/
abbrev nMax : Nat := 32

/-- The defaults of R7. -/
def standard : Config := { pixelSizeMax := 134217727, obufCap := none, textRule := .utf8 }

/-- The ranges that 92_eei_decisions gives the parameters: `1 ≤ PIXEL_SIZE_MAX ≤ 134217727`, `OBUF_CAP ≥ 765`. -/
def wf (c : Config) : Bool :=
  decide (1 ≤ c.pixelSizeMax) && decide (c.pixelSizeMax ≤ 134217727) &&
    (match c.obufCap with
     | none => true
     | some n => decide (765 ≤ n))

/-- Free value: the n-th draw of a byte that the spec leaves unspecified (R28, U11; R120; logs 6, 7, 10, 12, 26). -/
opaque freeByte : Nat → Byte

/-- Free value: the n-th draw of a number that the spec does not state (operands outside a rule's ranges; logs 21, 26). -/
opaque freeNat : Nat → Nat

/-- Free value: the n-th draw of a 32-bit value that the spec leaves unspecified (R29; log 8). -/
opaque freeWord : Nat → Word

/-- Free value: the text predicates of the implementations that use none of the named ones (R7, D22; log 1). -/
opaque otherLegalText : Nat → List Byte → Bool

end Config

end Sys2Proof
end

