-- ==== Sys2Proof/Syntax.lean ====
section
/-! DEFINITION. The data PXC works on and its instructions: `Instr` has one constructor per row of spec/opcode_table.json
(30_encoding R93). The four `CMD8` rows are the command codes, the nine `PIX32` rows the blocks the encoder emits and the
classes the decoder sorts a sampled pixel into, the seventeen `INTERNAL` rows the operations the commands are made of. -/

namespace Sys2Proof

/-- Three channels: a base color, a chunk (byte `c` of a chunk goes to channel `c`, R66), or the colour of a data block
(R10). -/
structure Rgb where
  r : Byte
  g : Byte
  b : Byte
  deriving DecidableEq, Repr

/-- A pixel `(R, G, B, A)` (R10). -/
structure Pixel where
  r : Byte
  g : Byte
  b : Byte
  a : Byte
  deriving DecidableEq, Repr

/-- `SEPARATOR` and `DEFAULT_PIXEL` are the same value (0, 0, 0, 0) (R6, R86). -/
def Pixel.zero : Pixel := ⟨0, 0, 0, 0⟩

/-- The channel of an overflow record (R16 "channel: one of {R, G, B}"). -/
inductive Channel where
  | red
  | green
  | blue
  deriving DecidableEq, Repr

/-- An overflow record as the encoder makes it (R16, R41). -/
structure Record where
  idx : Byte
  chan : Channel
  mag : Byte
  deriving DecidableEq, Repr

/-- `(chunk_index, channel_code, magnitude)` as the decoder reads it, each 0..255 and unchecked (R125, R176). -/
structure Triple where
  idx : Byte
  code : Byte
  mag : Byte
  deriving DecidableEq, Repr

/-- The decoder's two states (R182). -/
inductive Phase where
  | collectingData
  | collectingOverflow
  deriving DecidableEq, Repr

/-- The rows of spec/opcode_table.json, in its order. -/
inductive Instr where
  /-- ENCODE, `CMD` code 0x01 (R90, R150). -/
  | encode
  /-- DECODE, `CMD` code 0x02 (R90, R181). -/
  | decode
  /-- PLAN, `CMD` code 0x03 (R90, R158). -/
  | plan
  /-- CMD.RESERVED, every other code (R90, R203). -/
  | cmdReserved (code : Byte)
  /-- BLK.DATA: emit a data block; its three channels (R82, R154). -/
  | blkData (r g b : Byte)
  /-- BLK.SEP: emit the separator block (R83, R155). -/
  | blkSep
  /-- BLK.OVF.R: emit an overflow block of channel R (R84, R156). -/
  | blkOvfR (idx mag : Byte)
  /-- BLK.OVF.G (R84, R156). -/
  | blkOvfG (idx mag : Byte)
  /-- BLK.OVF.B (R84, R156). -/
  | blkOvfB (idx mag : Byte)
  /-- DEC.SEP: the all-zero pixel in the data phase (R88, R174). -/
  | decSep
  /-- DEC.DATA: any other pixel in the data phase (R88, R173). -/
  | decData (p : Pixel)
  /-- DEC.SKIP: a pixel with A = 0 in the overflow phase (R88, R175). -/
  | decSkip (r g b : Byte)
  /-- DEC.REC: any other pixel in the overflow phase (R88, R175). -/
  | decRec (p : Pixel)
  /-- CHUNK: the input `IBUF[0 .. ILEN-1]` into chunks (R110). -/
  | chunk
  /-- UNPACK: append three bytes to the data buffer (R112). -/
  | unpack (d : Rgb)
  /-- STRIP: drop the trailing zero bytes of the data buffer (R113). -/
  | strip
  /-- CLAMPADD of a base channel `b` and a chunk byte `d` (R120). -/
  | clampadd (b d : Byte)
  /-- OVFREC of chunk `i` (R121). -/
  | ovfrec (i : Byte) (c : Rgb)
  /-- COUNT_OVERFLOW of a sequence of chunks (R123). -/
  | countOverflow (cs : List Rgb)
  /-- RECPACK (R124). -/
  | recpack (r : Record)
  /-- RECUNPACK (R125). -/
  | recunpack (p : Pixel)
  /-- TOTAL (R135). -/
  | total (nch novf : Nat)
  /-- CSQRT (R136). -/
  | csqrt (t : Nat)
  /-- SIDE (R137). -/
  | side (n : Nat)
  /-- BLKADDR of block `k` among `m` block columns (R138). -/
  | blkaddr (k m : Nat)
  /-- WRBLK: write block `k` of `m` columns (R152). -/
  | wrblk (k m : Nat) (p : Pixel)
  /-- ISSEP (R170). -/
  | issep (p : Pixel)
  /-- DIFF (R172). -/
  | diff (p : Pixel)
  /-- APPLY one record to the data buffer (R176). -/
  | apply (t : Triple)
  /-- TEXTCHK of the stripped buffer (R179). -/
  | textchk
  deriving DecidableEq, Repr

end Sys2Proof
end

