-- ==== Sys2Proof/WellFormed.lean ====
section
/-! DEFINITION. The operand ranges the rules give the instructions. A field whose every value the encoding admits has no
check: the block formats' `idx` and `mag` take all of 0..255 (R84's narrower ranges are what ENCODE emits, a fact about
ENCODE). What the machine does with operands outside the ranges is the meanings' matter (logs 21, 26). -/

namespace Sys2Proof

/-- The operands of `i` lie in the ranges of its rule. -/
def Instr.wf : Instr → Bool
  | .encode => true
  | .decode => true
  | .plan => true
  | .cmdReserved code => decide (code ≠ 1 ∧ code ≠ 2 ∧ code ≠ 3)           -- R90
  | .blkData _ _ _ => true
  | .blkSep => true
  | .blkOvfR _ _ => true
  | .blkOvfG _ _ => true
  | .blkOvfB _ _ => true
  | .decSep => true
  | .decData p => decide (p ≠ Pixel.zero)                                  -- R88: DEC.SEP takes the all-zero pixel
  | .decSkip _ _ _ => true
  | .decRec p => decide (p.a ≠ 0)                                          -- R88: DEC.SKIP takes A = 0
  | .chunk => true
  | .unpack _ => true
  | .strip => true
  | .clampadd _ _ => true
  | .ovfrec i _ => decide (i.toNat ≤ 254)                                  -- R121: i in 0..254
  | .countOverflow cs => decide (cs.length ≤ Config.chunkMax)              -- R123: at most 255 chunks
  | .recpack r => decide (1 ≤ r.mag.toNat)                                 -- R124: mag in 1..255
  | .recunpack p => decide (p.a ≠ 0)                                       -- R125: P.A ≠ 0
  | .total nch novf => decide (nch ≤ Config.chunkMax ∧ novf ≤ Config.ovfMax) -- R135
  | .csqrt t => decide (1 ≤ t ∧ t ≤ Config.totalMax)                       -- R136: T in 1..1021
  | .side n => decide (1 ≤ n ∧ n ≤ Config.nMax)                            -- R137: N in 1..32
  | .blkaddr _ m => decide (1 ≤ m)                                         -- R138: k < M × Nrow needs M ≥ 1
  | .wrblk _ m _ => decide (1 ≤ m)                                         -- R152
  | .issep _ => true
  | .diff _ => true
  | .apply _ => true
  | .textchk => true

end Sys2Proof
end

