-- ==== Sys2Proof/Decode.lean ====
section
/-! DEFINITION. From bytes to instructions and back (30_encoding). What the bits of a pixel mean depends on where it stands:
a block the encoder emits is told by its place in the block order (R82 to R84, "block_index" of the opcode table), a pixel
the decoder samples by the phase (R88). That context is the `Lane`. In a lane every byte sequence decodes to one
instruction or is rejected by name. A pixel is four bytes R, G, B, A in this order of position (R66). -/

namespace Sys2Proof

/-- Where a code is read: the command register (R90), one of the three zones of the emitted block order (R69), or the
decoder's classifier in a phase (R88). -/
inductive Lane where
  | cmd
  | emitData
  | emitSep
  | emitOvf
  | sample (ph : Phase)
  deriving DecidableEq, Repr

/-- Why bytes are no instruction. -/
inductive Reject where
  | truncated    -- fewer bytes than the lane's format has (R80: one pixel is four channels; R90: a code is one byte)
  | notEmitted   -- a pixel that no format of this zone of the block order matches (R82 to R84)
  deriving DecidableEq, Repr

/-- The channel code of a record: R = 1, G = 2, B = 3 (R6, R10). -/
def Channel.code : Channel → Byte
  | .red => 1
  | .green => 2
  | .blue => 3

/-- The command decoder: total, reserved codes are CMD.RESERVED (R90). -/
def decodeCmd (v : Byte) : Instr :=
  if v = 1 then .encode
  else if v = 2 then .decode
  else if v = 3 then .plan
  else .cmdReserved v

/-- The classifier of a sampled pixel, the table of R88: total in each phase. -/
def decodeSample (ph : Phase) (p : Pixel) : Instr :=
  match ph with
  | .collectingData => if p = Pixel.zero then .decSep else .decData p
  | .collectingOverflow => if p.a = 0 then .decSkip p.r p.g p.b else .decRec p

/-- `BLK.DATA` (R82): A = 255. -/
def decodeData (p : Pixel) : Except Reject Instr :=
  if p.a = 255 then .ok (.blkData p.r p.g p.b) else .error .notEmitted

/-- `BLK.SEP` (R83): all 32 bits zero. -/
def decodeSep (p : Pixel) : Except Reject Instr :=
  if p = Pixel.zero then .ok .blkSep else .error .notEmitted

/-- `BLK.OVF` (R84): A = 255 and G one of the three channel codes. -/
def decodeOvf (p : Pixel) : Except Reject Instr :=
  if p.a = 255 then
    if p.g = Channel.red.code then .ok (.blkOvfR p.r p.b)
    else if p.g = Channel.green.code then .ok (.blkOvfG p.r p.b)
    else if p.g = Channel.blue.code then .ok (.blkOvfB p.r p.b)
    else .error .notEmitted
  else .error .notEmitted

/-- The pixel decoder of a lane. No pixel is read in the command lane. -/
def decodePixel (l : Lane) (p : Pixel) : Except Reject Instr :=
  match l with
  | .cmd => .error .notEmitted
  | .emitData => decodeData p
  | .emitSep => decodeSep p
  | .emitOvf => decodeOvf p
  | .sample ph => .ok (decodeSample ph p)

/-- The first four bytes as a pixel, and the bytes after it (R66). -/
def takePixel : List Byte → Option (Pixel × List Byte)
  | r :: g :: b :: a :: rest => some (⟨r, g, b, a⟩, rest)
  | _ => none

/-- The decoder: the instruction at the head of the bytes of a lane, and the bytes after it. -/
def decode (l : Lane) (bytes : List Byte) : Except Reject (Instr × List Byte) :=
  match l with
  | .cmd =>
    match bytes with
    | [] => .error .truncated
    | v :: rest => .ok (decodeCmd v, rest)
  | l =>
    match takePixel bytes with
    | none => .error .truncated
    | some (p, rest) =>
      match decodePixel l p with
      | .error e => .error e
      | .ok i => .ok (i, rest)

/-- The four bytes of a pixel in order of position (R66). -/
def pixelBytes (p : Pixel) : List Byte := [p.r, p.g, p.b, p.a]

/-- The pixel of a block format (R82 to R84), `none` for a row that is no emitted block. -/
def blockPixel : Instr → Option Pixel
  | .encode => none
  | .decode => none
  | .plan => none
  | .cmdReserved _ => none
  | .blkData r g b => some ⟨r, g, b, 255⟩
  | .blkSep => some Pixel.zero
  | .blkOvfR idx mag => some ⟨idx, Channel.red.code, mag, 255⟩
  | .blkOvfG idx mag => some ⟨idx, Channel.green.code, mag, 255⟩
  | .blkOvfB idx mag => some ⟨idx, Channel.blue.code, mag, 255⟩
  | .decSep => none
  | .decData _ => none
  | .decSkip _ _ _ => none
  | .decRec _ => none
  | .chunk => none
  | .unpack _ => none
  | .strip => none
  | .clampadd _ _ => none
  | .ovfrec _ _ => none
  | .countOverflow _ => none
  | .recpack _ => none
  | .recunpack _ => none
  | .total _ _ => none
  | .csqrt _ => none
  | .side _ => none
  | .blkaddr _ _ => none
  | .wrblk _ _ _ => none
  | .issep _ => none
  | .diff _ => none
  | .apply _ => none
  | .textchk => none

/-- The encoder: the lane of an instruction and its bytes. The internal operations "have no bit pattern of their own"
(R93). -/
def encode : Instr → Option (Lane × List Byte)
  | .encode => some (.cmd, [1])
  | .decode => some (.cmd, [2])
  | .plan => some (.cmd, [3])
  | .cmdReserved code => some (.cmd, [code])
  | .blkData r g b => some (.emitData, [r, g, b, 255])
  | .blkSep => some (.emitSep, [0, 0, 0, 0])
  | .blkOvfR idx mag => some (.emitOvf, [idx, 1, mag, 255])
  | .blkOvfG idx mag => some (.emitOvf, [idx, 2, mag, 255])
  | .blkOvfB idx mag => some (.emitOvf, [idx, 3, mag, 255])
  | .decSep => some (.sample .collectingData, [0, 0, 0, 0])
  | .decData p => some (.sample .collectingData, pixelBytes p)
  | .decSkip r g b => some (.sample .collectingOverflow, [r, g, b, 0])
  | .decRec p => some (.sample .collectingOverflow, pixelBytes p)
  | .chunk => none
  | .unpack _ => none
  | .strip => none
  | .clampadd _ _ => none
  | .ovfrec _ _ => none
  | .countOverflow _ => none
  | .recpack _ => none
  | .recunpack _ => none
  | .total _ _ => none
  | .csqrt _ => none
  | .side _ => none
  | .blkaddr _ _ => none
  | .wrblk _ _ _ => none
  | .issep _ => none
  | .diff _ => none
  | .apply _ => none
  | .textchk => none

/-! ### The opcode table's numbering

The table writes a pixel as the word `R ‖ G ‖ B ‖ A` (R81). -/

/-- The pixel that the table's 32-bit word stands for (R81). -/
def wordPixel (w : Nat) : Pixel :=
  ⟨BitVec.ofNat 8 (w / 16777216), BitVec.ofNat 8 (w / 65536), BitVec.ofNat 8 (w / 256), BitVec.ofNat 8 w⟩

/-- The lane in which a bare word of the table is read, since the word alone does not tell it (log 13): the zone of an
emitted block where a pattern of R82 to R84 matches, the narrowest first; else the overflow phase for A = 0 (DEC.SKIP) and
the data phase for the rest (DEC.DATA). -/
def tableLane (nbits w : Nat) : Lane :=
  if nbits ≤ 8 then .cmd
  else
    let p := wordPixel w
    if p = Pixel.zero then .emitSep
    else if p.a = 255 then
      if p.g = 1 ∨ p.g = 2 ∨ p.g = 3 then .emitOvf else .emitData
    else if p.a = 0 then .sample .collectingOverflow
    else .sample .collectingData

/-- The bytes of a table word as they are laid out in a lane. -/
def tableBytes (nbits w : Nat) : List Byte :=
  if nbits ≤ 8 then [BitVec.ofNat 8 w] else pixelBytes (wordPixel w)

/-- What the decoder reads from a word numbered as spec/opcode_table.json numbers it. The internal rows have no bits. -/
def decodeTableWord (nbits w : Nat) : Option Instr :=
  if nbits = 0 then none
  else
    match decode (tableLane nbits w) (tableBytes nbits w) with
    | .ok (i, _) => some i
    | .error _ => none

end Sys2Proof
end

