-- ==== Sys2Proof/Machine/State.lean ====
section
/-! DEFINITION. The state of PXC (10_state R20 to R47) as plain data, the moves that can be pending, the reasons a step can
stop, and the state right after reset (R44). -/

namespace Sys2Proof.Machine

/-- The registers of R20, numbers 0 to 14. -/
inductive Reg where
  | cmd
  | status
  | pixelSize
  | baseR
  | baseG
  | baseB
  | ilen
  | nchunk
  | novf
  | total
  | nside
  | side
  | olen
  | cw
  | ch
  deriving DecidableEq, Repr

/-- The two byte buffers of R20, windows 15 and 16. -/
inductive Buffer where
  | ibuf
  | obuf
  deriving DecidableEq, Repr

/-- The kinds of block in the block order (R69). -/
inductive Zone where
  | data
  | sep
  | ovf
  deriving DecidableEq, Repr

/-- A pending move. The first nine are the host's, the lines of 30_encoding R91; `WR CMD, v` is how a command comes in.
The last three are the model's own and no move of a host: they run one operation of a sub-unit alone (log 3). -/
inductive Move where
  /-- `WR reg, value`. -/
  | wr (r : Reg) (v : Word)
  /-- `WRB IBUF, i, b0 b1 ...`. -/
  | wrb (i : Nat) (bs : List Byte)
  /-- `RD reg`. -/
  | rd (r : Reg)
  /-- `RDB buffer, i, n`. -/
  | rdb (b : Buffer) (i n : Nat)
  /-- `NEW w, h`. -/
  | new (w h : Word)
  /-- `SET x, y, p`. -/
  | set (x y : Nat) (p : Pixel)
  /-- `GET x, y`. -/
  | get (x y : Nat)
  /-- `RESET`. -/
  | reset
  /-- Present the bytes of a block to the encoder's block writer, in a zone of the block order. -/
  | emit (z : Zone) (bytes : List Byte)
  /-- Present the bytes of a sampled pixel to the decoder's classifier, in the phase it is in. -/
  | sample (bytes : List Byte)
  /-- Run one operation with its operands. -/
  | op (i : Instr)
  deriving DecidableEq, Repr

/-- What the host's latest read returned (the model's own record of it, log 2). -/
inductive HostData where
  | none
  | value (v : Word)
  | bytes (bs : List Byte)
  | pixel (p : Pixel)
  deriving DecidableEq, Repr

/-- The pixel set of a block, `{(x0 + dx, y0 + dy) : 0 ≤ dx < size, 0 ≤ dy < size}` (R138). -/
structure Area where
  x0 : Nat
  y0 : Nat
  size : Nat
  deriving DecidableEq, Repr

/-- The result port: what the latest internal operation that was run alone answered (the model's own, log 3). -/
inductive OpResult where
  | none
  /-- CHUNK. -/
  | chunks (cs : List Rgb)
  /-- UNPACK, STRIP and APPLY: the byte sequence they answer. -/
  | bytes (bs : List Byte)
  /-- CLAMPADD: `v`, `ovf`, `mag`. -/
  | clamp (v : Byte) (ovf : Bool) (mag : Byte)
  /-- OVFREC: the colour and the records. -/
  | chunkRecords (color : Rgb) (recs : List Record)
  /-- COUNT_OVERFLOW, TOTAL, CSQRT and SIDE. -/
  | nat (n : Nat)
  /-- RECPACK. -/
  | pixel (p : Pixel)
  /-- RECUNPACK. -/
  | triple (t : Triple)
  /-- BLKADDR: row, column, and the pixel set with the origin. -/
  | block (row col : Nat) (area : Area)
  /-- ISSEP and TEXTCHK. -/
  | bit (b : Bool)
  /-- DIFF. -/
  | rgb (d : Rgb)
  deriving DecidableEq, Repr

/-- The canvas (R60, R61): its width, its height, and the pixels that differ from `DEFAULT_PIXEL`, by key. -/
structure Canvas where
  cw : Word
  ch : Word
  cells : List (Nat × Pixel)
  deriving DecidableEq, Repr

/-- The result registers of the planner (R30). -/
structure Plan where
  nchunk : BitVec 8
  novf : BitVec 10
  total : BitVec 10
  nside : BitVec 6
  side : Word
  deriving DecidableEq, Repr

/-- What the sequencers hold while a command runs (R22, R40 to R42). Hidden from the host. -/
structure Seq where
  /-- The block index `k` (R22). -/
  k : Nat
  /-- The chunk index `i` of the encoder (R40). -/
  i : Nat
  /-- The record index `j` of the encoder (R40). -/
  j : Nat
  /-- The decoder's phase (R40, R182). -/
  phase : Phase
  /-- The block columns, `M` of R138: `N` in ENCODE, `cols` in DECODE (R171). -/
  cols : Nat
  /-- The block rows: `N` in ENCODE, `rows` in DECODE (R171). -/
  rows : Nat
  /-- `color[i]` of step 3 of R150. -/
  colors : List Rgb
  /-- The overflow-record buffer `ORB` (R41). -/
  orb : List Record
  /-- The decoder's data buffer `buf` (R42). -/
  buf : List Byte
  /-- The decoder's record list `recs` (R42). -/
  recs : List Triple
  /-- The stripped buffer `out` (R113, R181). -/
  out : List Byte
  deriving DecidableEq, Repr

/-- The values every command starts from: `k = 0` (R22), `COLLECTING_DATA` and an empty buffer (R45), empty lists (R42, step
3 of R150). Between commands the model holds these (log 4). -/
def Seq.initial : Seq :=
  { k := 0, i := 0, j := 0, phase := .collectingData, cols := 0, rows := 0,
    colors := [], orb := [], buf := [], recs := [], out := [] }

/-- All of PXC's state (R20, R40), its parameters (R7), and the model's own fields. -/
structure State where
  /-- The parameters of the implementation, which no step changes (R7, log 1). -/
  cfg : Config
  /-- `STATUS`, register 1 (R24). -/
  status : BitVec 8
  /-- `PIXEL_SIZE`, register 2 (R23). -/
  pixelSize : Word
  /-- `BASE_R`, `BASE_G`, `BASE_B`, registers 3 to 5 (R23). -/
  base : Rgb
  /-- `ILEN`, register 6 (R25). -/
  ilen : Word
  /-- `NCHUNK`, `NOVF`, `TOTAL`, `NSIDE`, `SIDE`, registers 7 to 11 (R30). -/
  plan : Plan
  /-- `OLEN`, register 12 (R29). -/
  olen : Word
  /-- `CW`, `CH`, registers 13 and 14, and `CPIX`, window 17 (R60 to R64). -/
  canvas : Canvas
  /-- `IBUF`, window 15: the cells written since reset (R27). -/
  ibuf : List Host.Cell
  /-- `OBUF`, window 16: the cells that hold a specified value (R28). -/
  obuf : List Host.Cell
  /-- The sequencers' hidden state (R40 to R42). -/
  seq : Seq
  /-- The model's own: the result port of an operation run alone (log 3). -/
  result : OpResult
  /-- The model's own: what the host's latest read returned (log 2). -/
  rdata : HostData
  /-- The model's own: how many free values have been drawn (logs 6 to 8, 10, 12, 21, 26). -/
  draws : Nat
  /-- The model's own: the pending moves, the first one next (logs 2, 14). -/
  script : List Move
  deriving DecidableEq, Repr

/-- Why the machine stops at an address that does not exist. -/
inductive Fault where
  /-- A host `get` or `set`, or a block written alone, with a pixel outside the canvas (R65, U10). Safe: the spec gives the
  access no meaning. ENCODE and DECODE never raise it (R65, R140, R171). -/
  | noSuchPixel
  /-- A host access to an `IBUF` cell above 764 or an `OBUF` cell at or above `OBUF_CAP`, or CHUNK run alone with
  `ILEN > 765` (R20, R25, R60). Safe: the cell does not exist. -/
  | noSuchCell
  deriving DecidableEq, Repr

/-- Why a move has no meaning. -/
inductive Refusal where
  /-- An instruction without a meaning. Raised by no arm: every instruction has one. -/
  | notModelled (mnemonic : String)
  /-- ENCODE, PLAN or CHUNK would read an `IBUF` cell the host has not written since reset (R27, R244, U9: `refuse`). Safe. -/
  | ibufUnwritten
  /-- A host write to a read-only register other than `STATUS` (R20, U10; log 9). Safe. -/
  | readOnly (r : Reg)
  /-- Bytes presented to a sub-unit that are no instruction of their lane (R82 to R84). Safe. -/
  | undecodable (e : Reject)
  /-- A decoder class run alone in a phase, or on a pixel, to which its row does not apply (R88; log 20). Safe. -/
  | outOfClass
  deriving DecidableEq, Repr

/-- What a meaning answers. -/
abbrev Answer := Host.Outcome State Fault Refusal

/-- The state after reset (R44): every register 0, no canvas, the buffers' contents unspecified (nothing listed), and the
parameters at their defaults (R7). -/
def State.reset : State :=
  { cfg := Config.standard
    status := 0
    pixelSize := 0
    base := ⟨0, 0, 0⟩
    ilen := 0
    plan := ⟨0, 0, 0, 0, 0⟩
    olen := 0
    canvas := ⟨0, 0, []⟩
    ibuf := []
    obuf := []
    seq := Seq.initial
    result := .none
    rdata := .none
    draws := 0
    script := [] }

end Sys2Proof.Machine
end

