-- ==== Sys2Proof/Machine/Flags.lean ====
section
/-! DEFINITION. `STATUS` and its fields (R24), the error codes (R204), and the overflow indication of the clamping adder
(R26, R120), which is an operation result and not stored. -/

namespace Sys2Proof.Machine

/-- The errors a command can raise (R200 to R207). AmbiguousSeparator (code 4) is none of them: "PXC never raises it"
(R202, U3). -/
inductive Error where
  | inputTooLarge
  | invalidPixelSize
  | invalidEncoding
  | illegalCommand
  | bufferOverrun
  deriving DecidableEq, Repr

/-- The codes of R204. 0 is "none"; 4 and 7 are reserved and never produced (U17). -/
def errorCode : Error → BitVec 3
  | .inputTooLarge => 1
  | .invalidPixelSize => 2
  | .invalidEncoding => 3
  | .illegalCommand => 5
  | .bufferOverrun => 6

/-- `PHASE`: 0 = `COLLECTING_DATA`, 1 = `COLLECTING_OVERFLOW` (R24). -/
def phaseBit : Phase → BitVec 1
  | .collectingData => 0
  | .collectingOverflow => 1

/-- `STATUS.ERR`, bits 2..0 (R24). -/
def statusErr (st : BitVec 8) : BitVec 3 := st.extractLsb' 0 3

/-- `STATUS.PHASE`, bit 3 (R24). -/
def statusPhase (st : BitVec 8) : BitVec 1 := st.extractLsb' 3 1

/-- `STATUS[7:4]`, which reads as 0 (R24). -/
def statusHigh (st : BitVec 8) : BitVec 4 := st.extractLsb' 4 4

/-- `STATUS.ERR <- code`, the other bits kept. -/
def withErr (code : BitVec 3) (st : BitVec 8) : BitVec 8 := statusHigh st ++ statusPhase st ++ code

/-- `STATUS.PHASE <- bit`, the other bits kept. -/
def withPhase (bit : BitVec 1) (st : BitVec 8) : BitVec 8 := statusHigh st ++ bit ++ statusErr st

/-- The 9-bit sum of the clamping adder as a number, 0..510, which "never wraps" (R120). -/
def laneSum (b d : Byte) : Nat := b.toNat + d.toNat

/-- `ovf` of the clamping adder: the sum exceeds 255 (R120, R126). -/
def laneOverflows (b d : Byte) : Bool := decide (255 < laneSum b d)

end Sys2Proof.Machine
end

