-- ==== Sys2Proof/Machine/Operands.lean ====
section
/-! DEFINITION. How operands are assembled, in both directions (R87): saturating arithmetic on channels, the pixel of each
block kind, the classifier's classes, and reading the input from `IBUF`. -/

namespace Sys2Proof.Machine

/-- `max(0, p − b)` on one channel (R172). -/
def satSub (p b : Byte) : Byte := BitVec.ofNat 8 (p.toNat - b.toNat)

/-- `min(255, a + m)` on one byte, the 9-bit sum of R176. -/
def satAdd (a m : Byte) : Byte := BitVec.ofNat 8 (min 255 (a.toNat + m.toNat))

/-- CLAMPADD (R120): the stored channel value, and the magnitude when the sum overflows. -/
def clampAdd (b d : Byte) : Byte × Option Byte :=
  if laneOverflows b d then (255, some (BitVec.ofNat 8 (laneSum b d - 255)))
  else (BitVec.ofNat 8 (laneSum b d), none)

/-- The pixel of a data block: the clamped colour, alpha 255 (R82). -/
def dataPixel (c : Rgb) : Pixel := ⟨c.r, c.g, c.b, 255⟩

/-- RECPACK (R124): `(idx, code, mag, 255)`. -/
def recPack (r : Record) : Pixel := ⟨r.idx, r.chan.code, r.mag, 255⟩

/-- RECUNPACK (R125): `(P.R, P.G, P.B)`, alpha no part of it. -/
def recUnpack (p : Pixel) : Triple := ⟨p.r, p.g, p.b⟩

/-- ISSEP (R170): all four channels are zero. -/
def isSep (p : Pixel) : Bool := decide (p.r = 0) && decide (p.g = 0) && decide (p.b = 0) && decide (p.a = 0)

/-- The four classes of a sampled pixel (R88). -/
inductive PixelClass where
  | sep
  | data
  | skip
  | record
  deriving DecidableEq, Repr

/-- The class of a pixel in a phase (R88): total. -/
def classify (ph : Phase) (p : Pixel) : PixelClass :=
  match ph with
  | .collectingData => if isSep p then .sep else .data
  | .collectingOverflow => if p.a = 0 then .skip else .record

/-- DIFF (R172): the base color subtracted with saturation, channel by channel; alpha does not enter. -/
def diffRgb (base : Rgb) (p : Pixel) : Rgb := ⟨satSub p.r base.r, satSub p.g base.g, satSub p.b base.b⟩

/-- The three bytes of a chunk in order (R66). -/
def rgbBytes (c : Rgb) : List Byte := [c.r, c.g, c.b]

/-- The position a record addresses, `idx × 3 + (code − 1)`, for a code that has a channel (R176). -/
def triplePos (t : Triple) : Option Nat :=
  if t.code = 1 ∨ t.code = 2 ∨ t.code = 3 then some (t.idx.toNat * 3 + (t.code.toNat - 1)) else none

end Sys2Proof.Machine
end

