-- ==== Sys2Proof/Machine/Ops.lean ====
section
/-! DEFINITION. The shared operations over memory and registers: cell lists in canonical form, the canvas primitives (R62 to
R64), the byte buffers, free values, and what an error does (R206). -/

namespace Sys2Proof.Machine

/-! ### Cell lists: address and contents, addresses strictly rising -/

/-- The contents listed at an address. -/
def lookupCell {α : Type} (a : Nat) : List (Nat × α) → Option α
  | [] => none
  | (b, v) :: rest => if a = b then some v else lookupCell a rest

/-- List `v` at an address, in its place. -/
def insertCell {α : Type} (a : Nat) (v : α) : List (Nat × α) → List (Nat × α)
  | [] => [(a, v)]
  | (b, w) :: rest =>
    if a < b then (a, v) :: (b, w) :: rest
    else if a = b then (a, v) :: rest
    else (b, w) :: insertCell a v rest

/-- List nothing at an address. -/
def eraseCell {α : Type} (a : Nat) : List (Nat × α) → List (Nat × α)
  | [] => []
  | (b, w) :: rest => if a = b then rest else (b, w) :: eraseCell a rest

/-- The addresses of a list rise strictly and are at or above `lo`. -/
def risingFrom {α : Type} (lo : Nat) : List (Nat × α) → Bool
  | [] => true
  | (b, _) :: rest => decide (lo ≤ b) && risingFrom (b + 1) rest

/-- A byte sequence as cells, from an address on. -/
def cellsFrom (a : Nat) : List Byte → List Host.Cell
  | [] => []
  | b :: rest => (a, b) :: cellsFrom (a + 1) rest

/-! ### The canvas -/

/-- The list key of the pixel at `(x, y)` (log 16: coordinates are below 2^32, so keys of different pixels differ). -/
def pixelKey (x y : Nat) : Nat := y * 4294967296 + x

/-- `(x, y)` is a pixel of the canvas (R60). -/
def Canvas.has (c : Canvas) (x y : Nat) : Bool := decide (x < c.cw.toNat) && decide (y < c.ch.toNat)

/-- `get(x, y)` (R62), for a pixel of the canvas; a pixel not listed reads as `DEFAULT_PIXEL` (R64). -/
def Canvas.pixelAt (c : Canvas) (x y : Nat) : Pixel := (lookupCell (pixelKey x y) c.cells).getD Pixel.zero

/-- `set(x, y, p)` (R63), for a pixel of the canvas. -/
def Canvas.put (c : Canvas) (x y : Nat) (p : Pixel) : Canvas :=
  { c with cells := if p = Pixel.zero then eraseCell (pixelKey x y) c.cells else insertCell (pixelKey x y) p c.cells }

/-- `new(w, h)` (R64): every pixel is `DEFAULT_PIXEL`, whatever the canvas held before is gone. -/
def Canvas.new (w h : Word) : Canvas := { cw := w, ch := h, cells := [] }

/-- `n` pixels of a row from `x0` on. -/
def Canvas.fillRow (c : Canvas) (x0 y : Nat) (p : Pixel) : Nat → Canvas
  | 0 => c
  | n + 1 => (Canvas.fillRow c x0 y p n).put (x0 + n) y p

/-- `n` rows of `w` pixels from `(x0, y0)` on (log 17: the order of the writes is free, R72). -/
def Canvas.fillRows (c : Canvas) (x0 y0 w : Nat) (p : Pixel) : Nat → Canvas
  | 0 => c
  | n + 1 => (Canvas.fillRows c x0 y0 w p n).fillRow x0 (y0 + n) p w

/-- Every pixel of an area. -/
def Canvas.fill (c : Canvas) (a : Area) (p : Pixel) : Canvas := c.fillRows a.x0 a.y0 a.size p a.size

/-- `(x, y)` is in the area (R138). -/
def Area.contains (a : Area) (x y : Nat) : Bool :=
  decide (a.x0 ≤ x) && decide (x < a.x0 + a.size) && decide (a.y0 ≤ y) && decide (y < a.y0 + a.size)

/-- Every pixel of the area is a pixel of the canvas (an area of size 0 has none). -/
def Canvas.covers (c : Canvas) (a : Area) : Bool :=
  decide (a.size = 0) || (decide (a.x0 + a.size ≤ c.cw.toNat) && decide (a.y0 + a.size ≤ c.ch.toNat))

/-- The canvas list is in canonical form: keys rise, every listed pixel lies on the canvas, none holds `DEFAULT_PIXEL`. -/
def Canvas.wf (c : Canvas) : Bool :=
  risingFrom 0 c.cells &&
    c.cells.all fun e =>
      c.has (e.1 % 4294967296) (e.1 / 4294967296) && decide (e.2 ≠ Pixel.zero)

/-! ### The byte buffers -/

/-- `IBUF[0 .. n-1]` as a byte sequence, from index `i` on; `none` where a cell has not been written (R27, U9). -/
def readInput (ibuf : List Host.Cell) (i : Nat) : Nat → Option (List Byte)
  | 0 => some []
  | n + 1 =>
    match lookupCell i ibuf, readInput ibuf (i + 1) n with
    | some b, some rest => some (b :: rest)
    | _, _ => none

/-- Write bytes to cells from index `i` on. -/
def writeCells (cells : List Host.Cell) (i : Nat) : List Byte → List Host.Cell
  | [] => cells
  | b :: rest => writeCells (insertCell i b cells) (i + 1) rest

/-- Read `n` cells from index `i` on; a cell without a specified value gives the next free value (R28, U11; logs 6, 12).
Answers the bytes and the counter after the draws. -/
def readCells (cells : List Host.Cell) (i : Nat) : Nat → Nat → List Byte × Nat
  | 0, d => ([], d)
  | n + 1, d =>
    match lookupCell i cells with
    | some b => let (bs, d') := readCells cells (i + 1) n d; (b :: bs, d')
    | none => let (bs, d') := readCells cells (i + 1) n (d + 1); (Config.freeByte d :: bs, d')

/-- The number of cells of `OBUF` allows index `n` as an end (R20, R28). -/
def withinObuf (cap : Option Nat) (n : Nat) : Bool :=
  match cap with
  | none => true
  | some c => decide (n ≤ c)

/-- The memories of a state are in canonical form. -/
def Memory.wf (s : State) : Bool :=
  s.canvas.wf &&
    (risingFrom 0 s.ibuf && s.ibuf.all fun e => decide (e.1 < Config.inMax)) &&
    (risingFrom 0 s.obuf && s.obuf.all fun e => withinObuf s.cfg.obufCap (e.1 + 1))

/-! ### Errors -/

/-- What an error does: the table of R206, and nothing else of the host-visible state. There is no saved pc, status or mode
and control goes nowhere ("Nothing is saved"). The first three come before the sequencers start; the last two end a DECODE
that has started, so the hidden state does not survive them (R40, log 4). BufferOverrun can only happen in
`COLLECTING_DATA` (90_conflicts C11); InvalidEncoding leaves the phase the scan ended in.
"There is no return instruction" (R210): after an error PXC is idle and the next command runs as usual. -/
def raise (e : Error) (s : State) : State :=
  match e with
  | .inputTooLarge => { s with status := withErr (errorCode e) s.status }
  | .invalidPixelSize => { s with status := withErr (errorCode e) s.status }
  | .illegalCommand => { s with status := withErr (errorCode e) s.status }
  | .bufferOverrun =>
    { s with
      status := withErr (errorCode e) (withPhase (phaseBit .collectingData) s.status)
      olen := 0, obuf := [], seq := Seq.initial }
  | .invalidEncoding =>
    { s with
      status := withErr (errorCode e) (withPhase (phaseBit s.seq.phase) s.status)
      olen := 0, obuf := [], seq := Seq.initial }

/-- `PIXEL_SIZE` is unusable: 0 or above `PIXEL_SIZE_MAX` (R201). -/
def badPixelSize (s : State) : Bool :=
  decide (s.pixelSize.toNat = 0) || decide (s.cfg.pixelSizeMax < s.pixelSize.toNat)

/-- Hand a value to the result port. -/
def answer (r : OpResult) (s : State) : Answer := .next { s with result := r }

/-- Hand a number to the result port: the one the rule gives for operands in its ranges, a free value for others, for which
the rule states no result (DESIGN CHOICE, log 26). -/
def answerNat (stated : Bool) (n : Nat) (s : State) : Answer :=
  if stated then answer (.nat n) s else answer (.nat (Config.freeNat s.draws)) { s with draws := s.draws + 1 }

end Sys2Proof.Machine
end

