-- ==== Sys2Proof/Machine/Chunker.lean ====
section
/-! DEFINITION. The pack/unpack engine (40_chunker): CHUNK, UNPACK, STRIP. -/

namespace Sys2Proof.Machine

/-- CHUNK (R110): runs of 3 bytes, the last one padded with zero bytes. -/
def chunkBytes : List Byte → List Rgb
  | [] => []
  | [a] => [⟨a, 0, 0⟩]
  | [a, b] => [⟨a, b, 0⟩]
  | a :: b :: c :: rest => ⟨a, b, c⟩ :: chunkBytes rest

/-- UNPACK (R112): three bytes longer, or `none` where that would exceed `OBUF_CAP`. -/
def unpackBytes (cap : Option Nat) (buf : List Byte) (d : Rgb) : Option (List Byte) :=
  if withinObuf cap (buf.length + 3) then some (buf ++ rgbBytes d) else none

/-- STRIP (R113): the longest initial part that is empty or ends in a non-zero byte. -/
def stripZeros (buf : List Byte) : List Byte := (buf.reverse.dropWhile fun b => decide (b = 0)).reverse

/-- CHUNK run alone: the input comes from `IBUF[0 .. ILEN-1]`; "n ≤ 765 (the caller has checked it)". -/
def execChunk (s : State) : Answer :=
  if s.ilen.toNat ≤ Config.inMax then
    match readInput s.ibuf 0 s.ilen.toNat with
    | some input => answer (.chunks (chunkBytes input)) s
    | none => .refused .ibufUnwritten
  else .fault .noSuchCell

/-- UNPACK run alone, on the sequencer's data buffer; raises BufferOverrun (R112, R205). -/
def execUnpack (d : Rgb) (s : State) : Answer :=
  match unpackBytes s.cfg.obufCap s.seq.buf d with
  | some buf => answer (.bytes buf) { s with seq := { s.seq with buf := buf } }
  | none => .next (raise .bufferOverrun s)

/-- STRIP run alone, on the sequencer's data buffer. -/
def execStrip (s : State) : Answer :=
  answer (.bytes (stripZeros s.seq.buf)) { s with seq := { s.seq with out := stripZeros s.seq.buf } }

end Sys2Proof.Machine
end

