-- ==== Sys2Proof/Machine/Overflow.lean ====
section
/-! DEFINITION. The clamping adder with the overflow detector, and the record packer and unpacker (41_overflow_recorder):
CLAMPADD, OVFREC, COUNT_OVERFLOW, RECPACK, RECUNPACK. -/

namespace Sys2Proof.Machine

/-- The record of one lane of chunk `i`, if it overflows. -/
def laneRecord (i : Byte) (ch : Channel) (b d : Byte) : List Record :=
  match (clampAdd b d).2 with
  | some mag => [⟨i, ch, mag⟩]
  | none => []

/-- OVFREC (R121): the data block's colour and the records of chunk `i`, channels in the order R, G, B. -/
def ovfRec (base : Rgb) (i : Byte) (c : Rgb) : Rgb × List Record :=
  (⟨(clampAdd base.r c.r).1, (clampAdd base.g c.g).1, (clampAdd base.b c.b).1⟩,
    laneRecord i .red base.r c.r ++ laneRecord i .green base.g c.g ++ laneRecord i .blue base.b c.b)

/-- One round of step 3 of R150: chunk `i` through OVFREC, its records at the end of `ORB` (R41, R122). -/
def overflowStep (base : Rgb) (q : Seq) (c : Rgb) : Seq :=
  let r := ovfRec base (BitVec.ofNat 8 q.i) c
  { q with i := q.i + 1, colors := q.colors ++ [r.1], orb := q.orb ++ r.2 }

/-- Step 3 of R150 for all chunks. -/
def overflowPass (base : Rgb) (chunks : List Rgb) : Seq := chunks.foldl (overflowStep base) Seq.initial

/-- 1 for a lane whose sum exceeds 255. -/
def laneCount (b d : Byte) : Nat := if laneOverflows b d then 1 else 0

/-- COUNT_OVERFLOW (R123): the number of pairs (chunk, channel) whose sum exceeds 255. -/
def countOverflow (base : Rgb) : List Rgb → Nat
  | [] => 0
  | c :: cs => laneCount base.r c.r + laneCount base.g c.g + laneCount base.b c.b + countOverflow base cs

/-- CLAMPADD run alone. With `ovf = 0`, "mag undefined (not used)": a free value (log 7). -/
def execClampadd (b d : Byte) (s : State) : Answer :=
  match clampAdd b d with
  | (v, some mag) => answer (.clamp v true mag) s
  | (v, none) => answer (.clamp v false (Config.freeByte s.draws)) { s with draws := s.draws + 1 }

/-- OVFREC run alone, on the base color registers. R121 has `i` in 0..254: the records of chunk index 255 carry a free index,
while the colour, the channels and the magnitudes do not depend on it (DESIGN CHOICE, log 26). -/
def execOvfrec (i : Byte) (c : Rgb) (s : State) : Answer :=
  if i.toNat ≤ 254 then answer (.chunkRecords (ovfRec s.base i c).1 (ovfRec s.base i c).2) s
  else
    answer (.chunkRecords (ovfRec s.base i c).1 (ovfRec s.base (Config.freeByte s.draws) c).2)
      { s with draws := s.draws + 1 }

/-- COUNT_OVERFLOW run alone, on the base color registers. It "must equal the number of (chunk, channel) pairs whose sum
exceeds 255" (R123), of however many chunks. -/
def execCountOverflow (cs : List Rgb) (s : State) : Answer := answer (.nat (countOverflow s.base cs)) s

/-- RECPACK run alone. R124 has `mag` in 1..255: for 0 the pixel's B is free (DESIGN CHOICE, log 26). -/
def execRecpack (r : Record) (s : State) : Answer :=
  if 1 ≤ r.mag.toNat then answer (.pixel (recPack r)) s
  else answer (.pixel (recPack { r with mag := Config.freeByte s.draws })) { s with draws := s.draws + 1 }

/-- RECUNPACK run alone. R125 has `P.A ≠ 0`: for `P.A = 0` the triple is free (DESIGN CHOICE, log 26). -/
def execRecunpack (p : Pixel) (s : State) : Answer :=
  if p.a ≠ 0 then answer (.triple (recUnpack p)) s
  else
    answer (.triple ⟨Config.freeByte s.draws, Config.freeByte (s.draws + 1), Config.freeByte (s.draws + 2)⟩)
      { s with draws := s.draws + 3 }

end Sys2Proof.Machine
end

