-- ==== Sys2Proof/Machine/Layout.lean ====
section
/-! DEFINITION. The block-layout planner (42_layout_planner): TOTAL, CSQRT, SIDE, BLKADDR, all on natural numbers (R8). -/

namespace Sys2Proof.Machine

/-- TOTAL (R135): the chunks, the records, and the separator. -/
def totalBlocks (nch novf : Nat) : Nat := nch + novf + 1

/-- The least number from `n` on whose square is at least `t`, looked for in as many rounds as the first argument says. -/
def csqrtFrom (t : Nat) : Nat → Nat → Nat
  | 0, n => n
  | rounds + 1, n => if t ≤ n * n then n else csqrtFrom t rounds (n + 1)

/-- CSQRT (R136): the least natural number N with N × N ≥ T. It is at most T, so T rounds from 0 find it. -/
def ceilSqrt (t : Nat) : Nat := csqrtFrom t t 0

/-- SIDE (R137). -/
def sideOf (n s : Nat) : Nat := n * s

/-- The row of block `k` (R138). -/
def blockRow (k m : Nat) : Nat := k / m

/-- The column of block `k` (R138). -/
def blockCol (k m : Nat) : Nat := k % m

/-- The pixel set of block `k`, its origin first: `x` along the row (R61, R138). -/
def blockArea (k m s : Nat) : Area := { x0 := blockCol k m * s, y0 := blockRow k m * s, size := s }

/-- The square that a block written alone covers: R138's. With no columns (`M = 0`) R138 gives the block no row and column:
they are free, within the whole blocks of the canvas, because a block's pixels are "inside the canvas" (R152) and its origin
is a multiple of `s` (R67). DESIGN CHOICE, log 21. -/
def blockSquare (c : Canvas) (k m s d : Nat) : Area :=
  if m = 0 ∧ 0 < s then
    { x0 := Config.freeNat d % (c.cw.toNat / s) * s, y0 := Config.freeNat (d + 1) % (c.ch.toNat / s) * s, size := s }
  else blockArea k m s

/-- The draw counter after `blockSquare`. -/
def blockDraws (m s d : Nat) : Nat := if m = 0 ∧ 0 < s then d + 2 else d

/-- TOTAL run alone. -/
def execTotal (nch novf : Nat) (s : State) : Answer :=
  answerNat (decide (nch ≤ Config.chunkMax) && decide (novf ≤ Config.ovfMax)) (totalBlocks nch novf) s

/-- CSQRT run alone. R136 has `T` in 1..1021, and states the result up to 1024 ("`T = 1024` would give 32"; R139 "Row `N` runs
from `(N − 1)² + 1` to `N²`"). -/
def execCsqrt (t : Nat) (s : State) : Answer :=
  answerNat (decide (1 ≤ t) && decide (t ≤ Config.nMax * Config.nMax)) (ceilSqrt t) s

/-- SIDE run alone, with `s = PIXEL_SIZE`. R137 has `N` in 1..32 and a usable `PIXEL_SIZE`; outside these the side is a free
value (DESIGN CHOICE, log 26). -/
def execSide (n : Nat) (s : State) : Answer :=
  answerNat (decide (1 ≤ n) && decide (n ≤ Config.nMax) && !badPixelSize s) (sideOf n s.pixelSize.toNat) s

/-- BLKADDR run alone, with `s = PIXEL_SIZE`. DESIGN CHOICE (log 26): with no columns (`M = 0`) the row and the column are free,
and the pixel set is computed from them; with `PIXEL_SIZE = 0` (R138 has `s ≥ 1`) the origin and the pixel set are free. Every
`k` is taken for a block index: R138 bounds it by a number of rows that is no operand. -/
def execBlkaddr (k m : Nat) (s : State) : Answer :=
  let size := s.pixelSize.toNat
  let row := if m = 0 then Config.freeNat s.draws else blockRow k m
  let col := if m = 0 then Config.freeNat (s.draws + 1) else blockCol k m
  let area : Area :=
    if size = 0 then ⟨Config.freeNat (s.draws + 2), Config.freeNat (s.draws + 3), Config.freeNat (s.draws + 4)⟩
    else ⟨col * size, row * size, size⟩
  answer (.block row col area) { s with draws := if m = 0 ∨ size = 0 then s.draws + 5 else s.draws }

end Sys2Proof.Machine
end

