-- ==== Sys2Proof/Machine/Encoder.lean ====
section
/-! DEFINITION. The encoder sequencer (43_encoder): the emission of blocks (the BLK rows), WRBLK, ENCODE, PLAN, and the
reserved command codes (60_exceptions R203). -/

namespace Sys2Proof.Machine

/-- The sequencer after a block: `k` "is advanced by exactly 1 after each block" (R22), and the loop index of its step (R40,
steps 5 and 7 of R150). -/
def advance (z : Zone) (q : Seq) : Seq :=
  match z with
  | .data => { q with k := q.k + 1, i := q.i + 1 }
  | .sep => { q with k := q.k + 1 }
  | .ovf => { q with k := q.k + 1, j := q.j + 1 }

/-- Emit one block: WRBLK at the sequencer's block index (R152), then advance. -/
def emitBlock (size : Nat) (z : Zone) (x : Seq × Canvas) (p : Pixel) : Seq × Canvas :=
  (advance z x.1, x.2.fill (blockArea x.1.k x.1.cols size) p)

/-- Emit blocks one after the other. -/
def emitBlocks (size : Nat) (z : Zone) (ps : List Pixel) (x : Seq × Canvas) : Seq × Canvas :=
  ps.foldl (emitBlock size z) x

/-- WRBLK run alone (R152): the block's pixels take the value, nothing else changes; a block with a pixel that does not exist
(R65, U10) is not written. -/
def writeBlock (k m : Nat) (p : Pixel) (s : State) : Answer :=
  let a := blockSquare s.canvas k m s.pixelSize.toNat s.draws
  if s.canvas.covers a then
    .next { s with canvas := s.canvas.fill a p, draws := blockDraws m s.pixelSize.toNat s.draws }
  else .fault .noSuchPixel

/-- Emission of one block run alone, at `seq.k` of `seq.cols` columns with `s = PIXEL_SIZE`: WRBLK, then advance. -/
def emitAlone (z : Zone) (p : Pixel) (s : State) : Answer :=
  match writeBlock s.seq.k s.seq.cols p s with
  | .next t => .next { t with seq := advance z s.seq }
  | .fault f => .fault f
  | .refused r => .refused r

/-- BLK.DATA (R82, R154). -/
def execBlkData (r g b : Byte) (s : State) : Answer := emitAlone .data (dataPixel ⟨r, g, b⟩) s

/-- BLK.SEP (R83, R155): written even where the pixels already hold the value. -/
def execBlkSep (s : State) : Answer := emitAlone .sep Pixel.zero s

/-- BLK.OVF.R (R84, R124, R156). -/
def execBlkOvfR (idx mag : Byte) (s : State) : Answer := emitAlone .ovf (recPack ⟨idx, .red, mag⟩) s

/-- BLK.OVF.G (R84, R124, R156). -/
def execBlkOvfG (idx mag : Byte) (s : State) : Answer := emitAlone .ovf (recPack ⟨idx, .green, mag⟩) s

/-- BLK.OVF.B (R84, R124, R156). -/
def execBlkOvfB (idx mag : Byte) (s : State) : Answer := emitAlone .ovf (recPack ⟨idx, .blue, mag⟩) s

/-- WRBLK (R152). -/
def execWrblk (k m : Nat) (p : Pixel) (s : State) : Answer := writeBlock k m p s

/-- Steps 1 and 1b of R150, and the reading of the input: `IBUF` "is not read before both checks have passed" (R151). -/
def withInput (s : State) (go : List Byte → Answer) : Answer :=
  if Config.inMax < s.ilen.toNat then .next (raise .inputTooLarge s)
  else if badPixelSize s then .next (raise .invalidPixelSize s)
  else
    match readInput s.ibuf 0 s.ilen.toNat with
    | some input => go input
    | none => .refused .ibufUnwritten

/-- `total_blocks` after step 3 of R150 (R135, with `NOV = len(recs)`). -/
def passTotal (q : Seq) : Nat := totalBlocks q.colors.length q.orb.length

/-- The result registers of step 8 of R150 after the pass of step 3: their widths hold the greatest values (R30). -/
def planOf (q : Seq) (size : Nat) : Plan :=
  { nchunk := BitVec.ofNat 8 q.colors.length
    novf := BitVec.ofNat 10 q.orb.length
    total := BitVec.ofNat 10 (passTotal q)
    nside := BitVec.ofNat 6 (ceilSqrt (passTotal q))
    side := BitVec.ofNat 32 (sideOf (ceilSqrt (passTotal q)) size) }

/-- The canvas of steps 4 to 7 of R150: `new(S, S)`, the data blocks, the separator, the overflow blocks. -/
def paint (q : Seq) (size : Nat) : Seq × Canvas :=
  let n := ceilSqrt (passTotal q)
  let side := BitVec.ofNat 32 (sideOf n size)
  let sized := ({ q with k := 0, i := 0, j := 0, cols := n, rows := n }, Canvas.new side side)
  let data := emitBlocks size .data (q.colors.map dataPixel) sized
  let sep := emitBlock size .sep data Pixel.zero
  emitBlocks size .ovf (q.orb.map recPack) sep

/-- PLAN (R158): the checks, the pass and the planner; no canvas access. -/
def execPlan (s : State) : Answer :=
  withInput s fun input =>
    let q := overflowPass s.base (chunkBytes input)
    .next { s with plan := planOf q s.pixelSize.toNat, status := withErr 0 s.status, seq := Seq.initial }

/-- ENCODE (R150). -/
def execEncode (s : State) : Answer :=
  withInput s fun input =>
    let q := overflowPass s.base (chunkBytes input)
    .next { s with
      canvas := (paint q s.pixelSize.toNat).2
      plan := planOf q s.pixelSize.toNat
      status := withErr 0 s.status
      seq := Seq.initial }

/-- CMD.RESERVED (R203): IllegalCommand, nothing else changes. The code itself plays no part. -/
def execCmdReserved (_code : Byte) (s : State) : Answer := .next (raise .illegalCommand s)

end Sys2Proof.Machine
end

