-- ==== Sys2Proof/Machine/Text.lean ====
section
/-! DEFINITION. `LegalText` (R179): the text predicates, the default of which is well-formed UTF-8 (R180). -/

namespace Sys2Proof.Machine

/-- The table of well-formed UTF-8 sequences (R180): a row is the byte ranges of its positions, inclusive. -/
def utf8Rows : List (List (Nat × Nat)) :=
  [ [(0x00, 0x7F)],
    [(0xC2, 0xDF), (0x80, 0xBF)],
    [(0xE0, 0xE0), (0xA0, 0xBF), (0x80, 0xBF)],
    [(0xE1, 0xEC), (0x80, 0xBF), (0x80, 0xBF)],
    [(0xED, 0xED), (0x80, 0x9F), (0x80, 0xBF)],
    [(0xEE, 0xEF), (0x80, 0xBF), (0x80, 0xBF)],
    [(0xF0, 0xF0), (0x90, 0xBF), (0x80, 0xBF), (0x80, 0xBF)],
    [(0xF1, 0xF3), (0x80, 0xBF), (0x80, 0xBF), (0x80, 0xBF)],
    [(0xF4, 0xF4), (0x80, 0x8F), (0x80, 0xBF), (0x80, 0xBF)] ]

/-- The bytes after a sequence that matches the row, if the bytes begin with one. -/
def afterRow : List (Nat × Nat) → List Byte → Option (List Byte)
  | [], bs => some bs
  | _ :: _, [] => none
  | (lo, hi) :: ranges, b :: bs => if lo ≤ b.toNat ∧ b.toNat ≤ hi then afterRow ranges bs else none

/-- The bytes after the sequence the bytes begin with; the rows' first bytes are disjoint, so at most one row matches. -/
def afterSequence (rows : List (List (Nat × Nat))) (bs : List Byte) : Option (List Byte) :=
  rows.findSome? fun row => afterRow row bs

/-- The bytes are a concatenation of sequences that each match a row (R180). A sequence has at least one byte, so as many
rounds as there are bytes are enough. -/
def utf8Within : Nat → List Byte → Bool
  | _, [] => true
  | 0, _ :: _ => false
  | fuel + 1, b :: bs =>
    match afterSequence utf8Rows (b :: bs) with
    | none => false
    | some rest => utf8Within fuel rest

/-- Well-formed UTF-8 (R180). -/
def wellFormedUtf8 (bs : List Byte) : Bool := utf8Within bs.length bs

/-- `LegalText` of an implementation (R179, R7). "The empty sequence is legal text" whatever the predicate (R179). -/
def legalText (rule : TextRule) (bs : List Byte) : Bool :=
  bs.isEmpty ||
    match rule with
    | .utf8 => wellFormedUtf8 bs
    | .anyBytes => true
    | .other n => Config.otherLegalText n bs

end Sys2Proof.Machine
end

