-- ==== Sys2Proof/Machine/Decoder.lean ====
section
/-! DEFINITION. The separator detector and the decoder sequencer (44_decoder): ISSEP, DIFF, APPLY, TEXTCHK, the classes of a
sampled pixel (the DEC rows), and DECODE. -/

namespace Sys2Proof.Machine

/-- APPLY (R176): a saturating addition at the record's position; every record without one, or beyond the buffer, is
ignored. -/
def applyTriple (buf : List Byte) (t : Triple) : List Byte :=
  match triplePos t with
  | some pos => if pos < buf.length then buf.set pos (satAdd (buf.getD pos 0) t.mag) else buf
  | none => buf

/-- DEC.SEP (R174): the phase becomes `COLLECTING_OVERFLOW`, nothing is appended. -/
def stepSep (q : Seq) : Seq := { q with phase := .collectingOverflow, k := q.k + 1 }

/-- DEC.DATA (R173): UNPACK of DIFF; `none` is BufferOverrun (R112). -/
def stepData (cap : Option Nat) (base : Rgb) (p : Pixel) (q : Seq) : Option Seq :=
  match unpackBytes cap q.buf (diffRgb base p) with
  | some buf => some { q with buf := buf, k := q.k + 1 }
  | none => none

/-- DEC.SKIP (R175): nothing but the next block. -/
def stepSkip (q : Seq) : Seq := { q with k := q.k + 1 }

/-- DEC.REC (R175): collect the triple; the buffer is not changed until the scan has ended. -/
def stepRecord (p : Pixel) (q : Seq) : Seq := { q with recs := q.recs ++ [recUnpack p], k := q.k + 1 }

/-- One block of the scan: the state machine of R182, by the class of R88. -/
def scanStep (cap : Option Nat) (base : Rgb) (p : Pixel) (q : Seq) : Option Seq :=
  match classify q.phase p with
  | .sep => some (stepSep q)
  | .data => stepData cap base p q
  | .skip => some (stepSkip q)
  | .record => some (stepRecord p q)

/-- The sampled pixel of block `k` (R171): the block's origin. -/
def samplePixel (c : Canvas) (k cols size : Nat) : Pixel :=
  c.pixelAt (blockArea k cols size).x0 (blockArea k cols size).y0

/-- The next `n` blocks of the scan, from `q.k` on; `none` is BufferOverrun. -/
def scanBlocks (cap : Option Nat) (base : Rgb) (c : Canvas) (size : Nat) : Nat → Seq → Option Seq
  | 0, q => some q
  | n + 1, q =>
    match scanStep cap base (samplePixel c q.k q.cols size) q with
    | some q' => scanBlocks cap base c size n q'
    | none => none

/-- Step 1 of R181: the scan geometry of R171 and the initial state of R45. -/
def scanStart (c : Canvas) (size : Nat) : Seq :=
  { Seq.initial with cols := c.cw.toNat / size, rows := c.ch.toNat / size }

/-- Steps 1 and 2 of R181: the whole scan, `rows × cols` blocks. -/
def scanCanvas (cap : Option Nat) (base : Rgb) (c : Canvas) (size : Nat) : Option Seq :=
  scanBlocks cap base c size ((scanStart c size).rows * (scanStart c size).cols) (scanStart c size)

/-- Steps 4 and 5 of R181: the records applied in order, then the strip. -/
def corrected (q : Seq) : Seq :=
  let buf := q.recs.foldl applyTriple q.buf
  { q with buf := buf, out := stripZeros buf }

/-- `OLEN <- len(out)`; a length that 32 bits do not hold is left open by R29, so it is a free value (log 8). -/
def outputLength (n d : Nat) : Word := if n < 4294967296 then BitVec.ofNat 32 n else Config.freeWord d

/-- DECODE (R181). -/
def execDecode (s : State) : Answer :=
  if badPixelSize s then .next (raise .invalidPixelSize s)
  else
    match scanCanvas s.cfg.obufCap s.base s.canvas s.pixelSize.toNat with
    | none => .next (raise .bufferOverrun s)
    | some q =>
      let q := corrected q
      if legalText s.cfg.textRule q.out then
        .next { s with
          status := withErr 0 (withPhase (phaseBit q.phase) s.status)
          obuf := cellsFrom 0 q.out
          olen := outputLength q.out.length s.draws
          draws := if q.out.length < 4294967296 then s.draws else s.draws + 1
          seq := Seq.initial }
      else .next (raise .invalidEncoding { s with seq := q })

/-- DEC.SEP run alone, in the phase its row names (R88). -/
def execDecSep (s : State) : Answer :=
  if classify s.seq.phase Pixel.zero = .sep then .next { s with seq := stepSep s.seq } else .refused .outOfClass

/-- DEC.DATA run alone (R88, R173); raises BufferOverrun. -/
def execDecData (p : Pixel) (s : State) : Answer :=
  if classify s.seq.phase p = .data then
    match stepData s.cfg.obufCap s.base p s.seq with
    | some q => .next { s with seq := q }
    | none => .next (raise .bufferOverrun s)
  else .refused .outOfClass

/-- DEC.SKIP run alone (R88, R175). -/
def execDecSkip (r g b : Byte) (s : State) : Answer :=
  if classify s.seq.phase ⟨r, g, b, 0⟩ = .skip then .next { s with seq := stepSkip s.seq } else .refused .outOfClass

/-- DEC.REC run alone (R88, R175). -/
def execDecRec (p : Pixel) (s : State) : Answer :=
  if classify s.seq.phase p = .record then .next { s with seq := stepRecord p s.seq } else .refused .outOfClass

/-- ISSEP run alone. -/
def execIssep (p : Pixel) (s : State) : Answer := answer (.bit (isSep p)) s

/-- DIFF run alone, on the base color registers. -/
def execDiff (p : Pixel) (s : State) : Answer := answer (.rgb (diffRgb s.base p)) s

/-- APPLY run alone, on the sequencer's data buffer. -/
def execApply (t : Triple) (s : State) : Answer :=
  answer (.bytes (applyTriple s.seq.buf t)) { s with seq := { s.seq with buf := applyTriple s.seq.buf t } }

/-- TEXTCHK run alone, on the stripped buffer; raises InvalidEncoding (R179). -/
def execTextchk (s : State) : Answer :=
  if legalText s.cfg.textRule s.seq.out then answer (.bit true) s else .next (raise .invalidEncoding s)

end Sys2Proof.Machine
end

