-- ==== Sys2Proof/Machine/Dispatch.lean ====
section
/-! DEFINITION. The dispatch: one arm per constructor of `Instr`, one direct call of its meaning. -/

namespace Sys2Proof.Machine

def exec (i : Instr) (s : State) : Host.Outcome State Fault Refusal :=
  match i with
  | .encode => Sys2Proof.Machine.execEncode s
  | .decode => Sys2Proof.Machine.execDecode s
  | .plan => Sys2Proof.Machine.execPlan s
  | .cmdReserved code => Sys2Proof.Machine.execCmdReserved code s
  | .blkData r g b => Sys2Proof.Machine.execBlkData r g b s
  | .blkSep => Sys2Proof.Machine.execBlkSep s
  | .blkOvfR idx mag => Sys2Proof.Machine.execBlkOvfR idx mag s
  | .blkOvfG idx mag => Sys2Proof.Machine.execBlkOvfG idx mag s
  | .blkOvfB idx mag => Sys2Proof.Machine.execBlkOvfB idx mag s
  | .decSep => Sys2Proof.Machine.execDecSep s
  | .decData p => Sys2Proof.Machine.execDecData p s
  | .decSkip r g b => Sys2Proof.Machine.execDecSkip r g b s
  | .decRec p => Sys2Proof.Machine.execDecRec p s
  | .chunk => Sys2Proof.Machine.execChunk s
  | .unpack d => Sys2Proof.Machine.execUnpack d s
  | .strip => Sys2Proof.Machine.execStrip s
  | .clampadd b d => Sys2Proof.Machine.execClampadd b d s
  | .ovfrec n c => Sys2Proof.Machine.execOvfrec n c s
  | .countOverflow cs => Sys2Proof.Machine.execCountOverflow cs s
  | .recpack r => Sys2Proof.Machine.execRecpack r s
  | .recunpack p => Sys2Proof.Machine.execRecunpack p s
  | .total nch novf => Sys2Proof.Machine.execTotal nch novf s
  | .csqrt t => Sys2Proof.Machine.execCsqrt t s
  | .side n => Sys2Proof.Machine.execSide n s
  | .blkaddr k m => Sys2Proof.Machine.execBlkaddr k m s
  | .wrblk k m p => Sys2Proof.Machine.execWrblk k m p s
  | .issep p => Sys2Proof.Machine.execIssep p s
  | .diff p => Sys2Proof.Machine.execDiff p s
  | .apply t => Sys2Proof.Machine.execApply t s
  | .textchk => Sys2Proof.Machine.execTextchk s

end Sys2Proof.Machine
end

