-- ==== Sys2Proof/Machine/Port.lean ====
section
/-! DEFINITION. The host's moves (30_encoding R91) and the model's moves that run one operation alone (log 3). -/

namespace Sys2Proof.Machine

/-- The number of a register (R20). -/
def Reg.number : Reg → Nat
  | .cmd => 0
  | .status => 1
  | .pixelSize => 2
  | .baseR => 3
  | .baseG => 4
  | .baseB => 5
  | .ilen => 6
  | .nchunk => 7
  | .novf => 8
  | .total => 9
  | .nside => 10
  | .side => 11
  | .olen => 12
  | .cw => 13
  | .ch => 14

/-- The width of a register in bits (R20). -/
def Reg.width : Reg → Nat
  | .cmd => 8
  | .status => 8
  | .pixelSize => 32
  | .baseR => 8
  | .baseG => 8
  | .baseB => 8
  | .ilen => 32
  | .nchunk => 8
  | .novf => 10
  | .total => 10
  | .nside => 6
  | .side => 32
  | .olen => 32
  | .cw => 32
  | .ch => 32

/-- What a host read of a register returns, zero-extended; `CMD` reads as 0 (R20). -/
def readReg (r : Reg) (s : State) : Word :=
  match r with
  | .cmd => 0
  | .status => s.status.setWidth 32
  | .pixelSize => s.pixelSize
  | .baseR => s.base.r.setWidth 32
  | .baseG => s.base.g.setWidth 32
  | .baseB => s.base.b.setWidth 32
  | .ilen => s.ilen
  | .nchunk => s.plan.nchunk.setWidth 32
  | .novf => s.plan.novf.setWidth 32
  | .total => s.plan.total.setWidth 32
  | .nside => s.plan.nside.setWidth 32
  | .side => s.plan.side
  | .olen => s.olen
  | .cw => s.canvas.cw
  | .ch => s.canvas.ch

/-- Run the instruction at the head of the bytes of a lane. -/
def runBytes (l : Lane) (bytes : List Byte) (s : State) : Answer :=
  match decode l bytes with
  | .ok (i, _) => exec i s
  | .error e => .refused (.undecodable e)

/-- What an 8-bit register takes from a written value: the value, or a free byte where 8 bits do not hold it, because
registers are "accessed whole" and the spec states no truncation (R20; DESIGN CHOICE, log 10). -/
def writtenByte (v : Word) (d : Nat) : Byte := if v.toNat < 256 then v.setWidth 8 else Config.freeByte d

/-- The draw counter after `writtenByte`. -/
def writtenDraws (v : Word) (d : Nat) : Nat := if v.toNat < 256 then d else d + 1

/-- A host write: `CMD` executes a command (R90), and a value that no 8 bits hold is "a value other than 0x01, 0x02, 0x03"
(R203; log 10); `STATUS` ignores the write (R24); the other read-only registers have no such move (log 9). The ranges a
command accepts are checked by the command (R23, R25). -/
def writeReg (r : Reg) (v : Word) (s : State) : Answer :=
  match r with
  | .cmd => if v.toNat < 256 then runBytes .cmd [v.setWidth 8] s else .next (raise .illegalCommand s)
  | .status => .next s
  | .pixelSize => .next { s with pixelSize := v }
  | .baseR => .next { s with base := { s.base with r := writtenByte v s.draws }, draws := writtenDraws v s.draws }
  | .baseG => .next { s with base := { s.base with g := writtenByte v s.draws }, draws := writtenDraws v s.draws }
  | .baseB => .next { s with base := { s.base with b := writtenByte v s.draws }, draws := writtenDraws v s.draws }
  | .ilen => .next { s with ilen := v }
  | r => .refused (.readOnly r)

/-- The number of cells of a buffer allows index `n` as an end (R20, R27, R28). -/
def withinBuffer (b : Buffer) (n : Nat) (s : State) : Bool :=
  match b with
  | .ibuf => decide (n ≤ Config.inMax)
  | .obuf => withinObuf s.cfg.obufCap n

/-- The cells of a buffer that hold a specified value. -/
def bufferCells (b : Buffer) (s : State) : List Host.Cell :=
  match b with
  | .ibuf => s.ibuf
  | .obuf => s.obuf

/-- `RESET` (R44, R230): every register and buffer as after reset. The parameters are the implementation's, the pending
moves, what the host has read and the draw counter are not PXC's (log 15). -/
def resetRegs (s : State) : State :=
  { State.reset with cfg := s.cfg, script := s.script, rdata := s.rdata, draws := s.draws }

/-- The lane in which an emitted block of a zone is read (R69). -/
def zoneLane : Zone → Lane
  | .data => .emitData
  | .sep => .emitSep
  | .ovf => .emitOvf

/-- Perform one move. A buffer access is judged by the end of its range: that one of no bytes, beyond the last cell, faults too,
though its range is empty (R13), is a DESIGN CHOICE (log 11). -/
def runMove (m : Move) (s : State) : Answer :=
  match m with
  | .wr r v => writeReg r v s
  | .wrb i bs =>
    if i + bs.length ≤ Config.inMax then .next { s with ibuf := writeCells s.ibuf i bs } else .fault .noSuchCell
  | .rd r => .next { s with rdata := .value (readReg r s) }
  | .rdb b i n =>
    if withinBuffer b (i + n) s then
      .next { s with
        rdata := .bytes (readCells (bufferCells b s) i n s.draws).1
        draws := (readCells (bufferCells b s) i n s.draws).2 }
    else .fault .noSuchCell
  | .new w h => .next { s with canvas := Canvas.new w h }
  | .set x y p => if s.canvas.has x y then .next { s with canvas := s.canvas.put x y p } else .fault .noSuchPixel
  | .get x y =>
    if s.canvas.has x y then .next { s with rdata := .pixel (s.canvas.pixelAt x y) } else .fault .noSuchPixel
  | .reset => .next (resetRegs s)
  | .emit z bytes => runBytes (zoneLane z) bytes s
  | .sample bytes => runBytes (.sample s.seq.phase) bytes s
  | .op i => exec i s

/-! ### The pseudo-operations of R92 -/

/-- `SETBASE r, g, b`. -/
def setBase (r g b : Byte) : List Move :=
  [.wr .baseR (r.setWidth 32), .wr .baseG (g.setWidth 32), .wr .baseB (b.setWidth 32)]

/-- `LOAD b0 b1 ...`, for at most 765 bytes. -/
def load (bs : List Byte) : List Move := [.wrb 0 bs, .wr .ilen (BitVec.ofNat 32 bs.length)]

/-- `n` SET lines of a row from `x0` on, in rising `x` (the order is the model's choice, log 17). -/
def setRow (x0 y : Nat) (p : Pixel) : Nat → List Move
  | 0 => []
  | n + 1 => setRow x0 y p n ++ [.set (x0 + n) y p]

/-- `n` rows of SET lines, in rising `y`. R92 gives BLOCK's lines "for every `x` ... and `y`" and no order: row by row from the
origin is a DESIGN CHOICE (log 17). -/
def setRows (x0 y0 w : Nat) (p : Pixel) : Nat → List Move
  | 0 => []
  | n + 1 => setRows x0 y0 w p n ++ setRow x0 (y0 + n) p w

/-- `BLOCK k, cols, s, p` (R92); the order of its SET lines is that of `setRows` (log 17). With `cols = 0` the spec gives
`k mod cols` and `k div cols` no meaning (R8 has them for a divisor above 0): the block at column `k` of row 0 is a DESIGN
CHOICE (log 27). -/
def setBlock (k cols size : Nat) (p : Pixel) : List Move :=
  setRows (blockCol k cols * size) (blockRow k cols * size) size p size

/-! ### A word of the opcode table as the next move -/

/-- The move that presents a table word in its lane; a code of at most 8 bits is a write to `CMD`. -/
def tableMove (nbits w : Nat) : Move :=
  match tableLane nbits w with
  | .cmd => .wr .cmd (BitVec.ofNat 32 (w % 256))
  | .emitData => .emit .data (tableBytes nbits w)
  | .emitSep => .emit .sep (tableBytes nbits w)
  | .emitOvf => .emit .ovf (tableBytes nbits w)
  | .sample _ => .sample (tableBytes nbits w)

/-- The phase in which the classifier is to be for a table word. -/
def tablePhase (nbits w : Nat) (ph : Phase) : Phase :=
  match tableLane nbits w with
  | .sample ph' => ph'
  | _ => ph

end Sys2Proof.Machine
end

