-- ==== Sys2Proof/Machine/Step.lean ====
section
/-! DEFINITION. One step: the first pending move is performed (R71 "accesses take effect in the order issued"). A command is
one step (R15). With nothing pending PXC "is idle and keeps all state" (R217). -/

namespace Sys2Proof.Machine

/-- One step of the machine. -/
def step (s : State) : Host.Outcome State Fault Refusal :=
  match s.script with
  | [] => .next s
  | m :: rest => runMove m { s with script := rest }

/-- The state in which the very next step runs the instruction of a table word: the word is the only pending move, and the
classifier is in the word's phase (logs 13, 14). -/
def State.withFetchWord (s : State) (nbits w : Nat) : State :=
  { s with script := [tableMove nbits w], seq := { s.seq with phase := tablePhase nbits w s.seq.phase } }

end Sys2Proof.Machine
end

