-- ==== Sys2Proof/Safety.lean ====
section
/-! DEFINITION. What claims are stated in: the host-visible state (R20), the invariant of the machine, and two rival designs
that the spec allows (running the encoder's blocks one by one, R150; applying records as they are sampled, R178). -/

namespace Sys2Proof.Machine

/-- The host-visible state of R20, with the parameters. -/
structure Visible where
  cfg : Config
  status : BitVec 8
  pixelSize : Word
  base : Rgb
  ilen : Word
  plan : Plan
  olen : Word
  canvas : Canvas
  ibuf : List Host.Cell
  obuf : List Host.Cell
  deriving DecidableEq, Repr

/-- The host-visible part of a state. -/
def State.visible (s : State) : Visible :=
  { cfg := s.cfg, status := s.status, pixelSize := s.pixelSize, base := s.base, ilen := s.ilen, plan := s.plan,
    olen := s.olen, canvas := s.canvas, ibuf := s.ibuf, obuf := s.obuf }

/-- `STATUS` holds what it can hold: `[7:4] = 0` (R24), `ERR` neither of the reserved codes 4 and 7 (R204, U17). -/
def statusLegal (st : BitVec 8) : Bool :=
  decide (statusHigh st = 0) && decide (statusErr st ≠ 4) && decide (statusErr st ≠ 7)

/-- The planner's registers are those of no plan (R44), or those of one layout (R30, R135 to R137). -/
def planLegal (p : Plan) : Bool :=
  decide (p = ⟨0, 0, 0, 0, 0⟩) ||
    (decide (p.novf.toNat ≤ 3 * p.nchunk.toNat) &&
      decide (p.total.toNat = p.nchunk.toNat + p.novf.toNat + 1) &&
      decide (p.nside.toNat = ceilSqrt p.total.toNat) &&
      decide (1 ≤ p.nside.toNat ∧ p.nside.toNat ≤ p.side.toNat) &&
      decide (p.side.toNat % p.nside.toNat = 0))

/-- The bytes of a buffer's cells in order. -/
def cellBytes (cells : List Host.Cell) : List Byte := cells.map Prod.snd

/-- `OBUF` holds a decoded sequence or nothing specified: its cells are 0, 1, ..., `OLEN` of them (where 32 bits hold the
number), they are legal text and do not end in a zero byte (R28, R29, R113, R179). -/
def outputLegal (s : State) : Bool :=
  decide (s.obuf = cellsFrom 0 (cellBytes s.obuf)) &&
    (decide (s.olen.toNat = s.obuf.length) || decide (4294967296 ≤ s.obuf.length)) &&
    withinObuf s.cfg.obufCap s.olen.toNat &&
    legalText s.cfg.textRule (cellBytes s.obuf) &&
    decide (stripZeros (cellBytes s.obuf) = cellBytes s.obuf)

/-- The sequencer's buffers are what a scan can leave: a whole number of chunks within `OBUF_CAP` (R112), records only in the
overflow phase (R175). -/
def seqLegal (cap : Option Nat) (q : Seq) : Bool :=
  decide (q.buf.length % 3 = 0) && withinObuf cap q.buf.length && decide (q.out.length ≤ q.buf.length) &&
    (decide (q.recs = []) || decide (q.phase = .collectingOverflow))

/-- The invariant: holds at reset, kept by every step. -/
structure State.Inv (s : State) : Prop where
  cfg : s.cfg.wf = true
  memory : Memory.wf s = true
  status : statusLegal s.status = true
  plan : planLegal s.plan = true
  output : outputLegal s = true
  seq : seqLegal s.cfg.obufCap s.seq = true

/-- The launch condition of ENCODE and PLAN: the length and the block size are accepted (R151) and the host has written
the input (R232, R244). -/
def State.hasInput (s : State) (input : List Byte) : Prop :=
  s.ilen.toNat ≤ Config.inMax ∧ badPixelSize s = false ∧ readInput s.ibuf 0 s.ilen.toNat = some input

/-- Only `STATUS.ERR` differs, and it holds the code (R206, first three rows). -/
def onlyErr (s t : State) (code : BitVec 3) : Prop :=
  t = { s with status := t.status } ∧ statusErr t.status = code ∧ statusPhase t.status = statusPhase s.status ∧
    statusHigh t.status = statusHigh s.status

/-- The planner's registers hold the layout of an input (R158: R110, R123, R135, R136, R137). -/
def Plan.describes (p : Plan) (base : Rgb) (size : Nat) (input : List Byte) : Prop :=
  p.nchunk.toNat = (input.length + 2) / 3 ∧
    p.novf.toNat = countOverflow base (chunkBytes input) ∧
    p.total.toNat = p.nchunk.toNat + p.novf.toNat + 1 ∧
    p.total.toNat ≤ p.nside.toNat * p.nside.toNat ∧
    (∀ m, m < p.nside.toNat → m * m < p.total.toNat) ∧
    p.side.toNat = p.nside.toNat * size

/-- Block `k` of `m` columns exists on the canvas: there is a column for it, and all its pixels are pixels of the canvas. -/
def blockFits (c : Canvas) (k m s : Nat) : Bool :=
  decide (s = 0) || (decide (0 < m) && c.covers (blockArea k m s))

/-- The canvas is the earlier one with the pixels of an area set to `p` and every other pixel as before (R152). -/
def Canvas.paintedFrom (c c₀ : Canvas) (a : Area) (p : Pixel) : Prop :=
  c.cw = c₀.cw ∧ c.ch = c₀.ch ∧
    ∀ x y, c₀.has x y = true → c.pixelAt x y = if a.contains x y = true then p else c₀.pixelAt x y

/-- The area is an `s × s` square on the canvas whose origin is a multiple of `s` in both coordinates (R67). -/
def Area.wholeBlockOf (a : Area) (c : Canvas) (s : Nat) : Prop :=
  a.size = s ∧ a.x0 % s = 0 ∧ a.y0 % s = 0 ∧ a.x0 + s ≤ c.cw.toNat ∧ a.y0 + s ≤ c.ch.toNat

/-- The sequencer after a block instruction: the block index, and the loop index of its step, advanced by one (R22, R40). -/
def advanced (i : Instr) (q q' : Seq) : Prop :=
  q' = { q with k := q.k + 1, i := q'.i, j := q'.j } ∧
    (∀ r g b, i = .blkData r g b → q'.i = q.i + 1 ∧ q'.j = q.j) ∧
    (i = .blkSep → q'.i = q.i ∧ q'.j = q.j) ∧
    ((∀ r g b, i ≠ .blkData r g b) → i ≠ .blkSep → q'.i = q.i ∧ q'.j = q.j + 1)

/-- The byte lies in an inclusive range. -/
def inBytes (lo hi : Nat) (b : Byte) : Prop := lo ≤ b.toNat ∧ b.toNat ≤ hi

/-- One sequence of the UTF-8 table of R180, by its length. -/
def Utf8Sequence : List Byte → Prop
  | [a] => inBytes 0x00 0x7F a
  | [a, b] => inBytes 0xC2 0xDF a ∧ inBytes 0x80 0xBF b
  | [a, b, c] =>
    (inBytes 0xE0 0xE0 a ∧ inBytes 0xA0 0xBF b ∨ inBytes 0xE1 0xEC a ∧ inBytes 0x80 0xBF b ∨
      inBytes 0xED 0xED a ∧ inBytes 0x80 0x9F b ∨ inBytes 0xEE 0xEF a ∧ inBytes 0x80 0xBF b) ∧ inBytes 0x80 0xBF c
  | [a, b, c, d] =>
    (inBytes 0xF0 0xF0 a ∧ inBytes 0x90 0xBF b ∨ inBytes 0xF1 0xF3 a ∧ inBytes 0x80 0xBF b ∨
      inBytes 0xF4 0xF4 a ∧ inBytes 0x80 0x8F b) ∧ inBytes 0x80 0xBF c ∧ inBytes 0x80 0xBF d
  | _ => False

/-- The number of blocks a scan of the canvas visits (R171). -/
def scanSize (c : Canvas) (size : Nat) : Nat := c.ch.toNat / size * (c.cw.toNat / size)

/-- The decoded sequence of a finished scan, steps 4 and 5 of R181. -/
def decoded (q : Seq) : List Byte := stripZeros (q.recs.foldl applyTriple q.buf)

/-- The record of a lane whose sum exceeds 255, with `magnitude = sum − 255` (R121). -/
def ruleRecord (i : Byte) (ch : Channel) (b d : Byte) : List Record :=
  if 255 < b.toNat + d.toNat then [⟨i, ch, BitVec.ofNat 8 (b.toNat + d.toNat - 255)⟩] else []

/-- Run instructions one after the other. -/
def execAll : List Instr → State → Answer
  | [], s => .next s
  | i :: is, s =>
    match exec i s with
    | .next t => execAll is t
    | .fault f => .fault f
    | .refused r => .refused r

/-- The overflow block's instruction for a record (R84). -/
def recordInstr (r : Record) : Instr :=
  match r.chan with
  | .red => .blkOvfR r.idx r.mag
  | .green => .blkOvfG r.idx r.mag
  | .blue => .blkOvfB r.idx r.mag

/-- The blocks of an encode as instructions, in the order of steps 5 to 7 of R150. -/
def blockProgram (q : Seq) : List Instr :=
  q.colors.map (fun c => .blkData c.r c.g c.b) ++ [.blkSep] ++ q.orb.map recordInstr

/-- The decoder that keeps no record list: each record is applied as it is sampled (R178). -/
def streamStep (cap : Option Nat) (base : Rgb) (p : Pixel) (q : Seq) : Option Seq :=
  match classify q.phase p with
  | .sep => some (stepSep q)
  | .data => stepData cap base p q
  | .skip => some (stepSkip q)
  | .record => some { q with buf := applyTriple q.buf (recUnpack p), k := q.k + 1 }

/-- The streaming scan of the next `n` blocks. -/
def streamBlocks (cap : Option Nat) (base : Rgb) (c : Canvas) (size : Nat) : Nat → Seq → Option Seq
  | 0, q => some q
  | n + 1, q =>
    match streamStep cap base (samplePixel c q.k q.cols size) q with
    | some q' => streamBlocks cap base c size n q'
    | none => none

/-- The data bytes of the first `n` blocks of a scan that meets no separator (R184). -/
def dataBytes (base : Rgb) (c : Canvas) (cols size : Nat) : Nat → List Byte
  | 0 => []
  | n + 1 => dataBytes base c cols size n ++ rgbBytes (diffRgb base (samplePixel c n cols size))

/-- The magnitudes that the valid records of a list address to a position (R177). -/
def magnitudesAt (pos len : Nat) (recs : List Triple) : Nat :=
  (recs.map fun t => if triplePos t = some pos ∧ pos < len then t.mag.toNat else 0).sum

end Sys2Proof.Machine
end

