-- ==== Sys2Proof/Certificates/Slice0/Obligations.lean ====
section
/-! DEFINITION. The statements for the provers, each about the machine of spec/ and no program. -/

open Sys2Proof Sys2Proof.Machine

/-! ### Encodings -/

/-- R82 to R84, R88, R90: decoding the encoding of a well-formed instruction, in the lane it is read in, gives the
instruction back with every operand, and leaves the bytes after it. -/
def Obligations.EncodedInstructionsDecodeToThemselves : Prop :=
  ∀ (i : Instr) (l : Lane) (bs rest : List Byte), i.wf = true → encode i = some (l, bs) →
    decode l (bs ++ rest) = .ok (i, rest)

/-- R88, R90: whatever a lane decodes is well-formed, belongs to that lane, and encodes to exactly the bytes read; so no two
byte strings of a lane decode alike and no reserved pattern falls through to a neighbour. -/
def Obligations.DecodedInstructionsEncodeBack : Prop :=
  ∀ (l : Lane) (bs rest : List Byte) (i : Instr), decode l bs = .ok (i, rest) →
    i.wf = true ∧ ∃ own, encode i = some (l, own) ∧ bs = own ++ rest

/-- Words written out from the encodings of R82 to R84 and R90 decode to what they stand for. -/
def Obligations.TableWordsDecodeToTheirRows : Prop :=
  decodeTableWord 8 0x01 = some .encode ∧ decodeTableWord 8 0x02 = some .decode ∧ decodeTableWord 8 0x03 = some .plan ∧
    decodeTableWord 8 0x00 = some (.cmdReserved 0x00) ∧ decodeTableWord 8 0xFF = some (.cmdReserved 0xFF) ∧
    decodeTableWord 32 0x4B141EFF = some (.blkData 0x4B 0x14 0x1E) ∧ decodeTableWord 32 0x00000000 = some .blkSep ∧
    decodeTableWord 32 0x020191FF = some (.blkOvfR 0x02 0x91) ∧ decodeTableWord 32 0x00022DFF = some (.blkOvfG 0x00 0x2D) ∧
    decodeTableWord 32 0xFE03FFFF = some (.blkOvfB 0xFE 0xFF) ∧
    decodeTableWord 32 0x00010A00 = some (.decSkip 0x00 0x01 0x0A)

/-- A step runs the instruction it decodes: of a written command code, of an emitted block's bytes, of a sampled pixel's
bytes, or given with its operands (the model's own moves, log 3); the move is no longer pending and nothing else is added.
With nothing pending the machine keeps all its state (R217). -/
def Obligations.StepRunsTheInstructionItDecodes : Prop :=
  (∀ (s : State) (v : Word) (rest : List Move) (i : Instr) (left : List Byte), s.script = .wr .cmd v :: rest →
      v.toNat < 256 → decode .cmd [v.setWidth 8] = .ok (i, left) → step s = exec i { s with script := rest }) ∧
    (∀ (s : State) (z : Zone) (bytes left : List Byte) (rest : List Move) (i : Instr), s.script = .emit z bytes :: rest →
      decode (zoneLane z) bytes = .ok (i, left) → step s = exec i { s with script := rest }) ∧
    (∀ (s : State) (bytes left : List Byte) (rest : List Move) (i : Instr), s.script = .sample bytes :: rest →
      decode (.sample s.seq.phase) bytes = .ok (i, left) → step s = exec i { s with script := rest }) ∧
    (∀ (s : State) (rest : List Move) (i : Instr), s.script = .op i :: rest →
      step s = exec i { s with script := rest }) ∧
    (∀ s : State, s.script = [] → step s = .next s)

/-- Whatever instruction the decoder reads from a table word, the step after placing that word runs exactly it. -/
def Obligations.PlacedTableWordRunsNext : Prop :=
  ∀ (s : State) (nbits w : Nat) (i : Instr), decodeTableWord nbits w = some i →
    step (s.withFetchWord nbits w) =
      exec i { s with script := [], seq := { s.seq with phase := tablePhase nbits w s.seq.phase } }

/-! ### Errors of the commands -/

/-- R200: more than 765 input bytes end ENCODE and PLAN with InputTooLarge, whatever `PIXEL_SIZE` holds (R209), and nothing
but `STATUS.ERR` changes; a length of 765 or less is never rejected so, 765 among them succeed, and DECODE never raises it. -/
def Obligations.LongInputIsRejectedFirst : Prop :=
  (∀ s : State, 765 < s.ilen.toNat →
      ∃ t, exec .encode s = .next t ∧ exec .plan s = .next t ∧ onlyErr s t 1) ∧
    (∀ s t : State, s.ilen.toNat ≤ 765 → exec .encode s = .next t ∨ exec .plan s = .next t → statusErr t.status ≠ 1) ∧
    (∀ (s : State) (input : List Byte), s.hasInput input → s.ilen = 765 →
      (∃ t, exec .encode s = .next t ∧ statusErr t.status = 0) ∧ ∃ t, exec .plan s = .next t ∧ statusErr t.status = 0) ∧
    ∀ s t : State, exec .decode s = .next t → statusErr t.status ≠ 1

/-- R201: an unusable `PIXEL_SIZE` ends DECODE, and ENCODE and PLAN of an input of accepted length, with InvalidPixelSize,
and nothing but `STATUS.ERR` changes; a usable one never does. -/
def Obligations.UnusablePixelSizeIsRejected : Prop :=
  (∀ s : State, s.pixelSize.toNat = 0 ∨ s.cfg.pixelSizeMax < s.pixelSize.toNat →
      (∃ t, exec .decode s = .next t ∧ onlyErr s t 2) ∧
        (s.ilen.toNat ≤ 765 → ∃ t, exec .encode s = .next t ∧ exec .plan s = .next t ∧ onlyErr s t 2)) ∧
    ∀ s t : State, 1 ≤ s.pixelSize.toNat → s.pixelSize.toNat ≤ s.cfg.pixelSizeMax →
      exec .encode s = .next t ∨ exec .plan s = .next t ∨ exec .decode s = .next t → statusErr t.status ≠ 2

/-- R203, R90: CMD.RESERVED, and a write of any value but 1, 2, 3 to `CMD`, sets `STATUS.ERR` to 5 and changes nothing else.
That a value wider than 8 bits is such a value is the model's reading (log 10), and that CMD.RESERVED run alone with code 1, 2
or 3, a term no decoder gives, does the same is the model's choice (log 20). -/
def Obligations.ReservedCodesRaiseIllegalCommand : Prop :=
  (∀ (s : State) (code : Byte), ∃ t, exec (.cmdReserved code) s = .next t ∧ onlyErr s t 5) ∧
    (∀ (s : State) (v : Word) (rest : List Move), s.script = .wr .cmd v :: rest →
      v.toNat ≠ 1 → v.toNat ≠ 2 → v.toNat ≠ 3 →
      ∃ t, step s = .next t ∧ onlyErr { s with script := rest } t 5)

/-- R231: after reset PXC is idle, without a canvas and with `PIXEL_SIZE` and `STATUS` 0, and a command issued then ends with
InvalidPixelSize and changes nothing else. -/
def Obligations.CommandsAfterResetOnlyReportPixelSize : Prop :=
  (step State.reset = .next State.reset ∧ State.reset.canvas.cw = 0 ∧ State.reset.canvas.ch = 0 ∧
      State.reset.pixelSize = 0 ∧ State.reset.status = 0) ∧
    ∀ i : Instr, i = .encode ∨ i = .plan ∨ i = .decode → exec i State.reset = .next { State.reset with status := 2 }

/-- R244, U9: ENCODE and PLAN whose checks pass refuse an input with a cell that was never written. That CHUNK run alone (log
3) is refused as well is the model's, not the spec's, which speaks of commands only (log 5). -/
def Obligations.UnwrittenInputIsRefused : Prop :=
  ∀ (s : State) (a : Nat), s.ilen.toNat ≤ 765 → badPixelSize s = false → a < s.ilen.toNat → lookupCell a s.ibuf = none →
    exec .encode s = .refused .ibufUnwritten ∧ exec .plan s = .refused .ibufUnwritten ∧
      exec .chunk s = .refused .ibufUnwritten

/-- R206: a command that ends with an error leaves the state before it, except for what the error's row lists; which commands
raise which error. That the hidden sequencer is at its initial value after an error that ends a DECODE is the model's choice
(log 4); R40 only says that it does not survive the command. -/
def Obligations.ErrorsChangeOnlyWhatTheirRowLists : Prop :=
  ∀ (i : Instr) (s t : State), i = .encode ∨ i = .plan ∨ i = .decode ∨ (∃ c, i = .cmdReserved c) →
    exec i s = .next t → statusErr t.status ≠ 0 →
    (onlyErr s t 1 ∧ (i = .encode ∨ i = .plan)) ∨
    (onlyErr s t 2 ∧ (i = .encode ∨ i = .plan ∨ i = .decode)) ∨
    (onlyErr s t 5 ∧ ∃ c, i = .cmdReserved c) ∨
    (i = .decode ∧ t = { s with status := t.status, olen := 0, obuf := [], seq := Seq.initial } ∧
      statusHigh t.status = statusHigh s.status ∧
      ((statusErr t.status = 6 ∧ statusPhase t.status = 0) ∨
        (statusErr t.status = 3 ∧ ∃ q, scanCanvas s.cfg.obufCap s.base s.canvas s.pixelSize.toNat = some q ∧
          statusPhase t.status = phaseBit q.phase)))

/-! ### ENCODE and PLAN -/

/-- R158: PLAN of an accepted, written input completes, writes the five result registers with the layout and clears `ERR`;
everything else host-visible, the canvas included, is as before. -/
def Obligations.PlanWritesTheLayout : Prop :=
  ∀ (s : State) (input : List Byte), s.cfg.wf = true → s.hasInput input →
    ∃ t, exec .plan s = .next t ∧
      t = { s with plan := t.plan, status := t.status, seq := Seq.initial } ∧
      t.plan.describes s.base s.pixelSize.toNat input ∧
      statusErr t.status = 0 ∧ statusPhase t.status = statusPhase s.status ∧ statusHigh t.status = statusHigh s.status

/-- R150: ENCODE of an accepted, written input completes with the layout of PLAN, on a canvas of side `SIDE`, and writes
nothing but the canvas, the result registers and `ERR`. -/
def Obligations.EncodeWritesTheLayoutAndSizesTheCanvas : Prop :=
  ∀ (s : State) (input : List Byte), s.cfg.wf = true → s.hasInput input →
    ∃ t, exec .encode s = .next t ∧
      t = { s with plan := t.plan, status := t.status, canvas := t.canvas, seq := Seq.initial } ∧
      t.plan.describes s.base s.pixelSize.toNat input ∧ t.canvas.cw = t.plan.side ∧ t.canvas.ch = t.plan.side ∧
      statusErr t.status = 0 ∧ statusPhase t.status = statusPhase s.status ∧ statusHigh t.status = statusHigh s.status

/-- R69: the map of an encoded canvas, block by block: it is `N·s` by `N·s` pixels; every pixel of block `k` holds the clamped
colour of chunk `k`, the separator, the record `k − n − 1`, or `DEFAULT_PIXEL`; between 0 and `2N − 2` positions are unused. -/
def Obligations.EncodedCanvasIsTheBlockMap : Prop :=
  ∀ (s t : State) (input : List Byte), s.cfg.wf = true → s.hasInput input → exec .encode s = .next t →
    (t.canvas.cw.toNat = t.plan.nside.toNat * s.pixelSize.toNat ∧ t.canvas.ch.toNat = t.plan.nside.toNat * s.pixelSize.toNat ∧
      t.plan.total.toNat = t.plan.nchunk.toNat + t.plan.novf.toNat + 1 ∧
      t.plan.total.toNat ≤ t.plan.nside.toNat * t.plan.nside.toNat ∧
      t.plan.nside.toNat * t.plan.nside.toNat - t.plan.total.toNat ≤ 2 * t.plan.nside.toNat - 2) ∧
    ∀ k x y, k < t.plan.nside.toNat * t.plan.nside.toNat →
      (blockArea k t.plan.nside.toNat s.pixelSize.toNat).contains x y = true →
      t.canvas.has x y = true ∧
        (k < t.plan.nchunk.toNat → ∃ c, (chunkBytes input)[k]? = some c ∧
          t.canvas.pixelAt x y = ⟨satAdd s.base.r c.r, satAdd s.base.g c.g, satAdd s.base.b c.b, 255⟩) ∧
        (k = t.plan.nchunk.toNat → t.canvas.pixelAt x y = Pixel.zero) ∧
        (t.plan.nchunk.toNat < k → k < t.plan.total.toNat →
          ∃ r, (overflowPass s.base (chunkBytes input)).orb[k - t.plan.nchunk.toNat - 1]? = some r ∧
            t.canvas.pixelAt x y = ⟨r.idx, r.chan.code, r.mag, 255⟩) ∧
        (t.plan.total.toNat ≤ k → t.canvas.pixelAt x y = Pixel.zero)

/-- R157: the encoded canvas depends on the input, `PIXEL_SIZE` and the base color alone, and zero bytes at the end of the
input that stay within its last chunk do not change it. -/
def Obligations.EncodedCanvasIsAFunctionOfTheInput : Prop :=
  ∀ (s s' t t' : State) (input : List Byte) (zeros : Nat), s.hasInput input →
    s'.hasInput (input ++ List.replicate zeros 0) →
    (input.length + zeros + 2) / 3 = (input.length + 2) / 3 → s'.pixelSize = s.pixelSize → s'.base = s.base →
    exec .encode s = .next t → exec .encode s' = .next t' → t'.canvas = t.canvas

/-- R150: ENCODE is its steps: running the emitted block instructions of the input one after the other (alone, which is the
model's own and no host's, log 3), on the canvas that step 4 makes, gives the encoded canvas, with the block index at `TOTAL` and the loop indexes at `NCHUNK` and `NOVF`. -/
def Obligations.EncodeIsItsBlocksOneByOne : Prop :=
  ∀ (s : State) (input : List Byte), s.cfg.wf = true → s.hasInput input →
    ∃ t u, exec .encode s = .next t ∧
      execAll (blockProgram (overflowPass s.base (chunkBytes input)))
          { s with canvas := Canvas.new t.plan.side t.plan.side,
                   seq := { Seq.initial with cols := t.plan.nside.toNat } } = .next u ∧
      u.canvas = t.canvas ∧ u.seq.k = t.plan.total.toNat ∧ u.seq.i = t.plan.nchunk.toNat ∧ u.seq.j = t.plan.novf.toNat

/-! ### DECODE -/

/-- R181, R206: the three ends of a DECODE whose `PIXEL_SIZE` is usable: the data phase does not fit `OBUF_CAP`
(BufferOverrun), the decoded sequence is no legal text (InvalidEncoding), or it is the output. Where 32 bits hold the
output's length, `OLEN` is that length (else it is a free value, log 8). That the hidden sequencer is at its initial value
afterwards is the model's choice (log 4); R40 only says that it does not survive the command. -/
def Obligations.DecodeEndsInOutputOrTypedError : Prop :=
  ∀ s : State, badPixelSize s = false →
    (scanCanvas s.cfg.obufCap s.base s.canvas s.pixelSize.toNat = none →
      ∃ t, exec .decode s = .next t ∧
        t = { s with status := t.status, olen := 0, obuf := [], seq := Seq.initial } ∧
        statusErr t.status = 6 ∧ statusPhase t.status = 0 ∧ statusHigh t.status = statusHigh s.status) ∧
    (∀ q, scanCanvas s.cfg.obufCap s.base s.canvas s.pixelSize.toNat = some q →
      legalText s.cfg.textRule (decoded q) = false →
      ∃ t, exec .decode s = .next t ∧
        t = { s with status := t.status, olen := 0, obuf := [], seq := Seq.initial } ∧
        statusErr t.status = 3 ∧ statusPhase t.status = phaseBit q.phase ∧ statusHigh t.status = statusHigh s.status) ∧
    (∀ q, scanCanvas s.cfg.obufCap s.base s.canvas s.pixelSize.toNat = some q →
      legalText s.cfg.textRule (decoded q) = true →
      ∃ t, exec .decode s = .next t ∧
        t = { s with status := t.status, olen := t.olen, obuf := cellsFrom 0 (decoded q), draws := t.draws,
                     seq := Seq.initial } ∧
        ((decoded q).length < 4294967296 → t.olen.toNat = (decoded q).length ∧ t.draws = s.draws) ∧
        statusErr t.status = 0 ∧ statusPhase t.status = phaseBit q.phase ∧ statusHigh t.status = statusHigh s.status)

/-- R205: DECODE ends with BufferOverrun exactly when the blocks before the first separator need more than `OBUF_CAP`
bytes. -/
def Obligations.BufferOverrunExactlyWhenDataExceedsCapacity : Prop :=
  ∀ s t : State, badPixelSize s = false → exec .decode s = .next t →
    (statusErr t.status = 6 ↔
      ∃ m, m ≤ scanSize s.canvas s.pixelSize.toNat ∧ withinObuf s.cfg.obufCap (3 * m) = false ∧
        ∀ k, k < m →
          samplePixel s.canvas k (s.canvas.cw.toNat / s.pixelSize.toNat) s.pixelSize.toNat ≠ Pixel.zero)

/-- R183: `PHASE` after a DECODE with a usable `PIXEL_SIZE`: 1 exactly when a scanned block was the separator, also when the
text check failed; a scan that overran had met none. -/
def Obligations.PhaseTellsWhetherASeparatorWasMet : Prop :=
  ∀ s t : State, badPixelSize s = false → exec .decode s = .next t →
    (statusErr t.status ≠ 6 →
      (statusPhase t.status = 1 ↔
        ∃ k, k < scanSize s.canvas s.pixelSize.toNat ∧
          samplePixel s.canvas k (s.canvas.cw.toNat / s.pixelSize.toNat) s.pixelSize.toNat = Pixel.zero)) ∧
    (statusErr t.status = 6 → statusPhase t.status = 0)

/-- R184: with no separator among the scanned blocks (none scanned at all included) the whole canvas is data: no error for
that reason, `PHASE` 0, and the output is the stripped differences of all blocks, `OLEN` its length where 32 bits hold it. -/
def Obligations.WithoutSeparatorTheCanvasIsData : Prop :=
  ∀ s : State, badPixelSize s = false →
    (∀ k, k < scanSize s.canvas s.pixelSize.toNat →
      samplePixel s.canvas k (s.canvas.cw.toNat / s.pixelSize.toNat) s.pixelSize.toNat ≠ Pixel.zero) →
    withinObuf s.cfg.obufCap (3 * scanSize s.canvas s.pixelSize.toNat) = true →
    ∃ t, exec .decode s = .next t ∧ statusPhase t.status = 0 ∧
      ∀ out, out = stripZeros (dataBytes s.base s.canvas (s.canvas.cw.toNat / s.pixelSize.toNat) s.pixelSize.toNat
          (scanSize s.canvas s.pixelSize.toNat)) →
        (legalText s.cfg.textRule out = true → statusErr t.status = 0 ∧ t.obuf = cellsFrom 0 out ∧
            (out.length < 4294967296 → t.olen.toNat = out.length)) ∧
          (legalText s.cfg.textRule out = false → statusErr t.status = 3 ∧ t.olen = 0 ∧ t.obuf = [])

/-- R185: DECODE of the canvas an ENCODE left, under the same `PIXEL_SIZE` and base color: the scan finds the data blocks, the
separator and the records, and after the corrections the buffer is the padded input; `PHASE` is 1. The output is the input
without its trailing zero bytes, or InvalidEncoding where that is no legal text; it is the input itself exactly when the input
is legal text and is empty or ends in a non-zero byte. Under the default `LegalText` every legal input decodes. -/
def Obligations.RoundTripGivesTheInputStripped : Prop :=
  ∀ (s t : State) (input : List Byte), s.cfg.wf = true → s.hasInput input → exec .encode s = .next t →
    (∃ q, scanCanvas t.cfg.obufCap t.base t.canvas t.pixelSize.toNat = some q ∧
      q.buf.length = 3 * t.plan.nchunk.toNat ∧ q.recs.length = t.plan.novf.toNat ∧
      q.recs.foldl applyTriple q.buf =
        input ++ List.replicate (3 * ((input.length + 2) / 3) - input.length) 0) ∧
    ∃ u, exec .decode t = .next u ∧ statusPhase u.status = 1 ∧ u.canvas = t.canvas ∧
      (legalText s.cfg.textRule (stripZeros input) = true →
        statusErr u.status = 0 ∧ u.obuf = cellsFrom 0 (stripZeros input) ∧ u.olen.toNat = (stripZeros input).length) ∧
      (legalText s.cfg.textRule (stripZeros input) = false → statusErr u.status = 3 ∧ u.olen = 0 ∧ u.obuf = []) ∧
      ((statusErr u.status = 0 ∧ cellBytes u.obuf = input) ↔
        (legalText s.cfg.textRule input = true ∧ (input = [] ∨ ∃ init b, input = init ++ [b] ∧ b ≠ 0))) ∧
      (s.cfg.textRule = .utf8 → legalText s.cfg.textRule input = true → statusErr u.status = 0)

/-- R186: the empty input decodes to the empty output under every base color. -/
def Obligations.EmptyInputDecodesToEmptyUnderEveryKey : Prop :=
  ∀ (s t : State) (key : Rgb), s.cfg.wf = true → s.hasInput [] → exec .encode s = .next t →
    ∃ u, exec .decode { t with base := key } = .next u ∧ statusErr u.status = 0 ∧ statusPhase u.status = 1 ∧
      u.olen = 0 ∧ u.obuf = []

/-- R178: applying each record as it is sampled gives the buffer that applying them after the scan gives, with the same
overruns. -/
def Obligations.StreamingCorrectionEqualsDeferred : Prop :=
  ∀ (cap : Option Nat) (base : Rgb) (c : Canvas) (size n : Nat) (q : Seq), q.recs = [] →
    match scanBlocks cap base c size n q, streamBlocks cap base c size n q with
    | some deferred, some streamed =>
      deferred.recs.foldl applyTriple deferred.buf = streamed.buf ∧ deferred.phase = streamed.phase ∧ deferred.k = streamed.k
    | none, none => True
    | _, _ => False

/-- R177: after all records each byte has grown by the sum of the magnitudes addressed to it, saturated at 255, and the order
of the records does not matter. -/
def Obligations.CorrectionIsOrderIndependent : Prop :=
  (∀ (buf : List Byte) (recs : List Triple) (pos : Nat), pos < buf.length →
      ((recs.foldl applyTriple buf).getD pos 0).toNat =
        min 255 ((buf.getD pos 0).toNat + magnitudesAt pos buf.length recs)) ∧
    (∀ (buf : List Byte) (recs recs' : List Triple), recs.Perm recs' →
      recs.foldl applyTriple buf = recs'.foldl applyTriple buf)

/-- R88, R182: a sampled pixel's instruction, the class the decoder reads it as in the phase it is in, does exactly one round
of DECODE's scan, or ends in BufferOverrun where the scan does (R112, R205, R206). That a class can run alone is the model's
(log 3), and that the error then ends the sequencer is its reading (log 22). -/
def Obligations.SampledPixelRunsAsOneScanStep : Prop :=
  ∀ (s : State) (p : Pixel),
    (∀ q, scanStep s.cfg.obufCap s.base p s.seq = some q →
      exec (decodeSample s.seq.phase p) s = .next { s with seq := q }) ∧
    (scanStep s.cfg.obufCap s.base p s.seq = none →
      exec (decodeSample s.seq.phase p) s = .next (raise .bufferOverrun s))

/-! ### The operations of the sub-units -/

/-- R110: CHUNK answers `(n + 2) div 3` chunks; byte `c` of chunk `i` is input byte `3i + c`, or 0 beyond the input. -/
def Obligations.ChunkPadsRunsOfThree : Prop :=
  ∀ (s : State) (input : List Byte), s.ilen.toNat ≤ 765 → readInput s.ibuf 0 s.ilen.toNat = some input →
    ∃ cs, exec .chunk s = .next { s with result := .chunks cs } ∧ cs.length = (s.ilen.toNat + 2) / 3 ∧
      ∀ i (h : i < cs.length), cs[i].r = input.getD (3 * i) 0 ∧ cs[i].g = input.getD (3 * i + 1) 0 ∧
        cs[i].b = input.getD (3 * i + 2) 0

/-- R114, R111: the chunks of an input are `(n + 2) div 3`, at most 255 for 765 bytes; together they are the input and 0, 1 or 2
zero bytes, and STRIP of that is STRIP of the input, which is the input exactly when it is empty or ends in a non-zero byte. -/
def Obligations.StripUndoesPadding : Prop :=
  ∀ input : List Byte,
    (chunkBytes input).length = (input.length + 2) / 3 ∧ (input.length ≤ 765 → (chunkBytes input).length ≤ 255) ∧
      (chunkBytes input).flatMap rgbBytes = input ++ List.replicate (3 * ((input.length + 2) / 3) - input.length) 0 ∧
      3 * ((input.length + 2) / 3) - input.length ≤ 2 ∧
      stripZeros ((chunkBytes input).flatMap rgbBytes) = stripZeros input ∧
      (stripZeros ((chunkBytes input).flatMap rgbBytes) = input ↔ input = [] ∨ ∃ init b, input = init ++ [b] ∧ b ≠ 0)

/-- R112: UNPACK appends three bytes to the data buffer; where that exceeds `OBUF_CAP` it raises BufferOverrun (R206). -/
def Obligations.UnpackAppendsThreeBytesOrOverruns : Prop :=
  ∀ (s : State) (d : Rgb),
    (withinObuf s.cfg.obufCap (s.seq.buf.length + 3) = true →
      exec (.unpack d) s = .next { s with seq := { s.seq with buf := s.seq.buf ++ [d.r, d.g, d.b] },
                                          result := .bytes (s.seq.buf ++ [d.r, d.g, d.b]) }) ∧
    (withinObuf s.cfg.obufCap (s.seq.buf.length + 3) = false →
      ∃ t, exec (.unpack d) s = .next t ∧
        t = { s with status := t.status, olen := 0, obuf := [], seq := Seq.initial } ∧
        statusErr t.status = 6 ∧ statusPhase t.status = 0 ∧ statusHigh t.status = statusHigh s.status)

/-- R113: STRIP answers the longest initial part of the data buffer that is empty or ends in a non-zero byte. -/
def Obligations.StripKeepsTheLongestPartNotEndingInZero : Prop :=
  ∀ s : State, ∃ out n, exec .strip s = .next { s with seq := { s.seq with out := out }, result := .bytes out } ∧
    s.seq.buf = out ++ List.replicate n 0 ∧ (out = [] ∨ ∃ init b, out = init ++ [b] ∧ b ≠ 0)

/-- R120: CLAMPADD answers the sum clamped at 255, the overflow bit, and the magnitude `sum − 255` where it is set. Where it
is not set the magnitude is whatever the next free value is (log 7). -/
def Obligations.ClampaddClampsAndDetectsOverflow : Prop :=
  ∀ (s : State) (b d : Byte),
    (255 < b.toNat + d.toNat →
      exec (.clampadd b d) s = .next { s with result := .clamp 255 true (BitVec.ofNat 8 (b.toNat + d.toNat - 255)) }) ∧
    (b.toNat + d.toNat ≤ 255 →
      ∃ mag, exec (.clampadd b d) s =
        .next { s with result := .clamp (BitVec.ofNat 8 (b.toNat + d.toNat)) false mag, draws := s.draws + 1 })

/-- R127: DIFF of the stored value, and one APPLY of the record where there is one, return the chunk byte. -/
def Obligations.OverflowedByteIsRecovered : Prop :=
  ∀ b d : Byte,
    ((clampAdd b d).2 = none → satSub (clampAdd b d).1 b = d) ∧
    (∀ mag, (clampAdd b d).2 = some mag →
      (satSub (clampAdd b d).1 b).toNat = 255 - b.toNat ∧ satAdd (satSub (clampAdd b d).1 b) mag = d)

/-- R121: OVFREC of a chunk index in its range answers the clamped colour and exactly one record per overflowing channel, in
the order R, G, B. -/
def Obligations.OvfrecRecordsEachOverflowingChannel : Prop :=
  ∀ (s : State) (i : Byte) (c : Rgb), i.toNat ≤ 254 →
    exec (.ovfrec i c) s = .next { s with
      result := .chunkRecords ⟨satAdd s.base.r c.r, satAdd s.base.g c.g, satAdd s.base.b c.b⟩
        (ruleRecord i .red s.base.r c.r ++ ruleRecord i .green s.base.g c.g ++ ruleRecord i .blue s.base.b c.b) }

/-- R123, R236: COUNT_OVERFLOW answers the number of (chunk, channel) pairs whose sum exceeds 255, and that is the number of
records the encoder's pass emits. That it does so for more than 255 chunks is the model's reading (log 26). -/
def Obligations.CountOverflowCountsTheRecords : Prop :=
  ∀ (s : State) (cs : List Rgb),
    exec (.countOverflow cs) s = .next { s with result := .nat (cs.map fun c =>
        (if 255 < s.base.r.toNat + c.r.toNat then 1 else 0) + (if 255 < s.base.g.toNat + c.g.toNat then 1 else 0) +
        (if 255 < s.base.b.toNat + c.b.toNat then 1 else 0)).sum } ∧
      (overflowPass s.base cs).orb.length = countOverflow s.base cs

/-- R122, R84: the records of an encode come chunk-major and then channel by channel; each carries its chunk's index, below
255, and a magnitude of at least 1. -/
def Obligations.RecordsComeInOrderWithinTheirRanges : Prop :=
  ∀ (base : Rgb) (cs : List Rgb), cs.length ≤ 255 →
    (overflowPass base cs).orb =
        (cs.zipIdx.map fun e => ruleRecord (BitVec.ofNat 8 e.2) .red base.r e.1.r ++
          ruleRecord (BitVec.ofNat 8 e.2) .green base.g e.1.g ++ ruleRecord (BitVec.ofNat 8 e.2) .blue base.b e.1.b).flatten ∧
      ∀ r, r ∈ (overflowPass base cs).orb → r.idx.toNat ≤ 254 ∧ r.idx.toNat < cs.length ∧ 1 ≤ r.mag.toNat

/-- R124, R125: RECPACK of a record with `mag` in 1..255 answers `(idx, code, mag, 255)`, RECUNPACK `(R, G, B)` of any pixel
with `A ≠ 0`, and RECUNPACK of a packed record is the record. -/
def Obligations.RecordsPackAndUnpack : Prop :=
  ∀ s : State,
    (∀ r : Record, 1 ≤ r.mag.toNat → exec (.recpack r) s = .next { s with result := .pixel ⟨r.idx, r.chan.code, r.mag, 255⟩ } ∧
      exec (.recunpack ⟨r.idx, r.chan.code, r.mag, 255⟩) s =
        .next { s with result := .triple ⟨r.idx, r.chan.code, r.mag⟩ }) ∧
    (∀ p : Pixel, p.a ≠ 0 → exec (.recunpack p) s = .next { s with result := .triple ⟨p.r, p.g, p.b⟩ })

/-- R135 to R138: the planner's operations on operands in their ranges. CSQRT answers the least number whose square is at
least `T`, up to the 32 × 32 of R139's last row. BLKADDR answers row, column and the `s × s` square with the origin
`(col × s, row × s)`, wherever there is a column; R138 bounds `k` by a number of rows that is no operand, so that every `k` is
taken is the model's (log 26). -/
def Obligations.PlannerOperationsAnswerTheLayout : Prop :=
  ∀ s : State,
    (∀ nch novf, nch ≤ 255 → novf ≤ 765 → exec (.total nch novf) s = .next { s with result := .nat (nch + novf + 1) }) ∧
    (∀ t, 1 ≤ t → t ≤ 1024 →
      ∃ n, exec (.csqrt t) s = .next { s with result := .nat n } ∧ t ≤ n * n ∧ ∀ m, m < n → m * m < t) ∧
    (∀ n, 1 ≤ n → n ≤ 32 → badPixelSize s = false →
      exec (.side n) s = .next { s with result := .nat (n * s.pixelSize.toNat) }) ∧
    (∀ k m, 1 ≤ m → 1 ≤ s.pixelSize.toNat → ∃ row col, exec (.blkaddr k m) s = .next { s with
          result := .block row col ⟨col * s.pixelSize.toNat, row * s.pixelSize.toNat, s.pixelSize.toNat⟩ } ∧
        k = row * m + col ∧ col < m)

/-- Log 26, the model's choice: an operation run alone on operands outside the ranges of its rule (R121, R124, R125, R135 to
R138) completes, with a free value in place of the result that the rule does not state and everything else as the rule gives
it; only the result port and the draw counter change. -/
def Obligations.OperandsOutsideTheirRangesGiveFreeValues : Prop :=
  ∀ s : State,
    (∀ nch novf, 255 < nch ∨ 765 < novf →
      ∃ v, exec (.total nch novf) s = .next { s with result := .nat v, draws := s.draws + 1 }) ∧
    (∀ t, t = 0 ∨ 1024 < t → ∃ v, exec (.csqrt t) s = .next { s with result := .nat v, draws := s.draws + 1 }) ∧
    (∀ n, n = 0 ∨ 32 < n ∨ badPixelSize s = true →
      ∃ v, exec (.side n) s = .next { s with result := .nat v, draws := s.draws + 1 }) ∧
    (∀ c, ∃ idx, exec (.ovfrec 255 c) s = .next { s with
      draws := s.draws + 1
      result := .chunkRecords ⟨satAdd s.base.r c.r, satAdd s.base.g c.g, satAdd s.base.b c.b⟩
        (ruleRecord idx .red s.base.r c.r ++ ruleRecord idx .green s.base.g c.g ++
          ruleRecord idx .blue s.base.b c.b) }) ∧
    (∀ r : Record, r.mag = 0 →
      ∃ b, exec (.recpack r) s = .next { s with result := .pixel ⟨r.idx, r.chan.code, b, 255⟩, draws := s.draws + 1 }) ∧
    (∀ p : Pixel, p.a = 0 → ∃ t, exec (.recunpack p) s = .next { s with result := .triple t, draws := s.draws + 3 }) ∧
    (∀ k, ∃ row col area, exec (.blkaddr k 0) s = .next { s with
        result := .block row col area, draws := s.draws + 5 } ∧
      (1 ≤ s.pixelSize.toNat → area = ⟨col * s.pixelSize.toNat, row * s.pixelSize.toNat, s.pixelSize.toNat⟩)) ∧
    (∀ k m, 1 ≤ m → s.pixelSize = 0 → ∃ row col area, exec (.blkaddr k m) s = .next { s with
        result := .block row col area, draws := s.draws + 5 } ∧ k = row * m + col ∧ col < m)

/-- R140, R141: the `N × N` blocks lie inside the `N·s` square, do not overlap, and cover it. -/
def Obligations.BlocksTileTheCanvas : Prop :=
  ∀ n s : Nat,
    (∀ k x y, k < n * n → (blockArea k n s).contains x y = true → x < n * s ∧ y < n * s) ∧
    (∀ k k' x y, (blockArea k n s).contains x y = true → (blockArea k' n s).contains x y = true → k = k') ∧
    (∀ x y, x < n * s → y < n * s → ∃ k, k < n * n ∧ (blockArea k n s).contains x y = true)

/-- R82 to R84, R152, R22: a block instruction whose block lies on the canvas completes: every pixel of block `seq.k` takes
the instruction's pixel, every other pixel reads as before, the block index advances by one and the loop index of its step
by one, and no other state changes. With no block columns it does the same to a square of whole blocks of the canvas that is
a free value (the model's choice, log 21). -/
def Obligations.BlockInstructionsWriteTheirBlock : Prop :=
  ∀ (s : State) (i : Instr) (p : Pixel), blockPixel i = some p → s.canvas.wf = true →
    (blockFits s.canvas s.seq.k s.seq.cols s.pixelSize.toNat = true →
      ∃ t, exec i s = .next t ∧ t = { s with canvas := t.canvas, seq := t.seq } ∧
        advanced i s.seq t.seq ∧
        t.canvas.paintedFrom s.canvas (blockArea s.seq.k s.seq.cols s.pixelSize.toNat) p) ∧
    (s.seq.cols = 0 → 1 ≤ s.pixelSize.toNat → s.pixelSize.toNat ≤ s.canvas.cw.toNat → s.pixelSize.toNat ≤ s.canvas.ch.toNat →
      ∃ t a, exec i s = .next t ∧ t = { s with canvas := t.canvas, seq := t.seq, draws := s.draws + 2 } ∧
        advanced i s.seq t.seq ∧ a.wholeBlockOf s.canvas s.pixelSize.toNat ∧ t.canvas.paintedFrom s.canvas a p)

/-- R152: WRBLK of a block on the canvas gives its pixels the value and leaves every other pixel and all other state alone.
With no block columns it does the same to a square of whole blocks of the canvas that is a free value (the model's choice, log
21). Of a block with a column that is not on the canvas, or where the canvas has no whole block, WRBLK and the block
instructions stop (R65, U10; logs 11, 21). -/
def Obligations.WrblkWritesOneBlock : Prop :=
  ∀ (s : State) (k m : Nat) (p : Pixel), s.canvas.wf = true →
    (blockFits s.canvas k m s.pixelSize.toNat = true →
      ∃ t, exec (.wrblk k m p) s = .next t ∧ t = { s with canvas := t.canvas } ∧
        t.canvas.paintedFrom s.canvas (blockArea k m s.pixelSize.toNat) p) ∧
    (1 ≤ s.pixelSize.toNat → s.pixelSize.toNat ≤ s.canvas.cw.toNat → s.pixelSize.toNat ≤ s.canvas.ch.toNat →
      ∃ t a, exec (.wrblk k 0 p) s = .next t ∧ t = { s with canvas := t.canvas, draws := s.draws + 2 } ∧
        a.wholeBlockOf s.canvas s.pixelSize.toNat ∧ t.canvas.paintedFrom s.canvas a p) ∧
    (blockFits s.canvas k m s.pixelSize.toNat = false →
      1 ≤ m ∨ s.canvas.cw.toNat < s.pixelSize.toNat ∨ s.canvas.ch.toNat < s.pixelSize.toNat →
      exec (.wrblk k m p) s = .fault .noSuchPixel) ∧
    (blockFits s.canvas s.seq.k s.seq.cols s.pixelSize.toNat = false →
      1 ≤ s.seq.cols ∨ s.canvas.cw.toNat < s.pixelSize.toNat ∨ s.canvas.ch.toNat < s.pixelSize.toNat →
      ∀ i q, blockPixel i = some q → exec i s = .fault .noSuchPixel)

/-- R173, R174, R175: the decoder's class instructions, each in the phase of its row: DEC.SEP ends the data phase, DEC.DATA
appends the differences (or overruns), DEC.SKIP does nothing, DEC.REC collects the triple; each goes on to the next block
and changes nothing else. -/
def Obligations.ClassInstructionsStepTheStateMachine : Prop :=
  ∀ s : State,
    (s.seq.phase = .collectingData →
      exec .decSep s = .next { s with seq := { s.seq with phase := .collectingOverflow, k := s.seq.k + 1 } } ∧
      (∀ p : Pixel, p ≠ Pixel.zero → withinObuf s.cfg.obufCap (s.seq.buf.length + 3) = true →
        exec (.decData p) s = .next { s with seq := { s.seq with
          buf := s.seq.buf ++ [satSub p.r s.base.r, satSub p.g s.base.g, satSub p.b s.base.b], k := s.seq.k + 1 } }) ∧
      (∀ p : Pixel, p ≠ Pixel.zero → withinObuf s.cfg.obufCap (s.seq.buf.length + 3) = false →
        ∃ t, exec (.decData p) s = .next t ∧
          t = { s with status := t.status, olen := 0, obuf := [], seq := Seq.initial } ∧
          statusErr t.status = 6 ∧ statusPhase t.status = 0)) ∧
    (s.seq.phase = .collectingOverflow →
      (∀ r g b, exec (.decSkip r g b) s = .next { s with seq := { s.seq with k := s.seq.k + 1 } }) ∧
      (∀ p : Pixel, p.a ≠ 0 →
        exec (.decRec p) s = .next { s with seq := { s.seq with
          recs := s.seq.recs ++ [⟨p.r, p.g, p.b⟩], k := s.seq.k + 1 } }))

/-- R170, R172: ISSEP answers whether all four channels are zero, DIFF the saturating differences; alpha does not enter
DIFF. -/
def Obligations.IssepAndDiffAnswer : Prop :=
  ∀ (s : State) (p : Pixel),
    (∃ b, exec (.issep p) s = .next { s with result := .bit b } ∧
      (b = true ↔ p.r = 0 ∧ p.g = 0 ∧ p.b = 0 ∧ p.a = 0)) ∧
    (∃ d, exec (.diff p) s = .next { s with result := .rgb d } ∧
      d.r.toNat = p.r.toNat - s.base.r.toNat ∧ d.g.toNat = p.g.toNat - s.base.g.toNat ∧
      d.b.toNat = p.b.toNat - s.base.b.toNat)

/-- R176: APPLY adds the magnitude, saturating at 255, to the byte at `idx × 3 + code − 1`, if the code is 1, 2 or 3 and the
buffer has that byte; every other byte, and the length, stay. -/
def Obligations.ApplyCorrectsOneByteOrNone : Prop :=
  ∀ (s : State) (t : Triple), ∃ buf,
    exec (.apply t) s = .next { s with seq := { s.seq with buf := buf }, result := .bytes buf } ∧
      buf.length = s.seq.buf.length ∧
      ∀ pos, pos < buf.length →
        (buf.getD pos 0).toNat =
          if (t.code = 1 ∨ t.code = 2 ∨ t.code = 3) ∧ t.idx.toNat * 3 + (t.code.toNat - 1) = pos
          then min 255 ((s.seq.buf.getD pos 0).toNat + t.mag.toNat)
          else (s.seq.buf.getD pos 0).toNat

/-- R179: TEXTCHK passes a sequence that is legal text, the empty one always; any other ends in InvalidEncoding (R206). -/
def Obligations.TextchkPassesLegalTextOnly : Prop :=
  ∀ s : State,
    (legalText s.cfg.textRule s.seq.out = true → exec .textchk s = .next { s with result := .bit true }) ∧
    (s.seq.out = [] → exec .textchk s = .next { s with result := .bit true }) ∧
    (legalText s.cfg.textRule s.seq.out = false →
      ∃ t, exec .textchk s = .next t ∧
        t = { s with status := t.status, olen := 0, obuf := [], seq := Seq.initial } ∧
        statusErr t.status = 3 ∧ statusPhase t.status = phaseBit s.seq.phase ∧
        statusHigh t.status = statusHigh s.status)

/-- R180: well-formed UTF-8 is exactly the concatenations of sequences that each match a row of the table (`Utf8Sequence`
writes the table out); a sequence cut short at the end is ill-formed; bytes C0, C1 and F5 to FF never occur; it is the default
`LegalText`. So it is closed under concatenation, and under a cut before a zero byte (R185). -/
def Obligations.WellFormedUtf8IsTheTablesConcatenations : Prop :=
  (∀ bs : List Byte, wellFormedUtf8 bs = true ↔ ∃ parts : List (List Byte), bs = parts.flatten ∧ ∀ p ∈ parts, Utf8Sequence p) ∧
    (∀ a cut rest : List Byte, wellFormedUtf8 a = true → Utf8Sequence (cut ++ rest) → cut ≠ [] → rest ≠ [] →
      wellFormedUtf8 (a ++ cut) = false) ∧
    (∀ (bs : List Byte) (b : Byte), wellFormedUtf8 bs = true → b ∈ bs → b ≠ 0xC0 ∧ b ≠ 0xC1 ∧ b.toNat < 0xF5) ∧
    (∀ bs : List Byte, legalText .utf8 bs = wellFormedUtf8 bs) ∧
    (∀ a b : List Byte, wellFormedUtf8 a = true → wellFormedUtf8 b = true → wellFormedUtf8 (a ++ b) = true) ∧
    (∀ a b : List Byte, wellFormedUtf8 (a ++ 0 :: b) = true → wellFormedUtf8 a = true)

/-! ### The host's moves -/

/-- R44: the values after reset, and the RESET move gives the host-visible state those values; the parameters are kept. -/
def Obligations.ResetGivesTheResetValues : Prop :=
  (State.reset.status = 0 ∧ State.reset.pixelSize = 0 ∧ State.reset.base = ⟨0, 0, 0⟩ ∧ State.reset.ilen = 0 ∧
      State.reset.plan = ⟨0, 0, 0, 0, 0⟩ ∧ State.reset.olen = 0 ∧ State.reset.canvas.cw = 0 ∧ State.reset.canvas.ch = 0 ∧
      ∀ x y, State.reset.canvas.has x y = false) ∧
    (∀ (s : State) (rest : List Move), s.script = .reset :: rest →
      ∃ t, step s = .next t ∧ t.visible = { State.reset.visible with cfg := s.cfg } ∧ t.script = rest)

/-- R20, R23, R25: the host reads back from `PIXEL_SIZE`, `BASE_R/G/B` and `ILEN` whatever value of the register's width it
wrote, and the write changes what no other register reads, nor a buffer, nor the canvas. A value wider than the register
leaves a free value in it (the model's choice, log 10), and changes nothing else. -/
def Obligations.ConfigurationRegistersReadBack : Prop :=
  (∀ (s : State) (r : Reg) (v : Word) (rest : List Move),
    r = .pixelSize ∨ r = .baseR ∨ r = .baseG ∨ r = .baseB ∨ r = .ilen → v.toNat < 2 ^ r.width →
    s.script = .wr r v :: .rd r :: rest →
    ∃ t u, step s = .next t ∧ step t = .next u ∧ u.rdata = .value v ∧ u.script = rest ∧
      (∀ r', r' ≠ r → readReg r' u = readReg r' s) ∧ u.canvas = s.canvas ∧ u.ibuf = s.ibuf ∧ u.obuf = s.obuf) ∧
    (∀ (s : State) (r : Reg) (v : Word) (rest : List Move), r = .baseR ∨ r = .baseG ∨ r = .baseB → 256 ≤ v.toNat →
      s.script = .wr r v :: rest →
      ∃ t, step s = .next t ∧ t = { s with script := rest, base := t.base, draws := s.draws + 1 } ∧
        ∀ r', r' ≠ r → readReg r' t = readReg r' s)

/-- R20, R24: a host write to `STATUS` has no effect, a read of `CMD` returns 0, a read of a register returns that register's
number (zero-extended in the model's record of it, log 25) and changes nothing of PXC's; a write to another read-only register
is no move (log 9). -/
def Obligations.ReadOnlyRegistersKeepTheirValue : Prop :=
  (∀ (s : State) (v : Word) (rest : List Move), s.script = .wr .status v :: rest →
      step s = .next { s with script := rest }) ∧
    (∀ (s : State) (rest : List Move), s.script = .rd .cmd :: rest →
      step s = .next { s with script := rest, rdata := .value 0 }) ∧
    (∀ (s : State) (r : Reg) (rest : List Move), s.script = .rd r :: rest →
      step s = .next { s with script := rest, rdata := .value (readReg r s) }) ∧
    (∀ s : State,
      (readReg .status s).toNat = s.status.toNat ∧ (readReg .pixelSize s).toNat = s.pixelSize.toNat ∧
      (readReg .baseR s).toNat = s.base.r.toNat ∧ (readReg .baseG s).toNat = s.base.g.toNat ∧
      (readReg .baseB s).toNat = s.base.b.toNat ∧ (readReg .ilen s).toNat = s.ilen.toNat ∧
      (readReg .nchunk s).toNat = s.plan.nchunk.toNat ∧ (readReg .novf s).toNat = s.plan.novf.toNat ∧
      (readReg .total s).toNat = s.plan.total.toNat ∧ (readReg .nside s).toNat = s.plan.nside.toNat ∧
      (readReg .side s).toNat = s.plan.side.toNat ∧ (readReg .olen s).toNat = s.olen.toNat ∧
      (readReg .cw s).toNat = s.canvas.cw.toNat ∧ (readReg .ch s).toNat = s.canvas.ch.toNat) ∧
    (∀ (s : State) (r : Reg) (v : Word) (rest : List Move), s.script = .wr r v :: rest →
      7 ≤ r.number → step s = .refused (.readOnly r))

/-- R62, R63, R64: `new` makes every pixel `DEFAULT_PIXEL`; `set` changes its pixel and no other, and writing the value a
pixel holds changes nothing; `get` returns the pixel and changes nothing. That `set` and `get` outside the canvas fault is the model's
(R65 does not define them, U10 refuses; log 11). -/
def Obligations.CanvasPrimitivesReadWhatWasWritten : Prop :=
  (∀ (s : State) (w h : Word) (rest : List Move), s.script = .new w h :: rest →
      ∃ t, step s = .next t ∧ t = { s with script := rest, canvas := t.canvas } ∧ t.canvas.cw = w ∧ t.canvas.ch = h ∧
        ∀ x y, t.canvas.has x y = true → t.canvas.pixelAt x y = ⟨0, 0, 0, 0⟩) ∧
    (∀ (s : State) (x y : Nat) (p : Pixel) (rest : List Move), s.canvas.wf = true → s.script = .set x y p :: rest →
      (s.canvas.has x y = true →
        ∃ t, step s = .next t ∧ t = { s with script := rest, canvas := t.canvas } ∧ t.canvas.cw = s.canvas.cw ∧
          t.canvas.ch = s.canvas.ch ∧ t.canvas.pixelAt x y = p ∧
          (∀ u v, s.canvas.has u v = true → ¬ (u = x ∧ v = y) → t.canvas.pixelAt u v = s.canvas.pixelAt u v) ∧
          (p = s.canvas.pixelAt x y → t.canvas = s.canvas)) ∧
      (s.canvas.has x y = false → step s = .fault .noSuchPixel)) ∧
    (∀ (s : State) (x y : Nat) (rest : List Move), s.script = .get x y :: rest →
      (s.canvas.has x y = true → step s = .next { s with script := rest, rdata := .pixel (s.canvas.pixelAt x y) }) ∧
      (s.canvas.has x y = false → step s = .fault .noSuchPixel))

/-- R27, R92: LOAD puts a sequence of at most 765 bytes into `IBUF` and its length into `ILEN`: ENCODE then reads exactly
that sequence; other cells keep their contents. -/
def Obligations.LoadedInputIsWhatCommandsRead : Prop :=
  ∀ (s : State) (bs : List Byte) (rest : List Move), bs.length ≤ 765 → s.script = load bs ++ rest →
    ∃ t u, step s = .next t ∧ step t = .next u ∧ u = { s with script := rest, ibuf := u.ibuf, ilen := u.ilen } ∧
      u.ilen.toNat = bs.length ∧ readInput u.ibuf 0 u.ilen.toNat = some bs ∧
      ∀ a, bs.length ≤ a → lookupCell a u.ibuf = lookupCell a s.ibuf

/-- R20, R27: the host writes bytes to any cells of `IBUF`: each written cell holds its byte and no other cell, and no other
state, changes; beyond the 765 cells it faults (log 11). A host read of `IBUF` gives the bytes of the written cells; a cell
never written gives a free value (the model's choice, log 12). -/
def Obligations.InputCellsReadBackWhatWasWritten : Prop :=
  (∀ (s : State) (i : Nat) (bs : List Byte) (rest : List Move), s.script = .wrb i bs :: rest →
      (i + bs.length ≤ 765 →
        ∃ t, step s = .next t ∧ t = { s with script := rest, ibuf := t.ibuf } ∧
          (∀ j b, bs[j]? = some b → lookupCell (i + j) t.ibuf = some b) ∧
          ∀ a, a < i ∨ i + bs.length ≤ a → lookupCell a t.ibuf = lookupCell a s.ibuf) ∧
      (765 < i + bs.length → step s = .fault .noSuchCell)) ∧
    (∀ (s : State) (i n : Nat) (rest : List Move), s.script = .rdb .ibuf i n :: rest → i + n ≤ 765 →
      ∃ t bs, step s = .next t ∧ t = { s with script := rest, rdata := .bytes bs, draws := t.draws } ∧ bs.length = n ∧
        ∀ j b, j < n → lookupCell (i + j) s.ibuf = some b → bs[j]? = some b)

/-- R28, U11: a host read of `OBUF` within `OBUF_CAP` returns as many bytes as asked; a cell with a specified value gives
it, any other a free value (log 6); nothing of PXC's changes. -/
def Obligations.OutputReadsReturnSpecifiedCells : Prop :=
  ∀ (s : State) (i n : Nat) (rest : List Move), s.script = .rdb .obuf i n :: rest →
    withinObuf s.cfg.obufCap (i + n) = true →
    ∃ t bs, step s = .next t ∧ t = { s with script := rest, rdata := .bytes bs, draws := t.draws } ∧ bs.length = n ∧
      ∀ j b, j < n → lookupCell (i + j) s.obuf = some b → bs[j]? = some b

/-! ### Frames and invariants of the whole machine -/

/-- R23, R27: no instruction writes a configuration register or an `IBUF` cell, the parameters, or the pending moves. -/
def Obligations.NoInstructionWritesConfigurationOrInput : Prop :=
  ∀ (i : Instr) (s t : State), exec i s = .next t →
    t.cfg = s.cfg ∧ t.pixelSize = s.pixelSize ∧ t.base = s.base ∧ t.ilen = s.ilen ∧ t.ibuf = s.ibuf ∧
      t.script = s.script ∧ t.rdata = s.rdata

/-- R31: what the three commands leave alone, on every path: ENCODE and PLAN do not change `PHASE`, `OLEN` and `OBUF`, PLAN
not the canvas, DECODE neither the canvas nor the result registers. -/
def Obligations.CommandsLeaveTheRestAlone : Prop :=
  ∀ s t : State,
    (exec .encode s = .next t →
      t = { s with status := t.status, plan := t.plan, canvas := t.canvas, seq := t.seq } ∧
        statusPhase t.status = statusPhase s.status ∧ statusHigh t.status = statusHigh s.status) ∧
    (exec .plan s = .next t →
      t = { s with status := t.status, plan := t.plan, seq := t.seq } ∧
        statusPhase t.status = statusPhase s.status ∧ statusHigh t.status = statusHigh s.status) ∧
    (exec .decode s = .next t →
      t = { s with status := t.status, olen := t.olen, obuf := t.obuf, draws := t.draws, seq := t.seq } ∧
        statusHigh t.status = statusHigh s.status)

/-- R31, R68: only ENCODE, the block instructions and WRBLK change the canvas; only ENCODE and PLAN the result registers; only
DECODE, and the operations that raise its errors, `OLEN` and `OBUF`; only those and the commands `STATUS`. -/
def Obligations.OnlyTheNamedInstructionsChangeEachMemory : Prop :=
  ∀ (i : Instr) (s t : State), exec i s = .next t →
    (t.canvas = s.canvas ∨ i = .encode ∨ (blockPixel i).isSome = true ∨ ∃ k m p, i = .wrblk k m p) ∧
    (t.plan = s.plan ∨ i = .encode ∨ i = .plan) ∧
    (t.olen = s.olen ∧ t.obuf = s.obuf ∨
      i = .decode ∨ i = .textchk ∨ (∃ d, i = .unpack d) ∨ ∃ p, i = .decData p) ∧
    (t.status = s.status ∨ i = .encode ∨ i = .plan ∨ i = .decode ∨ (∃ c, i = .cmdReserved c) ∨ i = .textchk ∨
      (∃ d, i = .unpack d) ∨ ∃ p, i = .decData p)

/-- R43: a command reads nothing but the registers, buffers and canvas of R20: on two states that agree on these (and on the
draw counter, the model's own) it gives the same host-visible result, or the same refusal. -/
def Obligations.CommandsReadOnlyTheVisibleState : Prop :=
  ∀ (i : Instr) (s s' : State), i = .encode ∨ i = .plan ∨ i = .decode → s'.visible = s.visible → s'.draws = s.draws →
    (∀ t, exec i s = .next t → ∃ t', exec i s' = .next t' ∧ t'.visible = t.visible) ∧
      (∀ r, exec i s = .refused r → exec i s' = .refused r) ∧ ∀ f, exec i s ≠ .fault f

/-- The invariant holds at reset. -/
def Obligations.ResetMeetsTheInvariant : Prop := State.reset.Inv

/-- Every step keeps the invariant: the memories' canonical form, no reserved error code and zero in `STATUS[7:4]` (R24,
R204), result registers of one layout (R30), `OBUF` holding stripped legal text of `OLEN` bytes or nothing (R28, R29), a
legal sequencer state (R112, R175). -/
def Obligations.EveryStepKeepsTheInvariant : Prop :=
  ∀ s t : State, s.Inv → step s = .next t → t.Inv

/-- R7: no step changes the parameters of the implementation. -/
def Obligations.NoStepChangesTheParameters : Prop :=
  ∀ s t : State, step s = .next t → t.cfg = s.cfg
end

