-- ==== Sys2Proof/Laws/State.lean ====
section
/-! SUPPORT. One lemma per field per named update of the state, and the fields of `STATUS`, so that no later proof unfolds a
record update. -/

namespace Sys2Proof.Machine

/-! ### `STATUS` -/

@[simp] theorem statusErr_withErr (c : BitVec 3) (st : BitVec 8) : statusErr (withErr c st) = c := by
  revert c st; decide
@[simp] theorem statusPhase_withErr (c : BitVec 3) (st : BitVec 8) : statusPhase (withErr c st) = statusPhase st := by
  revert c st; decide
@[simp] theorem statusHigh_withErr (c : BitVec 3) (st : BitVec 8) : statusHigh (withErr c st) = statusHigh st := by
  revert c st; decide
@[simp] theorem statusErr_withPhase (b : BitVec 1) (st : BitVec 8) : statusErr (withPhase b st) = statusErr st := by
  revert b st; decide
@[simp] theorem statusPhase_withPhase (b : BitVec 1) (st : BitVec 8) : statusPhase (withPhase b st) = b := by
  revert b st; decide
@[simp] theorem statusHigh_withPhase (b : BitVec 1) (st : BitVec 8) : statusHigh (withPhase b st) = statusHigh st := by
  revert b st; decide

/-- `STATUS` is its three fields. -/
theorem status_parts (st : BitVec 8) : statusHigh st ++ statusPhase st ++ statusErr st = st := by revert st; decide

/-- Two statuses with the same fields are equal. -/
theorem status_ext {a b : BitVec 8} (h : statusHigh a = statusHigh b) (p : statusPhase a = statusPhase b)
    (e : statusErr a = statusErr b) : a = b := by
  rw [← status_parts a, ← status_parts b, h, p, e]

/-! ### Taking an error (R206) -/

@[simp] theorem raise_cfg (e : Error) (s : State) : (raise e s).cfg = s.cfg := by cases e <;> rfl
@[simp] theorem raise_pixelSize (e : Error) (s : State) : (raise e s).pixelSize = s.pixelSize := by cases e <;> rfl
@[simp] theorem raise_base (e : Error) (s : State) : (raise e s).base = s.base := by cases e <;> rfl
@[simp] theorem raise_ilen (e : Error) (s : State) : (raise e s).ilen = s.ilen := by cases e <;> rfl
@[simp] theorem raise_plan (e : Error) (s : State) : (raise e s).plan = s.plan := by cases e <;> rfl
@[simp] theorem raise_canvas (e : Error) (s : State) : (raise e s).canvas = s.canvas := by cases e <;> rfl
@[simp] theorem raise_ibuf (e : Error) (s : State) : (raise e s).ibuf = s.ibuf := by cases e <;> rfl
@[simp] theorem raise_result (e : Error) (s : State) : (raise e s).result = s.result := by cases e <;> rfl
@[simp] theorem raise_rdata (e : Error) (s : State) : (raise e s).rdata = s.rdata := by cases e <;> rfl
@[simp] theorem raise_draws (e : Error) (s : State) : (raise e s).draws = s.draws := by cases e <;> rfl
@[simp] theorem raise_script (e : Error) (s : State) : (raise e s).script = s.script := by cases e <;> rfl
@[simp] theorem statusErr_raise (e : Error) (s : State) : statusErr (raise e s).status = errorCode e := by
  cases e <;> simp [raise]
@[simp] theorem statusHigh_raise (e : Error) (s : State) : statusHigh (raise e s).status = statusHigh s.status := by
  cases e <;> simp [raise]

@[simp] theorem raise_inputTooLarge_olen (s : State) : (raise .inputTooLarge s).olen = s.olen := rfl
@[simp] theorem raise_inputTooLarge_obuf (s : State) : (raise .inputTooLarge s).obuf = s.obuf := rfl
@[simp] theorem raise_inputTooLarge_seq (s : State) : (raise .inputTooLarge s).seq = s.seq := rfl
@[simp] theorem statusPhase_raise_inputTooLarge (s : State) : statusPhase (raise .inputTooLarge s).status = statusPhase s.status := by
  simp [raise]
@[simp] theorem raise_invalidPixelSize_olen (s : State) : (raise .invalidPixelSize s).olen = s.olen := rfl
@[simp] theorem raise_invalidPixelSize_obuf (s : State) : (raise .invalidPixelSize s).obuf = s.obuf := rfl
@[simp] theorem raise_invalidPixelSize_seq (s : State) : (raise .invalidPixelSize s).seq = s.seq := rfl
@[simp] theorem statusPhase_raise_invalidPixelSize (s : State) : statusPhase (raise .invalidPixelSize s).status = statusPhase s.status := by
  simp [raise]
@[simp] theorem raise_illegalCommand_olen (s : State) : (raise .illegalCommand s).olen = s.olen := rfl
@[simp] theorem raise_illegalCommand_obuf (s : State) : (raise .illegalCommand s).obuf = s.obuf := rfl
@[simp] theorem raise_illegalCommand_seq (s : State) : (raise .illegalCommand s).seq = s.seq := rfl
@[simp] theorem statusPhase_raise_illegalCommand (s : State) : statusPhase (raise .illegalCommand s).status = statusPhase s.status := by
  simp [raise]
@[simp] theorem raise_bufferOverrun_olen (s : State) : (raise .bufferOverrun s).olen = 0 := rfl
@[simp] theorem raise_bufferOverrun_obuf (s : State) : (raise .bufferOverrun s).obuf = [] := rfl
@[simp] theorem raise_bufferOverrun_seq (s : State) : (raise .bufferOverrun s).seq = Seq.initial := rfl
@[simp] theorem statusPhase_raise_bufferOverrun (s : State) : statusPhase (raise .bufferOverrun s).status = 0 := by
  simp [raise, phaseBit]
@[simp] theorem raise_invalidEncoding_olen (s : State) : (raise .invalidEncoding s).olen = 0 := rfl
@[simp] theorem raise_invalidEncoding_obuf (s : State) : (raise .invalidEncoding s).obuf = [] := rfl
@[simp] theorem raise_invalidEncoding_seq (s : State) : (raise .invalidEncoding s).seq = Seq.initial := rfl
@[simp] theorem statusPhase_raise_invalidEncoding (s : State) : statusPhase (raise .invalidEncoding s).status = phaseBit s.seq.phase := by
  simp [raise, phaseBit]

/-! ### RESET (R44) -/

@[simp] theorem resetRegs_cfg (s : State) : (resetRegs s).cfg = s.cfg := rfl
@[simp] theorem resetRegs_status (s : State) : (resetRegs s).status = State.reset.status := rfl
@[simp] theorem resetRegs_pixelSize (s : State) : (resetRegs s).pixelSize = State.reset.pixelSize := rfl
@[simp] theorem resetRegs_base (s : State) : (resetRegs s).base = State.reset.base := rfl
@[simp] theorem resetRegs_ilen (s : State) : (resetRegs s).ilen = State.reset.ilen := rfl
@[simp] theorem resetRegs_plan (s : State) : (resetRegs s).plan = State.reset.plan := rfl
@[simp] theorem resetRegs_olen (s : State) : (resetRegs s).olen = State.reset.olen := rfl
@[simp] theorem resetRegs_canvas (s : State) : (resetRegs s).canvas = State.reset.canvas := rfl
@[simp] theorem resetRegs_ibuf (s : State) : (resetRegs s).ibuf = State.reset.ibuf := rfl
@[simp] theorem resetRegs_obuf (s : State) : (resetRegs s).obuf = State.reset.obuf := rfl
@[simp] theorem resetRegs_seq (s : State) : (resetRegs s).seq = State.reset.seq := rfl
@[simp] theorem resetRegs_result (s : State) : (resetRegs s).result = State.reset.result := rfl
@[simp] theorem resetRegs_rdata (s : State) : (resetRegs s).rdata = s.rdata := rfl
@[simp] theorem resetRegs_draws (s : State) : (resetRegs s).draws = s.draws := rfl
@[simp] theorem resetRegs_script (s : State) : (resetRegs s).script = s.script := rfl

/-! ### Placing a table word -/

@[simp] theorem withFetchWord_cfg (s : State) (n w : Nat) : (s.withFetchWord n w).cfg = s.cfg := rfl
@[simp] theorem withFetchWord_status (s : State) (n w : Nat) : (s.withFetchWord n w).status = s.status := rfl
@[simp] theorem withFetchWord_pixelSize (s : State) (n w : Nat) : (s.withFetchWord n w).pixelSize = s.pixelSize := rfl
@[simp] theorem withFetchWord_base (s : State) (n w : Nat) : (s.withFetchWord n w).base = s.base := rfl
@[simp] theorem withFetchWord_ilen (s : State) (n w : Nat) : (s.withFetchWord n w).ilen = s.ilen := rfl
@[simp] theorem withFetchWord_plan (s : State) (n w : Nat) : (s.withFetchWord n w).plan = s.plan := rfl
@[simp] theorem withFetchWord_olen (s : State) (n w : Nat) : (s.withFetchWord n w).olen = s.olen := rfl
@[simp] theorem withFetchWord_canvas (s : State) (n w : Nat) : (s.withFetchWord n w).canvas = s.canvas := rfl
@[simp] theorem withFetchWord_ibuf (s : State) (n w : Nat) : (s.withFetchWord n w).ibuf = s.ibuf := rfl
@[simp] theorem withFetchWord_obuf (s : State) (n w : Nat) : (s.withFetchWord n w).obuf = s.obuf := rfl
@[simp] theorem withFetchWord_seq (s : State) (n w : Nat) :
    (s.withFetchWord n w).seq = { s.seq with phase := tablePhase n w s.seq.phase } := rfl
@[simp] theorem withFetchWord_result (s : State) (n w : Nat) : (s.withFetchWord n w).result = s.result := rfl
@[simp] theorem withFetchWord_rdata (s : State) (n w : Nat) : (s.withFetchWord n w).rdata = s.rdata := rfl
@[simp] theorem withFetchWord_draws (s : State) (n w : Nat) : (s.withFetchWord n w).draws = s.draws := rfl
@[simp] theorem withFetchWord_script (s : State) (n w : Nat) : (s.withFetchWord n w).script = [tableMove n w] := rfl

/-! ### The canvas -/

@[simp] theorem Canvas.put_cw (c : Canvas) (x y : Nat) (p : Pixel) : (c.put x y p).cw = c.cw := rfl
@[simp] theorem Canvas.put_ch (c : Canvas) (x y : Nat) (p : Pixel) : (c.put x y p).ch = c.ch := rfl
@[simp] theorem Canvas.new_cw (w h : Word) : (Canvas.new w h).cw = w := rfl
@[simp] theorem Canvas.new_ch (w h : Word) : (Canvas.new w h).ch = h := rfl
@[simp] theorem Canvas.new_cells (w h : Word) : (Canvas.new w h).cells = [] := rfl

@[simp] theorem Canvas.fillRow_cw (c : Canvas) (x0 y : Nat) (p : Pixel) (n : Nat) : (c.fillRow x0 y p n).cw = c.cw := by
  induction n with
  | zero => rfl
  | succ n ih => simp [Canvas.fillRow, ih]
@[simp] theorem Canvas.fillRow_ch (c : Canvas) (x0 y : Nat) (p : Pixel) (n : Nat) : (c.fillRow x0 y p n).ch = c.ch := by
  induction n with
  | zero => rfl
  | succ n ih => simp [Canvas.fillRow, ih]
@[simp] theorem Canvas.fillRows_cw (c : Canvas) (x0 y0 w : Nat) (p : Pixel) (n : Nat) :
    (c.fillRows x0 y0 w p n).cw = c.cw := by
  induction n with
  | zero => rfl
  | succ n ih => simp [Canvas.fillRows, ih]
@[simp] theorem Canvas.fillRows_ch (c : Canvas) (x0 y0 w : Nat) (p : Pixel) (n : Nat) :
    (c.fillRows x0 y0 w p n).ch = c.ch := by
  induction n with
  | zero => rfl
  | succ n ih => simp [Canvas.fillRows, ih]
@[simp] theorem Canvas.fill_cw (c : Canvas) (a : Area) (p : Pixel) : (c.fill a p).cw = c.cw := by simp [Canvas.fill]
@[simp] theorem Canvas.fill_ch (c : Canvas) (a : Area) (p : Pixel) : (c.fill a p).ch = c.ch := by simp [Canvas.fill]

end Sys2Proof.Machine
end

