-- ==== Sys2Proof/Laws/Memory.lean ====
section
/-! SUPPORT. The laws of the memories: cell lists keep their canonical form, a read after a write gives the value written, a
write leaves every other place alone, and equal contents are equal lists. -/

namespace Sys2Proof.Machine

/-! ### Cell lists -/

section Cells
variable {α : Type}

theorem risingFrom_mono {lo lo' : Nat} {l : List (Nat × α)} (h : lo' ≤ lo) (hr : risingFrom lo l = true) :
    risingFrom lo' l = true := by
  cases l with
  | nil => rfl
  | cons e rest =>
    simp only [risingFrom, Bool.and_eq_true, decide_eq_true_eq] at hr ⊢
    exact ⟨by omega, hr.2⟩

theorem lookupCell_below {lo a : Nat} {l : List (Nat × α)} (hr : risingFrom lo l = true) (h : a < lo) :
    lookupCell a l = none := by
  induction l generalizing lo with
  | nil => rfl
  | cons e rest ih =>
    simp only [risingFrom, Bool.and_eq_true, decide_eq_true_eq] at hr
    have hne : a ≠ e.1 := by omega
    simp only [lookupCell, hne, if_false]
    exact ih hr.2 (by omega)

theorem insertCell_rising {lo a : Nat} {v : α} {l : List (Nat × α)} (hr : risingFrom lo l = true) (h : lo ≤ a) :
    risingFrom lo (insertCell a v l) = true := by
  induction l generalizing lo with
  | nil => simp [insertCell, risingFrom, h]
  | cons e rest ih =>
    obtain ⟨b, w⟩ := e
    simp only [risingFrom, Bool.and_eq_true, decide_eq_true_eq] at hr
    simp only [insertCell]
    split
    · simp [risingFrom, h, hr.2]; omega
    · split
      · subst a; simp [risingFrom, hr]
      · simp only [risingFrom, Bool.and_eq_true, decide_eq_true_eq]
        exact ⟨hr.1, ih hr.2 (by omega)⟩

theorem eraseCell_rising {lo a : Nat} {l : List (Nat × α)} (hr : risingFrom lo l = true) :
    risingFrom lo (eraseCell a l) = true := by
  induction l generalizing lo with
  | nil => rfl
  | cons e rest ih =>
    obtain ⟨b, w⟩ := e
    simp only [risingFrom, Bool.and_eq_true, decide_eq_true_eq] at hr
    simp only [eraseCell]
    split
    · exact risingFrom_mono (by omega) hr.2
    · simp only [risingFrom, Bool.and_eq_true, decide_eq_true_eq]
      exact ⟨hr.1, ih hr.2⟩

@[simp] theorem lookupCell_insertCell_same (a : Nat) (v : α) (l : List (Nat × α)) :
    lookupCell a (insertCell a v l) = some v := by
  induction l with
  | nil => simp [insertCell, lookupCell]
  | cons e rest ih =>
    obtain ⟨b, w⟩ := e
    simp only [insertCell]
    split
    · simp [lookupCell]
    · split
      · simp [lookupCell]
      · rename_i h; simp [lookupCell, h, ih]

theorem lookupCell_insertCell_other {a b : Nat} (h : b ≠ a) (v : α) (l : List (Nat × α)) :
    lookupCell b (insertCell a v l) = lookupCell b l := by
  induction l with
  | nil => simp [insertCell, lookupCell, h]
  | cons e rest ih =>
    obtain ⟨c, w⟩ := e
    simp only [insertCell]
    split
    · simp [lookupCell, h]
    · split
      · subst c; simp [lookupCell, h]
      · simp [lookupCell, ih]

theorem lookupCell_eraseCell_same {lo : Nat} (a : Nat) {l : List (Nat × α)} (hr : risingFrom lo l = true) :
    lookupCell a (eraseCell a l) = none := by
  induction l generalizing lo with
  | nil => rfl
  | cons e rest ih =>
    obtain ⟨b, w⟩ := e
    simp only [risingFrom, Bool.and_eq_true, decide_eq_true_eq] at hr
    simp only [eraseCell]
    split
    · subst b; exact lookupCell_below hr.2 (by omega)
    · rename_i h; simp only [lookupCell, h, if_false]; exact ih hr.2

theorem lookupCell_eraseCell_other {a b : Nat} (h : b ≠ a) (l : List (Nat × α)) :
    lookupCell b (eraseCell a l) = lookupCell b l := by
  induction l with
  | nil => rfl
  | cons e rest ih =>
    obtain ⟨c, w⟩ := e
    simp only [eraseCell]
    split
    · subst c; simp [lookupCell, h]
    · simp [lookupCell, ih]

theorem mem_insertCell {e : Nat × α} {a : Nat} {v : α} {l : List (Nat × α)} (h : e ∈ insertCell a v l) :
    e = (a, v) ∨ e ∈ l := by
  induction l with
  | nil => simpa [insertCell] using h
  | cons f rest ih =>
    obtain ⟨b, w⟩ := f
    simp only [insertCell] at h
    split at h
    · simpa using h
    · split at h
      · rcases List.mem_cons.mp h with h | h
        · exact .inl h
        · exact .inr (List.mem_cons_of_mem _ h)
      · rcases List.mem_cons.mp h with h | h
        · exact .inr (by simp [h])
        · rcases ih h with h | h
          · exact .inl h
          · exact .inr (List.mem_cons_of_mem _ h)

theorem mem_eraseCell {e : Nat × α} {a : Nat} {l : List (Nat × α)} (h : e ∈ eraseCell a l) : e ∈ l := by
  induction l with
  | nil => simp [eraseCell] at h
  | cons f rest ih =>
    obtain ⟨b, w⟩ := f
    simp only [eraseCell] at h
    split at h
    · exact List.mem_cons_of_mem _ h
    · rcases List.mem_cons.mp h with h | h
      · simp [h]
      · exact List.mem_cons_of_mem _ (ih h)

theorem mem_of_lookupCell {a : Nat} {v : α} {l : List (Nat × α)} (h : lookupCell a l = some v) : (a, v) ∈ l := by
  induction l with
  | nil => simp [lookupCell] at h
  | cons e rest ih =>
    obtain ⟨b, w⟩ := e
    simp only [lookupCell] at h
    split at h
    · simp_all
    · exact List.mem_cons_of_mem _ (ih h)

/-- Equal contents are equal lists: the canonical form is one form. -/
theorem cells_ext {lo : Nat} {l m : List (Nat × α)} (hl : risingFrom lo l = true) (hm : risingFrom lo m = true)
    (h : ∀ a, lookupCell a l = lookupCell a m) : l = m := by
  induction l generalizing lo m with
  | nil =>
    cases m with
    | nil => rfl
    | cons e rest => have := h e.1; simp [lookupCell] at this
  | cons e rest ih =>
    obtain ⟨b, w⟩ := e
    cases m with
    | nil => have := h b; simp [lookupCell] at this
    | cons f rest' =>
      obtain ⟨c, u⟩ := f
      simp only [risingFrom, Bool.and_eq_true, decide_eq_true_eq] at hl hm
      have hbc : b = c := by
        rcases Nat.lt_trichotomy b c with hlt | heq | hgt
        · have hb := h b
          have hne : b ≠ c := by omega
          simp only [lookupCell, if_true, hne, if_false] at hb
          rw [lookupCell_below hm.2 (by omega)] at hb
          exact absurd hb (by simp)
        · exact heq
        · have hc := h c
          have hne : c ≠ b := by omega
          simp only [lookupCell, if_true, hne, if_false] at hc
          rw [lookupCell_below hl.2 (by omega)] at hc
          exact absurd hc (by simp)
      subst c
      have hw : w = u := by have := h b; simpa [lookupCell] using this
      subst u
      have hrest : rest = rest' := by
        refine ih hl.2 hm.2 fun a => ?_
        by_cases ha : a = b
        · subst a
          rw [lookupCell_below hl.2 (by omega), lookupCell_below hm.2 (by omega)]
        · have := h a
          simpa [lookupCell, ha] using this
      rw [hrest]

end Cells

/-! ### The canvas (R62 to R64) -/

theorem pixelKey_inj {x y u v : Nat} (hx : x < 4294967296) (hu : u < 4294967296) (h : pixelKey x y = pixelKey u v) :
    x = u ∧ y = v := by
  unfold pixelKey at h; omega

theorem Canvas.has_iff (c : Canvas) (x y : Nat) : c.has x y = true ↔ x < c.cw.toNat ∧ y < c.ch.toNat := by
  simp [Canvas.has]

theorem Canvas.has_lt {c : Canvas} {x y : Nat} (h : c.has x y = true) : x < 4294967296 ∧ y < 4294967296 := by
  rw [Canvas.has_iff] at h
  have := c.cw.isLt; have := c.ch.isLt
  omega

/-- `put` keeps the keys rising. -/
theorem Canvas.put_rising {c : Canvas} (hr : risingFrom 0 c.cells = true) (x y : Nat) (p : Pixel) :
    risingFrom 0 (c.put x y p).cells = true := by
  unfold Canvas.put
  split
  · exact eraseCell_rising hr
  · exact insertCell_rising hr (Nat.zero_le _)

/-- A `get` after a `set` to the same pixel gives the value set (R63). -/
theorem Canvas.pixelAt_put_same {c : Canvas} (hr : risingFrom 0 c.cells = true) (x y : Nat) (p : Pixel) :
    (c.put x y p).pixelAt x y = p := by
  unfold Canvas.put Canvas.pixelAt
  split
  · rename_i h; simp [lookupCell_eraseCell_same _ hr, h]
  · simp

/-- A `set` changes no other pixel (R63). -/
theorem Canvas.pixelAt_put_other {x y u v : Nat} (hx : x < 4294967296) (hu : u < 4294967296) (h : ¬ (u = x ∧ v = y))
    (c : Canvas) (p : Pixel) : (c.put x y p).pixelAt u v = c.pixelAt u v := by
  have hk : pixelKey u v ≠ pixelKey x y := fun e => h (pixelKey_inj hu hx e)
  unfold Canvas.put Canvas.pixelAt
  split
  · simp [lookupCell_eraseCell_other hk]
  · simp [lookupCell_insertCell_other hk]

theorem Canvas.pixelAt_put {c : Canvas} (hr : risingFrom 0 c.cells = true) {x y u v : Nat} (hx : x < 4294967296)
    (hu : u < 4294967296) (p : Pixel) :
    (c.put x y p).pixelAt u v = if u = x ∧ v = y then p else c.pixelAt u v := by
  split
  · rename_i h; obtain ⟨rfl, rfl⟩ := h; exact Canvas.pixelAt_put_same hr u v p
  · rename_i h; exact Canvas.pixelAt_put_other hx hu h c p

/-- Every pixel of a new canvas is `DEFAULT_PIXEL` (R64). -/
@[simp] theorem Canvas.pixelAt_new (w h : Word) (x y : Nat) : (Canvas.new w h).pixelAt x y = Pixel.zero := rfl

theorem Canvas.fillRow_rising {c : Canvas} (hr : risingFrom 0 c.cells = true) (x0 y : Nat) (p : Pixel) (n : Nat) :
    risingFrom 0 (c.fillRow x0 y p n).cells = true := by
  induction n with
  | zero => exact hr
  | succ n ih => exact Canvas.put_rising ih _ _ _

theorem Canvas.fillRows_rising {c : Canvas} (hr : risingFrom 0 c.cells = true) (x0 y0 w : Nat) (p : Pixel) (n : Nat) :
    risingFrom 0 (c.fillRows x0 y0 w p n).cells = true := by
  induction n with
  | zero => exact hr
  | succ n ih => exact Canvas.fillRow_rising ih _ _ _ _

theorem Canvas.fill_rising {c : Canvas} (hr : risingFrom 0 c.cells = true) (a : Area) (p : Pixel) :
    risingFrom 0 (c.fill a p).cells = true := Canvas.fillRows_rising hr _ _ _ _ _

theorem Canvas.pixelAt_fillRow {c : Canvas} (hr : risingFrom 0 c.cells = true) {x0 y u v n : Nat}
    (hx : x0 + n ≤ 4294967296) (hu : u < 4294967296) (p : Pixel) :
    (c.fillRow x0 y p n).pixelAt u v = if x0 ≤ u ∧ u < x0 + n ∧ v = y then p else c.pixelAt u v := by
  induction n with
  | zero => simp only [Canvas.fillRow]; rw [if_neg (by omega)]
  | succ n ih =>
    simp only [Canvas.fillRow]
    rw [Canvas.pixelAt_put (Canvas.fillRow_rising hr _ _ _ _) (by omega) hu, ih (by omega)]
    split
    · rw [if_pos (by omega)]
    · split
      · rw [if_pos (by omega)]
      · rw [if_neg (by omega)]

theorem Canvas.pixelAt_fillRows {c : Canvas} (hr : risingFrom 0 c.cells = true) {x0 y0 w u v n : Nat}
    (hx : x0 + w ≤ 4294967296) (hu : u < 4294967296) (p : Pixel) :
    (c.fillRows x0 y0 w p n).pixelAt u v =
      if x0 ≤ u ∧ u < x0 + w ∧ y0 ≤ v ∧ v < y0 + n then p else c.pixelAt u v := by
  induction n with
  | zero => simp only [Canvas.fillRows]; rw [if_neg (by omega)]
  | succ n ih =>
    simp only [Canvas.fillRows]
    rw [Canvas.pixelAt_fillRow (Canvas.fillRows_rising hr _ _ _ _ _) hx hu, ih]
    split
    · rw [if_pos (by omega)]
    · split
      · rw [if_pos (by omega)]
      · rw [if_neg (by omega)]

/-- Filling an area gives its pixels the value and leaves every other pixel alone (R152). -/
theorem Canvas.pixelAt_fill {c : Canvas} (hr : risingFrom 0 c.cells = true) {a : Area} {u v : Nat}
    (hx : a.x0 + a.size ≤ 4294967296) (hu : u < 4294967296) (p : Pixel) :
    (c.fill a p).pixelAt u v = if a.contains u v = true then p else c.pixelAt u v := by
  simp only [Canvas.fill, Canvas.pixelAt_fillRows hr hx hu, Area.contains, Bool.and_eq_true, decide_eq_true_eq, and_assoc]

/-- The canonical form of the canvas, as facts. -/
theorem Canvas.wf_iff (c : Canvas) :
    c.wf = true ↔ risingFrom 0 c.cells = true ∧
      ∀ k p, (k, p) ∈ c.cells → c.has (k % 4294967296) (k / 4294967296) = true ∧ p ≠ Pixel.zero := by
  simp [Canvas.wf, List.all_eq_true]

theorem Canvas.wf_rising {c : Canvas} (h : c.wf = true) : risingFrom 0 c.cells = true := ((Canvas.wf_iff c).mp h).1

theorem Canvas.new_wf (w h : Word) : (Canvas.new w h).wf = true := by simp [Canvas.wf, risingFrom]

/-- `set` on a pixel of the canvas keeps the canonical form. -/
theorem Canvas.put_wf {c : Canvas} (h : c.wf = true) {x y : Nat} (hxy : c.has x y = true) (p : Pixel) :
    (c.put x y p).wf = true := by
  rw [Canvas.wf_iff] at h ⊢
  refine ⟨Canvas.put_rising h.1 x y p, fun k q hq => ?_⟩
  have hhas : ∀ a b, (c.put x y p).has a b = c.has a b := fun _ _ => rfl
  rw [hhas]
  unfold Canvas.put at hq
  simp only at hq
  split at hq
  · exact h.2 k q (mem_eraseCell hq)
  · rename_i hp
    rcases mem_insertCell hq with e | e
    · obtain ⟨hx, hy⟩ := Canvas.has_lt hxy
      simp only [Prod.mk.injEq] at e
      obtain ⟨rfl, rfl⟩ := e
      have h1 : pixelKey x y % 4294967296 = x := by unfold pixelKey; omega
      have h2 : pixelKey x y / 4294967296 = y := by unfold pixelKey; omega
      rw [h1, h2]
      exact ⟨hxy, hp⟩
    · exact h.2 k q e

theorem Canvas.fillRow_wf {c : Canvas} (h : c.wf = true) {x0 y n : Nat} (hx : x0 + n ≤ c.cw.toNat) (hy : y < c.ch.toNat)
    (p : Pixel) : (c.fillRow x0 y p n).wf = true := by
  induction n with
  | zero => exact h
  | succ n ih =>
    refine Canvas.put_wf (ih (by omega)) ?_ p
    rw [Canvas.has_iff]
    simp only [Canvas.fillRow_cw, Canvas.fillRow_ch]
    omega

theorem Canvas.fillRows_wf {c : Canvas} (h : c.wf = true) {x0 y0 w n : Nat} (hx : x0 + w ≤ c.cw.toNat)
    (hy : y0 + n ≤ c.ch.toNat) (p : Pixel) : (c.fillRows x0 y0 w p n).wf = true := by
  induction n with
  | zero => exact h
  | succ n ih =>
    refine Canvas.fillRow_wf (ih (by omega)) ?_ ?_ p
    · simpa using hx
    · simp only [Canvas.fillRows_ch]; omega

/-- Filling an area that the canvas covers keeps the canonical form. -/
theorem Canvas.fill_wf {c : Canvas} (h : c.wf = true) {a : Area} (ha : c.covers a = true) (p : Pixel) :
    (c.fill a p).wf = true := by
  simp only [Canvas.covers, Bool.or_eq_true, Bool.and_eq_true, decide_eq_true_eq] at ha
  rcases ha with h0 | ⟨hx, hy⟩
  · simp only [Canvas.fill, h0, Canvas.fillRows]; exact h
  · exact Canvas.fillRows_wf h hx hy p

/-- Two canvases in canonical form with the same size and the same pixels are equal. -/
theorem Canvas.ext_pixels {c d : Canvas} (hc : c.wf = true) (hd : d.wf = true) (hw : c.cw = d.cw) (hh : c.ch = d.ch)
    (h : ∀ x y, c.has x y = true → c.pixelAt x y = d.pixelAt x y) : c = d := by
  rw [Canvas.wf_iff] at hc hd
  have hhas : ∀ x y, c.has x y = d.has x y := fun x y => by simp [Canvas.has, hw, hh]
  have key : ∀ k, pixelKey (k % 4294967296) (k / 4294967296) = k := fun k => by unfold pixelKey; omega
  have hcells : c.cells = d.cells := by
    refine cells_ext hc.1 hd.1 fun k => ?_
    by_cases hk : c.has (k % 4294967296) (k / 4294967296) = true
    · have := h _ _ hk
      unfold Canvas.pixelAt at this
      rw [key] at this
      cases h1 : lookupCell k c.cells with
      | none =>
        cases h2 : lookupCell k d.cells with
        | none => rfl
        | some q =>
          rw [h1, h2] at this
          exact absurd this.symm (hd.2 k q (mem_of_lookupCell h2)).2
      | some p =>
        cases h2 : lookupCell k d.cells with
        | none =>
          rw [h1, h2] at this
          exact absurd this (hc.2 k p (mem_of_lookupCell h1)).2
        | some q => rw [h1, h2] at this; simpa using this
    · have h1 : lookupCell k c.cells = none := by
        cases h1 : lookupCell k c.cells with
        | none => rfl
        | some p => exact absurd (hc.2 k p (mem_of_lookupCell h1)).1 hk
      have h2 : lookupCell k d.cells = none := by
        cases h2 : lookupCell k d.cells with
        | none => rfl
        | some p => exact absurd (by rw [hhas]; exact (hd.2 k p (mem_of_lookupCell h2)).1) hk
      rw [h1, h2]
  cases c; cases d; simp_all

/-! ### The byte buffers -/

theorem writeCells_rising {cells : List Host.Cell} (hr : risingFrom 0 cells = true) (i : Nat) (bs : List Byte) :
    risingFrom 0 (writeCells cells i bs) = true := by
  induction bs generalizing cells i with
  | nil => exact hr
  | cons b rest ih => exact ih (insertCell_rising hr (Nat.zero_le _)) (i + 1)

theorem mem_writeCells {cells : List Host.Cell} {i : Nat} {bs : List Byte} {e : Host.Cell}
    (h : e ∈ writeCells cells i bs) : e ∈ cells ∨ i ≤ e.1 ∧ e.1 < i + bs.length := by
  induction bs generalizing cells i with
  | nil => exact .inl h
  | cons b rest ih =>
    rcases ih h with h | h
    · rcases mem_insertCell h with h | h
      · subst e; right; simp
      · exact .inl h
    · right; simp only [List.length_cons]; omega

/-- Cells outside the written ones are left alone. -/
theorem lookupCell_writeCells_other {cells : List Host.Cell} {i a : Nat} {bs : List Byte}
    (h : a < i ∨ i + bs.length ≤ a) : lookupCell a (writeCells cells i bs) = lookupCell a cells := by
  induction bs generalizing cells i with
  | nil => rfl
  | cons b rest ih =>
    simp only [List.length_cons] at h
    simp only [writeCells]
    rw [ih (by omega), lookupCell_insertCell_other (by omega)]

/-- A written cell holds the byte written to it. -/
theorem lookupCell_writeCells {cells : List Host.Cell} {i j : Nat} {bs : List Byte} (h : j < bs.length) :
    lookupCell (i + j) (writeCells cells i bs) = some bs[j] := by
  induction bs generalizing cells i j with
  | nil => simp at h
  | cons b rest ih =>
    simp only [writeCells]
    cases j with
    | zero => rw [Nat.add_zero, lookupCell_writeCells_other (.inl (by omega))]; simp
    | succ j =>
      have := ih (cells := insertCell i b cells) (i := i + 1) (j := j) (by simpa using h)
      rw [show i + (j + 1) = i + 1 + j by omega]
      simpa using this

/-- The input that the cells hold, cell by cell. -/
theorem readInput_iff {cells : List Host.Cell} {i n : Nat} {bs : List Byte} :
    readInput cells i n = some bs ↔
      bs.length = n ∧ ∀ j (h : j < bs.length), lookupCell (i + j) cells = some bs[j] := by
  induction n generalizing i bs with
  | zero =>
    simp only [readInput, Option.some.injEq]
    constructor
    · rintro rfl; simp
    · rintro ⟨h, -⟩; exact (List.length_eq_zero_iff.mp h).symm
  | succ n ih =>
    simp only [readInput]
    constructor
    · intro h
      split at h
      · rename_i b rest hb hrest
        simp only [Option.some.injEq] at h
        subst bs
        obtain ⟨hl, hc⟩ := ih.mp hrest
        refine ⟨by simp [hl], fun j hj => ?_⟩
        cases j with
        | zero => simpa using hb
        | succ j =>
          rw [show i + (j + 1) = i + 1 + j by omega]
          simpa using hc j (by simpa using hj)
      · exact absurd h (by simp)
    · rintro ⟨hl, hc⟩
      cases bs with
      | nil => simp at hl
      | cons b rest =>
        have h0 := hc 0 (by simp)
        have hr : readInput cells (i + 1) n = some rest := by
          refine ih.mpr ⟨by simpa using hl, fun j hj => ?_⟩
          have := hc (j + 1) (by simpa using hj)
          rw [show i + 1 + j = i + (j + 1) by omega]
          simpa using this
        simp only [Nat.add_zero, List.getElem_cons_zero] at h0
        rw [h0, hr]

theorem readInput_length {cells : List Host.Cell} {i n : Nat} {bs : List Byte} (h : readInput cells i n = some bs) :
    bs.length = n := (readInput_iff.mp h).1

/-- An unwritten cell among the input: nothing can be read (U9). -/
theorem readInput_unwritten {cells : List Host.Cell} {i n a : Nat} (h : lookupCell a cells = none) (hi : i ≤ a)
    (hn : a < i + n) : readInput cells i n = none := by
  cases hr : readInput cells i n with
  | none => rfl
  | some bs =>
    obtain ⟨hl, hc⟩ := readInput_iff.mp hr
    have := hc (a - i) (by omega)
    rw [show i + (a - i) = a by omega, h] at this
    exact absurd this (by simp)

theorem cellsFrom_rising (lo a : Nat) (h : lo ≤ a) (bs : List Byte) : risingFrom lo (cellsFrom a bs) = true := by
  induction bs generalizing lo a with
  | nil => rfl
  | cons b rest ih =>
    simp only [cellsFrom, risingFrom, Bool.and_eq_true, decide_eq_true_eq]
    exact ⟨h, ih _ _ (Nat.le_refl _)⟩

@[simp] theorem cellBytes_cellsFrom (a : Nat) (bs : List Byte) : cellBytes (cellsFrom a bs) = bs := by
  induction bs generalizing a with
  | nil => rfl
  | cons b rest ih => simpa [cellsFrom, cellBytes] using ih (a + 1)

@[simp] theorem cellsFrom_length (a : Nat) (bs : List Byte) : (cellsFrom a bs).length = bs.length := by
  induction bs generalizing a with
  | nil => rfl
  | cons b rest ih => simp [cellsFrom, ih]

theorem lookupCell_cellsFrom {a j : Nat} {bs : List Byte} (h : j < bs.length) :
    lookupCell (a + j) (cellsFrom a bs) = some bs[j] := by
  induction bs generalizing a j with
  | nil => simp at h
  | cons b rest ih =>
    cases j with
    | zero => simp [cellsFrom, lookupCell]
    | succ j =>
      have := ih (a := a + 1) (j := j) (by simpa using h)
      simp only [cellsFrom, lookupCell, List.getElem_cons_succ]
      rw [if_neg (by omega), show a + (j + 1) = a + 1 + j by omega]; exact this

/-- Bytes written out as cells read back. -/
theorem readInput_cellsFrom (a : Nat) (bs : List Byte) : readInput (cellsFrom a bs) a bs.length = some bs :=
  readInput_iff.mpr ⟨rfl, fun _ h => lookupCell_cellsFrom h⟩

theorem mem_cellsFrom {a : Nat} {bs : List Byte} {e : Host.Cell} (h : e ∈ cellsFrom a bs) :
    a ≤ e.1 ∧ e.1 < a + bs.length := by
  induction bs generalizing a with
  | nil => simp [cellsFrom] at h
  | cons b rest ih =>
    simp only [cellsFrom, List.mem_cons] at h
    rcases h with h | h
    · subst e; simp
    · have := ih h; simp only [List.length_cons]; omega

theorem withinObuf_mono {cap : Option Nat} {m n : Nat} (h : m ≤ n) (hn : withinObuf cap n = true) :
    withinObuf cap m = true := by
  cases cap with
  | none => rfl
  | some c => simp only [withinObuf, decide_eq_true_eq] at hn ⊢; omega

/-! ### The memories of a state -/

theorem Memory.wf_iff (s : State) :
    Memory.wf s = true ↔ s.canvas.wf = true ∧
      (risingFrom 0 s.ibuf = true ∧ ∀ e ∈ s.ibuf, e.1 < Config.inMax) ∧
      (risingFrom 0 s.obuf = true ∧ ∀ e ∈ s.obuf, withinObuf s.cfg.obufCap (e.1 + 1) = true) := by
  simp only [Memory.wf, Bool.and_eq_true, List.all_eq_true, decide_eq_true_eq, and_assoc]

/-- Reset memory is in canonical form. -/
theorem Memory.wf_reset : Memory.wf State.reset = true := by decide

/-- A new or changed canvas in canonical form keeps the memories so. -/
theorem Memory.wf_canvas {s : State} (h : Memory.wf s = true) {c : Canvas} (hc : c.wf = true) :
    Memory.wf { s with canvas := c } = true := by
  rw [Memory.wf_iff] at h ⊢
  exact ⟨hc, h.2⟩

/-- A host write to `IBUF` keeps the memories in canonical form. -/
theorem Memory.wf_ibuf {s : State} (h : Memory.wf s = true) {i : Nat} {bs : List Byte}
    (hi : i + bs.length ≤ Config.inMax) : Memory.wf { s with ibuf := writeCells s.ibuf i bs } = true := by
  rw [Memory.wf_iff] at h ⊢
  refine ⟨h.1, ⟨writeCells_rising h.2.1.1 i bs, fun e he => ?_⟩, h.2.2⟩
  rcases mem_writeCells he with he | he
  · exact h.2.1.2 e he
  · omega

/-- A decoded sequence within `OBUF_CAP` keeps the memories in canonical form. -/
theorem Memory.wf_obuf {s : State} (h : Memory.wf s = true) {bs : List Byte}
    (hb : withinObuf s.cfg.obufCap bs.length = true) : Memory.wf { s with obuf := cellsFrom 0 bs } = true := by
  rw [Memory.wf_iff] at h ⊢
  refine ⟨h.1, h.2.1, cellsFrom_rising 0 0 (Nat.le_refl _) bs, fun e he => ?_⟩
  exact withinObuf_mono (by have := mem_cellsFrom he; omega) hb

/-- Taking an error keeps the memories in canonical form. -/
theorem Memory.wf_raise {s : State} (h : Memory.wf s = true) (e : Error) : Memory.wf (raise e s) = true := by
  rw [Memory.wf_iff] at h ⊢
  have none : risingFrom 0 ([] : List Host.Cell) = true ∧
      ∀ c ∈ ([] : List Host.Cell), withinObuf s.cfg.obufCap (c.1 + 1) = true := ⟨rfl, fun _ hc => by simp at hc⟩
  cases e with
  | inputTooLarge => exact h
  | invalidPixelSize => exact h
  | illegalCommand => exact h
  | bufferOverrun => exact ⟨h.1, h.2.1, none⟩
  | invalidEncoding => exact ⟨h.1, h.2.1, none⟩

end Sys2Proof.Machine
end

