-- ==== Sys2Proof/Laws/Codec.lean ====
section
/-! SUPPORT. The laws of the small operations: the clamping adder and its recovery (R120, R127), DIFF and APPLY (R172,
R176), chunks and the strip (R110, R113, R114). -/

namespace Sys2Proof.Machine

/-! ### Channel arithmetic -/

theorem satSub_toNat (p b : Byte) : (satSub p b).toNat = p.toNat - b.toNat := by
  have := p.isLt
  simp only [satSub, BitVec.toNat_ofNat]; omega

theorem satAdd_toNat (a m : Byte) : (satAdd a m).toNat = min 255 (a.toNat + m.toNat) := by
  simp only [satAdd, BitVec.toNat_ofNat]; omega

theorem byte_ext {a b : Byte} (h : a.toNat = b.toNat) : a = b := BitVec.eq_of_toNat_eq h

/-- The stored channel value is the sum clamped at 255 (R120, R126). -/
theorem clampAdd_value (b d : Byte) : (clampAdd b d).1.toNat = min 255 (b.toNat + d.toNat) := by
  unfold clampAdd laneOverflows laneSum
  have := b.isLt; have := d.isLt
  by_cases h : 255 < b.toNat + d.toNat
  · simp [h]; omega
  · simp [h]; omega

/-- A lane that does not overflow has no magnitude. -/
theorem clampAdd_none {b d : Byte} (h : b.toNat + d.toNat ≤ 255) : (clampAdd b d).2 = none := by
  have hn : ¬ 255 < b.toNat + d.toNat := by omega
  simp [clampAdd, laneOverflows, laneSum, hn]

/-- A lane that overflows has the magnitude `sum − 255`, 1..255 (R120). -/
theorem clampAdd_some {b d : Byte} (h : 255 < b.toNat + d.toNat) :
    ∃ m : Byte, (clampAdd b d).2 = some m ∧ m.toNat = b.toNat + d.toNat - 255 := by
  have := b.isLt; have := d.isLt
  refine ⟨BitVec.ofNat 8 (b.toNat + d.toNat - 255), by simp [clampAdd, laneOverflows, laneSum, h], ?_⟩
  simp only [BitVec.toNat_ofNat]; omega

/-- DIFF of the stored value is the chunk byte where the lane did not overflow, else the part not clamped away (R127). -/
theorem satSub_clampAdd (b d : Byte) : (satSub (clampAdd b d).1 b).toNat = min (255 - b.toNat) d.toNat := by
  rw [satSub_toNat, clampAdd_value]
  have := b.isLt; have := d.isLt
  omega

/-! ### CHUNK (R110) -/

theorem chunkBytes_length (bs : List Byte) : (chunkBytes bs).length = (bs.length + 2) / 3 := by
  induction bs using chunkBytes.induct with
  | case1 => rfl
  | case2 a => simp [chunkBytes]
  | case3 a b => simp [chunkBytes]
  | case4 a b c rest ih => simp only [chunkBytes, List.length_cons, ih]; omega

/-- The bytes of the chunks are the input and its padding (R114). -/
theorem chunkBytes_flat (bs : List Byte) :
    (chunkBytes bs).flatMap rgbBytes = bs ++ List.replicate (3 * (chunkBytes bs).length - bs.length) 0 := by
  induction bs using chunkBytes.induct with
  | case1 => rfl
  | case2 a => rfl
  | case3 a b => rfl
  | case4 a b c rest ih =>
    have : 3 * ((chunkBytes rest).length + 1) - (rest.length + 1 + 1 + 1) = 3 * (chunkBytes rest).length - rest.length := by
      omega
    simp [chunkBytes, ih, rgbBytes, this]

theorem flatMap_rgbBytes_length (cs : List Rgb) : (cs.flatMap rgbBytes).length = 3 * cs.length := by
  induction cs with
  | nil => rfl
  | cons c cs ih => simp only [List.flatMap_cons, List.length_append, ih, rgbBytes, List.length_cons, List.length_nil]; omega

/-! ### STRIP (R113) -/

@[simp] theorem stripZeros_nil : stripZeros [] = [] := rfl

theorem stripZeros_append_zero (bs : List Byte) : stripZeros (bs ++ [0]) = stripZeros bs := by
  simp [stripZeros]

theorem stripZeros_append_zeros (bs : List Byte) (n : Nat) : stripZeros (bs ++ List.replicate n 0) = stripZeros bs := by
  induction n with
  | zero => simp
  | succ n ih => rw [List.replicate_succ', ← List.append_assoc, stripZeros_append_zero, ih]

theorem stripZeros_append_nonzero (bs : List Byte) {b : Byte} (h : b ≠ 0) : stripZeros (bs ++ [b]) = bs ++ [b] := by
  simpa [stripZeros] using h

/-- STRIP removes zero bytes from the end and nothing else. -/
theorem stripZeros_spec (bs : List Byte) :
    ∃ n, bs = stripZeros bs ++ List.replicate n 0 ∧
      (stripZeros bs = [] ∨ ∃ init b, stripZeros bs = init ++ [b] ∧ b ≠ 0) := by
  induction bs using List.reverseRecOn with
  | nil => exact ⟨0, rfl, .inl rfl⟩
  | append_singleton init b ih =>
    by_cases hb : b = 0
    · subst b
      obtain ⟨n, h, hs⟩ := ih
      refine ⟨n + 1, ?_, ?_⟩
      · rw [stripZeros_append_zero, List.replicate_succ', ← List.append_assoc, ← h]
      · rw [stripZeros_append_zero]; exact hs
    · rw [stripZeros_append_nonzero init hb]
      exact ⟨0, by simp, .inr ⟨init, b, rfl, hb⟩⟩

theorem stripZeros_length_le (bs : List Byte) : (stripZeros bs).length ≤ bs.length := by
  obtain ⟨n, h, -⟩ := stripZeros_spec bs
  have := congrArg List.length h
  simp only [List.length_append, List.length_replicate] at this
  omega

/-- What is left does not change under a second STRIP. -/
theorem stripZeros_idem (bs : List Byte) : stripZeros (stripZeros bs) = stripZeros bs := by
  obtain ⟨n, -, h⟩ := stripZeros_spec bs
  rcases h with h | ⟨init, b, h, hb⟩
  · rw [h]; rfl
  · rw [h]; exact stripZeros_append_nonzero init hb

/-- A sequence is its own STRIP exactly when it is empty or ends in a non-zero byte. -/
theorem stripZeros_eq_self_iff (bs : List Byte) : stripZeros bs = bs ↔ bs = [] ∨ ∃ init b, bs = init ++ [b] ∧ b ≠ 0 := by
  constructor
  · intro h
    obtain ⟨-, -, hs⟩ := stripZeros_spec bs
    rwa [h] at hs
  · rintro (rfl | ⟨init, b, rfl, hb⟩)
    · rfl
    · exact stripZeros_append_nonzero init hb

/-! ### APPLY (R176) -/

@[simp] theorem applyTriple_length (buf : List Byte) (t : Triple) : (applyTriple buf t).length = buf.length := by
  unfold applyTriple
  split
  · split
    · simp
    · rfl
  · rfl

@[simp] theorem foldl_applyTriple_length (recs : List Triple) (buf : List Byte) :
    (recs.foldl applyTriple buf).length = buf.length := by
  induction recs generalizing buf with
  | nil => rfl
  | cons t ts ih => simp [ih]

/-- Each byte after APPLY: the addressed one is increased with saturation, the others are as before. -/
theorem applyTriple_getD (buf : List Byte) (t : Triple) (pos : Nat) :
    ((applyTriple buf t).getD pos 0).toNat =
      if triplePos t = some pos ∧ pos < buf.length then min 255 ((buf.getD pos 0).toNat + t.mag.toNat)
      else (buf.getD pos 0).toNat := by
  unfold applyTriple
  cases ht : triplePos t with
  | none => simp
  | some q =>
    simp only [Option.some.injEq]
    by_cases hq : q < buf.length
    · simp only [hq, if_true]
      by_cases hp : q = pos
      · subst q
        have : ((buf.set pos (satAdd (buf.getD pos 0) t.mag)).getD pos 0) = satAdd (buf.getD pos 0) t.mag := by
          simp [List.getD_eq_getElem?_getD, hq]
        rw [this, satAdd_toNat, if_pos ⟨rfl, hq⟩]
      · have : (buf.set q (satAdd (buf.getD q 0) t.mag)).getD pos 0 = buf.getD pos 0 := by
          simp [List.getD_eq_getElem?_getD, hp]
        rw [this, if_neg (fun h => hp h.1)]
    · simp only [hq, if_false]
      rw [if_neg]; rintro ⟨rfl, h⟩; exact hq h

/-- After all records, each byte has grown by the magnitudes addressed to it, with saturation (R177). -/
theorem foldl_applyTriple_getD (recs : List Triple) (buf : List Byte) (pos : Nat) :
    ((recs.foldl applyTriple buf).getD pos 0).toNat =
      min 255 ((buf.getD pos 0).toNat + magnitudesAt pos buf.length recs) := by
  induction recs generalizing buf with
  | nil => have := (buf.getD pos 0).isLt; simp only [List.foldl_nil, magnitudesAt, List.map_nil, List.sum_nil]; omega
  | cons t ts ih =>
    simp only [List.foldl_cons, ih, applyTriple_length, applyTriple_getD, magnitudesAt, List.map_cons, List.sum_cons]
    split <;> omega

theorem bytes_ext {a b : List Byte} (hl : a.length = b.length)
    (h : ∀ pos, pos < a.length → (a.getD pos 0).toNat = (b.getD pos 0).toNat) : a = b := by
  refine List.ext_getElem hl fun n h1 h2 => ?_
  have := h n h1
  rw [List.getD_eq_getElem?_getD, List.getD_eq_getElem?_getD, List.getElem?_eq_getElem h1, List.getElem?_eq_getElem h2] at this
  exact byte_ext this

end Sys2Proof.Machine
end

