-- ==== Sys2Proof/Laws/Decode.lean ====
section
/-! SUPPORT. The laws of the decoder and the encoder of instructions: what a lane decodes is well-formed and encodes to the bytes
read (R88, R90). -/

namespace Sys2Proof

theorem decodeCmd_wf (v : Byte) : (decodeCmd v).wf = true := by
  unfold decodeCmd
  repeat' split
  all_goals first | rfl | (simp only [Instr.wf, decide_eq_true_eq]; exact ⟨by assumption, by assumption, by assumption⟩)

theorem encode_decodeCmd (v : Byte) : encode (decodeCmd v) = some (.cmd, [v]) := by
  unfold decodeCmd
  repeat' split
  all_goals simp_all [encode]

theorem encode_decodeSample (ph : Phase) (p : Pixel) :
    encode (decodeSample ph p) = some (.sample ph, pixelBytes p) ∧ (decodeSample ph p).wf = true := by
  cases ph <;> simp only [decodeSample] <;> split
  · rename_i h; subst h; exact ⟨rfl, rfl⟩
  · rename_i h; exact ⟨rfl, by simpa [Instr.wf] using h⟩
  · rename_i h; exact ⟨by simp [encode, pixelBytes, h], rfl⟩
  · rename_i h; exact ⟨rfl, by simpa [Instr.wf] using h⟩

theorem decodePixel_ok {l : Lane} {p : Pixel} {i : Instr} (h : decodePixel l p = .ok i) :
    i.wf = true ∧ encode i = some (l, pixelBytes p) := by
  obtain ⟨r, g, b, a⟩ := p
  cases l <;> simp only [decodePixel, decodeData, decodeSep, decodeOvf, reduceCtorEq] at h
  · by_cases ha : a = 255
    · rw [if_pos ha] at h; cases h; subst ha; exact ⟨rfl, rfl⟩
    · rw [if_neg ha] at h; cases h
  · by_cases hz : (⟨r, g, b, a⟩ : Pixel) = Pixel.zero
    · rw [if_pos hz] at h; cases h; rw [hz]; exact ⟨rfl, rfl⟩
    · rw [if_neg hz] at h; cases h
  · by_cases ha : a = 255
    · rw [if_pos ha] at h; subst ha
      by_cases h1 : g = Channel.red.code
      · rw [if_pos h1] at h; cases h; subst h1; exact ⟨rfl, rfl⟩
      rw [if_neg h1] at h
      by_cases h2 : g = Channel.green.code
      · rw [if_pos h2] at h; cases h; subst h2; exact ⟨rfl, rfl⟩
      rw [if_neg h2] at h
      by_cases h3 : g = Channel.blue.code
      · rw [if_pos h3] at h; cases h; subst h3; exact ⟨rfl, rfl⟩
      rw [if_neg h3] at h; cases h
    · rw [if_neg ha] at h; cases h
  · simp only [Except.ok.injEq] at h
    subst h
    exact ⟨(encode_decodeSample _ _).2, (encode_decodeSample _ _).1⟩

theorem takePixel_some {bs rest : List Byte} {p : Pixel} (h : takePixel bs = some (p, rest)) :
    bs = pixelBytes p ++ rest := by
  unfold takePixel at h
  split at h
  · simp only [Option.some.injEq, Prod.mk.injEq] at h
    obtain ⟨rfl, rfl⟩ := h; rfl
  · simp at h

end Sys2Proof
end

