-- ==== Sys2Proof/Laws/Layout.lean ====
section
/-! SUPPORT. The laws of the layout planner: CSQRT finds the least root (R136), blocks lie inside the canvas (R140), do not
overlap and tile it (R141). -/

namespace Sys2Proof.Machine

theorem csqrtFrom_spec (t rounds n : Nat) (hfuel : t ≤ (n + rounds) * (n + rounds)) (hlow : ∀ m, m < n → m * m < t) :
    t ≤ csqrtFrom t rounds n * csqrtFrom t rounds n ∧ ∀ m, m < csqrtFrom t rounds n → m * m < t := by
  induction rounds generalizing n with
  | zero => exact ⟨by simpa [csqrtFrom] using hfuel, by simpa [csqrtFrom] using hlow⟩
  | succ r ih =>
    simp only [csqrtFrom]
    split
    · rename_i h; exact ⟨h, hlow⟩
    · rename_i h
      refine ih (n + 1) (by rw [show n + 1 + r = n + (r + 1) by omega]; exact hfuel) fun m hm => ?_
      rcases Nat.lt_succ_iff_lt_or_eq.mp hm with hm | rfl
      · exact hlow m hm
      · omega

/-- CSQRT is the least natural number whose square is at least `t` (R136). -/
theorem ceilSqrt_least (t : Nat) : t ≤ ceilSqrt t * ceilSqrt t ∧ ∀ m, m < ceilSqrt t → m * m < t := by
  refine csqrtFrom_spec t t 0 ?_ (by simp)
  rw [Nat.zero_add]
  exact Nat.le_mul_self t

theorem ceilSqrt_le {t n : Nat} (h : t ≤ n * n) : ceilSqrt t ≤ n := by
  by_contra hn
  have := (ceilSqrt_least t).2 n (by omega)
  omega

theorem ceilSqrt_pos {t : Nat} (h : 1 ≤ t) : 1 ≤ ceilSqrt t := by
  by_contra hn
  have h0 : ceilSqrt t = 0 := by omega
  have := (ceilSqrt_least t).1
  rw [h0] at this
  omega

/-- `N ≤ 32` for every layout of an encode (R6). -/
theorem ceilSqrt_le_nMax {t : Nat} (h : t ≤ Config.totalMax) : ceilSqrt t ≤ Config.nMax := by
  refine ceilSqrt_le (le_trans h ?_)
  decide

/-- Containment (R140): a block of an `n × n` layout ends inside the canvas of side `n × s`. -/
theorem blockArea_inside {k n s : Nat} (h : k < n * n) :
    (blockArea k n s).x0 + s ≤ n * s ∧ (blockArea k n s).y0 + s ≤ n * s := by
  have hn : 0 < n := by
    rcases Nat.eq_zero_or_pos n with h0 | h0
    · subst h0; simp at h
    · exact h0
  have hc : k % n + 1 ≤ n := Nat.mod_lt k hn
  have hr : k / n + 1 ≤ n := Nat.div_lt_of_lt_mul h
  have h1 := Nat.mul_le_mul_right s hc
  have h2 := Nat.mul_le_mul_right s hr
  simp only [Nat.add_mul, Nat.one_mul] at h1 h2
  exact ⟨by simpa [blockArea, blockCol] using h1, by simpa [blockArea, blockRow] using h2⟩

theorem blockArea_contains_iff {k m s x y : Nat} :
    (blockArea k m s).contains x y = true ↔
      k % m * s ≤ x ∧ x < k % m * s + s ∧ k / m * s ≤ y ∧ y < k / m * s + s := by
  simp only [Area.contains, Bool.and_eq_true, decide_eq_true_eq, and_assoc]
  rfl

/-- The block of a pixel (R141): block `k` of `m ≥ 1` columns contains `(x, y)` exactly when the pixel's block coordinates
are those of `k`. -/
theorem blockArea_contains_div {k m s x y : Nat} (hs : 0 < s) :
    (blockArea k m s).contains x y = true ↔ x / s = k % m ∧ y / s = k / m := by
  rw [blockArea_contains_iff]
  have hx : x / s = k % m ↔ k % m * s ≤ x ∧ x < k % m * s + s := by
    rw [Nat.div_eq_iff hs]; omega
  have hy : y / s = k / m ↔ k / m * s ≤ y ∧ y < k / m * s + s := by
    rw [Nat.div_eq_iff hs]; omega
  rw [hx, hy, and_assoc]

/-- Disjointness (R141). -/
theorem blockArea_disjoint {k k' m s x y : Nat} (hs : 0 < s) (h : (blockArea k m s).contains x y = true)
    (h' : (blockArea k' m s).contains x y = true) : k = k' := by
  rw [blockArea_contains_div hs] at h h'
  have h1 : k % m = k' % m := by rw [← h.1, ← h'.1]
  have h2 : k / m = k' / m := by rw [← h.2, ← h'.2]
  rw [← Nat.mod_add_div k m, ← Nat.mod_add_div k' m, h1, h2]

/-- The blocks tile the canvas (R141): each pixel of an `n·s` square is in a block below `n × n`. -/
theorem blockArea_covers {n s x y : Nat} (hx : x < n * s) (hy : y < n * s) :
    ∃ k, k < n * n ∧ (blockArea k n s).contains x y = true := by
  have hs : 0 < s := by
    rcases Nat.eq_zero_or_pos s with h0 | h0
    · subst h0; simp at hx
    · exact h0
  have h1 : x / s < n := Nat.div_lt_of_lt_mul (by rwa [Nat.mul_comm] at hx)
  have h2 : y / s < n := Nat.div_lt_of_lt_mul (by rwa [Nat.mul_comm] at hy)
  refine ⟨y / s * n + x / s, ?_, ?_⟩
  · have : (y / s + 1) * n ≤ n * n := Nat.mul_le_mul_right n h2
    rw [Nat.add_mul, Nat.one_mul] at this
    omega
  · rw [blockArea_contains_div hs]
    constructor
    · rw [Nat.mul_comm, Nat.mul_add_mod, Nat.mod_eq_of_lt h1]
    · rw [Nat.mul_comm, Nat.mul_add_div (lt_of_le_of_lt (Nat.zero_le _) h1), Nat.div_eq_of_lt h1, Nat.add_zero]

/-- A block's origin is the sample address of the decoder and lies in the block (R171). -/
theorem blockArea_contains_origin (k m : Nat) {s : Nat} (hs : 0 < s) :
    (blockArea k m s).contains (blockArea k m s).x0 (blockArea k m s).y0 = true := by
  rw [blockArea_contains_iff]
  simp only [blockArea, blockCol, blockRow]
  omega

/-- Sample addresses lie on the canvas (R171). -/
theorem sample_inside {k cols rows s w h : Nat} (hc : cols = w / s) (hr : rows = h / s) (hs : 0 < s)
    (hk : k < rows * cols) : (blockArea k cols s).x0 < w ∧ (blockArea k cols s).y0 < h := by
  subst hc hr
  have hc0 : 0 < w / s := by
    rcases Nat.eq_zero_or_pos (w / s) with h0 | h0
    · rw [h0] at hk; simp at hk
    · exact h0
  have h1 : k % (w / s) + 1 ≤ w / s := Nat.mod_lt k hc0
  have h2 : k / (w / s) + 1 ≤ h / s := Nat.div_lt_of_lt_mul (by rwa [Nat.mul_comm] at hk)
  have e1 := Nat.mul_le_mul_right s h1
  have e2 := Nat.mul_le_mul_right s h2
  have d1 := Nat.div_mul_le_self w s
  have d2 := Nat.div_mul_le_self h s
  simp only [Nat.add_mul, Nat.one_mul] at e1 e2
  constructor
  · show k % (w / s) * s < w; omega
  · show k / (w / s) * s < h; omega

end Sys2Proof.Machine
end

