-- ==== Sys2Proof/Laws/Encoder.lean ====
section
/-! SUPPORT. The laws of the encoder: what the overflow pass leaves (R121 to R123), what emission of blocks does to the
canvas (R152), and the map of an encoded canvas (R69). -/

namespace Sys2Proof.Machine

/-! ### The overflow pass (step 3 of R150) -/

/-- The colour of a chunk's data block. -/
def chunkColor (base : Rgb) (c : Rgb) : Rgb :=
  ⟨(clampAdd base.r c.r).1, (clampAdd base.g c.g).1, (clampAdd base.b c.b).1⟩

/-- The records of chunks numbered from `i` on, chunk-major (R122). -/
def recordsFrom (base : Rgb) : Nat → List Rgb → List Record
  | _, [] => []
  | i, c :: cs => (ovfRec base (BitVec.ofNat 8 i) c).2 ++ recordsFrom base (i + 1) cs

theorem foldl_overflowStep (base : Rgb) (cs : List Rgb) (q : Seq) :
    cs.foldl (overflowStep base) q =
      { q with i := q.i + cs.length, colors := q.colors ++ cs.map (chunkColor base),
               orb := q.orb ++ recordsFrom base q.i cs } := by
  induction cs generalizing q with
  | nil => simp [recordsFrom]
  | cons c cs ih =>
    rw [List.foldl_cons, ih]
    simp [overflowStep, recordsFrom, ovfRec, chunkColor, Nat.add_comm, Nat.add_left_comm]

/-- What the pass leaves: the colours and the records of all chunks. -/
theorem overflowPass_eq (base : Rgb) (cs : List Rgb) :
    overflowPass base cs =
      { Seq.initial with i := cs.length, colors := cs.map (chunkColor base), orb := recordsFrom base 0 cs } := by
  unfold overflowPass
  rw [foldl_overflowStep]
  simp [Seq.initial]

@[simp] theorem overflowPass_colors (base : Rgb) (cs : List Rgb) :
    (overflowPass base cs).colors = cs.map (chunkColor base) := by rw [overflowPass_eq]

@[simp] theorem overflowPass_orb (base : Rgb) (cs : List Rgb) :
    (overflowPass base cs).orb = recordsFrom base 0 cs := by rw [overflowPass_eq]

theorem laneRecord_length (i : Byte) (ch : Channel) (b d : Byte) : (laneRecord i ch b d).length = laneCount b d := by
  unfold laneRecord laneCount clampAdd
  split <;> split at * <;> simp_all

/-- Counting and emitting agree (R123, R236). -/
theorem recordsFrom_length (base : Rgb) (i : Nat) (cs : List Rgb) :
    (recordsFrom base i cs).length = countOverflow base cs := by
  induction cs generalizing i with
  | nil => rfl
  | cons c cs ih => simp [recordsFrom, countOverflow, ovfRec, laneRecord_length, ih, Nat.add_assoc]

theorem countOverflow_le (base : Rgb) (cs : List Rgb) : countOverflow base cs ≤ 3 * cs.length := by
  induction cs with
  | nil => simp [countOverflow]
  | cons c cs ih =>
    have h : ∀ b d : Byte, laneCount b d ≤ 1 := fun b d => by unfold laneCount; split <;> omega
    have := h base.r c.r; have := h base.g c.g; have := h base.b c.b
    simp only [countOverflow, List.length_cons]; omega

/-- The size of a layout: at most 1021 blocks for at most 255 chunks (R6). -/
theorem passTotal_eq (base : Rgb) (cs : List Rgb) :
    passTotal (overflowPass base cs) = cs.length + countOverflow base cs + 1 := by
  simp [passTotal, totalBlocks, recordsFrom_length]

theorem passTotal_le {base : Rgb} {cs : List Rgb} (h : cs.length ≤ Config.chunkMax) :
    passTotal (overflowPass base cs) ≤ Config.totalMax := by
  have := countOverflow_le base cs
  rw [passTotal_eq]
  simp only [Config.chunkMax] at h
  simp only [Config.totalMax]
  omega

/-! ### Emission of blocks (R152) -/

@[simp] theorem emitBlocks_nil (size : Nat) (z : Zone) (x : Seq × Canvas) : emitBlocks size z [] x = x := rfl

theorem emitBlocks_cons (size : Nat) (z : Zone) (p : Pixel) (ps : List Pixel) (x : Seq × Canvas) :
    emitBlocks size z (p :: ps) x = emitBlocks size z ps (emitBlock size z x p) := rfl

@[simp] theorem advance_k (z : Zone) (q : Seq) : (advance z q).k = q.k + 1 := by cases z <;> rfl
@[simp] theorem advance_cols (z : Zone) (q : Seq) : (advance z q).cols = q.cols := by cases z <;> rfl

/-- The block index after emission (R22). -/
@[simp] theorem emitBlocks_k (size : Nat) (z : Zone) (ps : List Pixel) (x : Seq × Canvas) :
    (emitBlocks size z ps x).1.k = x.1.k + ps.length := by
  induction ps generalizing x with
  | nil => rfl
  | cons p ps ih => rw [emitBlocks_cons, ih]; simp [emitBlock]; omega

@[simp] theorem emitBlocks_cols (size : Nat) (z : Zone) (ps : List Pixel) (x : Seq × Canvas) :
    (emitBlocks size z ps x).1.cols = x.1.cols := by
  induction ps generalizing x with
  | nil => rfl
  | cons p ps ih => rw [emitBlocks_cons, ih]; simp [emitBlock]

@[simp] theorem emitBlocks_cw (size : Nat) (z : Zone) (ps : List Pixel) (x : Seq × Canvas) :
    (emitBlocks size z ps x).2.cw = x.2.cw := by
  induction ps generalizing x with
  | nil => rfl
  | cons p ps ih => rw [emitBlocks_cons, ih]; simp [emitBlock]

@[simp] theorem emitBlocks_ch (size : Nat) (z : Zone) (ps : List Pixel) (x : Seq × Canvas) :
    (emitBlocks size z ps x).2.ch = x.2.ch := by
  induction ps generalizing x with
  | nil => rfl
  | cons p ps ih => rw [emitBlocks_cons, ih]; simp [emitBlock]

theorem emitBlocks_rising {size : Nat} {z : Zone} {ps : List Pixel} {x : Seq × Canvas}
    (hr : risingFrom 0 x.2.cells = true) : risingFrom 0 (emitBlocks size z ps x).2.cells = true := by
  induction ps generalizing x with
  | nil => exact hr
  | cons p ps ih => rw [emitBlocks_cons]; exact ih (Canvas.fill_rising hr _ _)

/-- The block that a pixel left of the last column belongs to. -/
theorem contains_iff_index {k m size u v : Nat} (hs : 0 < size) (hu : u < m * size) :
    (blockArea k m size).contains u v = true ↔ v / size * m + u / size = k := by
  have h1 : u / size < m := Nat.div_lt_of_lt_mul (by rwa [Nat.mul_comm] at hu)
  rw [blockArea_contains_div hs]
  constructor
  · rintro ⟨h, h'⟩
    rw [h, h', Nat.mul_comm]
    exact Nat.div_add_mod k m
  · rintro rfl
    rw [Nat.mul_comm]
    constructor
    · rw [Nat.mul_add_mod, Nat.mod_eq_of_lt h1]
    · rw [Nat.mul_add_div (lt_of_le_of_lt (Nat.zero_le _) h1), Nat.div_eq_of_lt h1, Nat.add_zero]

theorem blockArea_right {k m size : Nat} (hm : 0 < m) : (blockArea k m size).x0 + (blockArea k m size).size ≤ m * size := by
  have hc : k % m + 1 ≤ m := Nat.mod_lt k hm
  have := Nat.mul_le_mul_right size hc
  simp only [Nat.add_mul, Nat.one_mul] at this
  exact this

/-- What emission leaves at a pixel: the pixel of its block, if that was emitted, else what was there. -/
theorem emitBlocks_pixelAt {size m : Nat} {z : Zone} {ps : List Pixel} {x : Seq × Canvas} {u v : Nat}
    (hs : 0 < size) (hm : x.1.cols = m) (hu : u < m * size) (hw : m * size ≤ 4294967296)
    (hr : risingFrom 0 x.2.cells = true) :
    (emitBlocks size z ps x).2.pixelAt u v =
      if x.1.k ≤ v / size * m + u / size ∧ v / size * m + u / size < x.1.k + ps.length
      then ps.getD (v / size * m + u / size - x.1.k) Pixel.zero
      else x.2.pixelAt u v := by
  have hm0 : 0 < m := by
    rcases Nat.eq_zero_or_pos m with h0 | h0
    · subst h0; simp at hu
    · exact h0
  induction ps generalizing x with
  | nil => simp only [emitBlocks_nil, List.length_nil]; rw [if_neg (by omega)]
  | cons p ps ih =>
    rw [emitBlocks_cons, ih (x := emitBlock size z x p) (by simpa [emitBlock] using hm) (Canvas.fill_rising hr _ _)]
    have hfill : (emitBlock size z x p).2.pixelAt u v =
        if v / size * m + u / size = x.1.k then p else x.2.pixelAt u v := by
      show (x.2.fill (blockArea x.1.k x.1.cols size) p).pixelAt u v = _
      rw [hm, Canvas.pixelAt_fill hr (le_trans (blockArea_right hm0) hw) (lt_of_lt_of_le hu hw)]
      simp only [contains_iff_index hs hu]
    have hk : (emitBlock size z x p).1.k = x.1.k + 1 := by simp [emitBlock]
    rw [hfill, hk, List.length_cons]
    generalize v / size * m + u / size = n
    by_cases h1 : n = x.1.k
    · rw [if_neg (by omega), if_pos h1, if_pos (by omega), h1, Nat.sub_self]; rfl
    · by_cases h2 : x.1.k + 1 ≤ n ∧ n < x.1.k + 1 + ps.length
      · rw [if_pos h2, if_pos (by omega), show n - x.1.k = (n - (x.1.k + 1)) + 1 by omega]; rfl
      · rw [if_neg h2, if_neg h1, if_neg (by omega)]

/-- Emission of blocks that exist on the canvas keeps its canonical form. -/
theorem emitBlocks_wf {size n : Nat} {z : Zone} {ps : List Pixel} {x : Seq × Canvas} (hn : x.1.cols = n)
    (hk : x.1.k + ps.length ≤ n * n) (hw : x.2.cw.toNat = n * size) (hh : x.2.ch.toNat = n * size)
    (h : x.2.wf = true) : (emitBlocks size z ps x).2.wf = true := by
  induction ps generalizing x with
  | nil => exact h
  | cons p ps ih =>
    rw [List.length_cons] at hk
    have hin := blockArea_inside (k := x.1.k) (n := n) (s := size) (by omega)
    rw [emitBlocks_cons]
    refine ih (by simpa [emitBlock] using hn) (by simp only [emitBlock, advance_k]; omega) (by simpa [emitBlock] using hw)
      (by simpa [emitBlock] using hh) ?_
    refine Canvas.fill_wf h ?_ p
    simp only [Canvas.covers, hn, Bool.or_eq_true, Bool.and_eq_true, decide_eq_true_eq]
    exact .inr ⟨by rw [hw]; exact hin.1, by rw [hh]; exact hin.2⟩

/-! ### The encoded canvas (R69) -/

/-- The pixels of the blocks in block order: data, separator, records. -/
def blockPixels (q : Seq) : List Pixel := q.colors.map dataPixel ++ [Pixel.zero] ++ q.orb.map recPack

@[simp] theorem blockPixels_length (q : Seq) : (blockPixels q).length = passTotal q := by
  simp [blockPixels, passTotal, totalBlocks]; omega

/-- Emission does not depend on the zone but for the loop counters. -/
theorem emitBlocks_zone (size : Nat) (z z' : Zone) (ps : List Pixel) (q q' : Seq) (c : Canvas) (hk : q.k = q'.k)
    (hc : q.cols = q'.cols) : (emitBlocks size z ps (q, c)).2 = (emitBlocks size z' ps (q', c)).2 := by
  induction ps generalizing q q' c with
  | nil => rfl
  | cons p ps ih =>
    rw [emitBlocks_cons, emitBlocks_cons]
    simp only [emitBlock, hk, hc]
    exact ih _ _ _ (by simp [hk]) (by simp [hc])

/-- The sequencer state in which step 5 begins. -/
def sizedSeq (q : Seq) : Seq :=
  { q with k := 0, i := 0, j := 0, cols := ceilSqrt (passTotal q), rows := ceilSqrt (passTotal q) }

/-- The canvas that step 4 makes. -/
def sizedCanvas (q : Seq) (size : Nat) : Canvas :=
  Canvas.new (BitVec.ofNat 32 (sideOf (ceilSqrt (passTotal q)) size)) (BitVec.ofNat 32 (sideOf (ceilSqrt (passTotal q)) size))

/-- Steps 5 to 7 are one emission of all blocks in order. -/
theorem paint_eq (q : Seq) (size : Nat) :
    (paint q size).2 = (emitBlocks size .data (blockPixels q) (sizedSeq q, sizedCanvas q size)).2 := by
  have happ : ∀ (a b : List Pixel) (x : Seq × Canvas),
      emitBlocks size .data (a ++ b) x = emitBlocks size .data b (emitBlocks size .data a x) := fun a b x => by
    simp [emitBlocks, List.foldl_append]
  rw [blockPixels, happ, happ]
  show (emitBlocks size .ovf (q.orb.map recPack)
      (emitBlocks size .sep [Pixel.zero] (emitBlocks size .data (q.colors.map dataPixel) (sizedSeq q, sizedCanvas q size)))).2 = _
  generalize emitBlocks size .data (q.colors.map dataPixel) (sizedSeq q, sizedCanvas q size) = x
  exact emitBlocks_zone size .ovf .data _ _ _ _ rfl rfl

@[simp] theorem paint_cw (q : Seq) (size : Nat) :
    (paint q size).2.cw = BitVec.ofNat 32 (sideOf (ceilSqrt (passTotal q)) size) := by simp [paint_eq, sizedCanvas]

@[simp] theorem paint_ch (q : Seq) (size : Nat) :
    (paint q size).2.ch = BitVec.ofNat 32 (sideOf (ceilSqrt (passTotal q)) size) := by simp [paint_eq, sizedCanvas]

/-- The map of an encoded canvas (R69): a pixel holds what its block holds, unused blocks `DEFAULT_PIXEL`. -/
theorem paint_pixelAt {q : Seq} {size u v : Nat} (hs : 0 < size)
    (hu : u < ceilSqrt (passTotal q) * size) (hw : ceilSqrt (passTotal q) * size < 4294967296) :
    (paint q size).2.pixelAt u v =
      (blockPixels q).getD (v / size * ceilSqrt (passTotal q) + u / size) Pixel.zero := by
  rw [paint_eq, emitBlocks_pixelAt (m := ceilSqrt (passTotal q)) hs rfl hu (Nat.le_of_lt hw) rfl]
  generalize v / size * ceilSqrt (passTotal q) + u / size = n
  have h0 : (sizedSeq q).k = 0 := rfl
  simp only [h0, Nat.zero_le, true_and, Nat.zero_add, Nat.sub_zero]
  split
  · rfl
  · rename_i h
    rw [List.getD_eq_getElem?_getD, List.getElem?_eq_none (by omega)]
    rfl

/-- The encoded canvas is in canonical form: every block lies on it (R140). -/
theorem paint_wf {q : Seq} {size : Nat} (hw : ceilSqrt (passTotal q) * size < 4294967296) : (paint q size).2.wf = true := by
  have hside : (BitVec.ofNat 32 (sideOf (ceilSqrt (passTotal q)) size)).toNat = ceilSqrt (passTotal q) * size := by
    simp only [sideOf, BitVec.toNat_ofNat]; omega
  rw [paint_eq]
  refine emitBlocks_wf (n := ceilSqrt (passTotal q)) rfl ?_ hside hside (Canvas.new_wf _ _)
  have := (ceilSqrt_least (passTotal q)).1
  simpa [sizedSeq] using this

end Sys2Proof.Machine
end

