-- ==== Sys2Proof/Laws/Decoder.lean ====
section
/-! SUPPORT. The laws of the decoder: the scan as a fold over the sampled pixels, what it makes of the blocks of an encode
(R182), and the recovery of the input (R127, R185). -/

namespace Sys2Proof.Machine

/-! ### The scan as a fold -/

/-- The state machine of R182 over a sequence of sampled pixels. -/
def scanList (cap : Option Nat) (base : Rgb) : List Pixel → Seq → Option Seq
  | [], q => some q
  | p :: ps, q =>
    match scanStep cap base p q with
    | some q' => scanList cap base ps q'
    | none => none

theorem scanList_append (cap : Option Nat) (base : Rgb) (a b : List Pixel) (q : Seq) :
    scanList cap base (a ++ b) q = (scanList cap base a q).bind (scanList cap base b) := by
  induction a generalizing q with
  | nil => rfl
  | cons p ps ih =>
    simp only [List.cons_append, scanList]
    cases scanStep cap base p q with
    | none => rfl
    | some q' => exact ih q'

/-- One block of the scan: the next index, the same geometry, and a legal sequencer state again. -/
theorem scanStep_some {cap : Option Nat} {base : Rgb} {p : Pixel} {q q' : Seq} (h : scanStep cap base p q = some q') :
    q'.k = q.k + 1 ∧ q'.cols = q.cols ∧ q'.rows = q.rows := by
  unfold scanStep at h
  split at h
  · simp only [Option.some.injEq] at h; subst h; exact ⟨rfl, rfl, rfl⟩
  · unfold stepData at h
    split at h
    · simp only [Option.some.injEq] at h; subst h; exact ⟨rfl, rfl, rfl⟩
    · exact absurd h (by simp)
  · simp only [Option.some.injEq] at h; subst h; exact ⟨rfl, rfl, rfl⟩
  · simp only [Option.some.injEq] at h; subst h; exact ⟨rfl, rfl, rfl⟩

/-- The sampled pixels of `n` blocks from `k` on (R171). -/
def samples (c : Canvas) (cols size k n : Nat) : List Pixel :=
  (List.range' k n).map fun j => samplePixel c j cols size

@[simp] theorem samples_zero (c : Canvas) (cols size k : Nat) : samples c cols size k 0 = [] := rfl

theorem samples_succ (c : Canvas) (cols size k n : Nat) :
    samples c cols size k (n + 1) = samplePixel c k cols size :: samples c cols size (k + 1) n := by
  simp [samples, List.range'_succ]

@[simp] theorem samples_length (c : Canvas) (cols size k n : Nat) : (samples c cols size k n).length = n := by
  simp [samples]

theorem scanBlocks_eq (cap : Option Nat) (base : Rgb) (c : Canvas) (size n : Nat) (q : Seq) :
    scanBlocks cap base c size n q = scanList cap base (samples c q.cols size q.k n) q := by
  induction n generalizing q with
  | zero => rfl
  | succ n ih =>
    rw [samples_succ]
    simp only [scanBlocks, scanList]
    cases h : scanStep cap base (samplePixel c q.k q.cols size) q with
    | none => rfl
    | some q' =>
      obtain ⟨hk, hc, -⟩ := scanStep_some h
      simp only [ih, hk, hc]

/-- The scan of DECODE over its sampled pixels. -/
theorem scanCanvas_eq (cap : Option Nat) (base : Rgb) (c : Canvas) (size : Nat) :
    scanCanvas cap base c size =
      scanList cap base (samples c (c.cw.toNat / size) size 0 (c.ch.toNat / size * (c.cw.toNat / size)))
        (scanStart c size) := by
  unfold scanCanvas
  rw [scanBlocks_eq]
  rfl

/-! ### What a scan leaves legal (R112, R175) -/

theorem seqLegal_iff (cap : Option Nat) (q : Seq) :
    seqLegal cap q = true ↔ q.buf.length % 3 = 0 ∧ withinObuf cap q.buf.length = true ∧ q.out.length ≤ q.buf.length ∧
      (q.recs = [] ∨ q.phase = .collectingOverflow) := by
  simp only [seqLegal, Bool.and_eq_true, Bool.or_eq_true, decide_eq_true_eq, and_assoc]

theorem seqLegal_initial (cap : Option Nat) : seqLegal cap Seq.initial = true := by
  rw [seqLegal_iff]
  refine ⟨rfl, ?_, by simp [Seq.initial], .inl rfl⟩
  cases cap with
  | none => rfl
  | some n => simp [withinObuf, Seq.initial]

/-- `unpackBytes` says what it can do: three bytes longer and within `OBUF_CAP`, or an overrun. -/
theorem unpackBytes_some {cap : Option Nat} {buf buf' : List Byte} {d : Rgb} (h : unpackBytes cap buf d = some buf') :
    buf' = buf ++ rgbBytes d ∧ withinObuf cap (buf.length + 3) = true := by
  unfold unpackBytes at h
  split at h
  · rename_i hw
    simp only [Option.some.injEq] at h
    exact ⟨h.symm, hw⟩
  · exact absurd h (by simp)

theorem unpackBytes_within {cap : Option Nat} {buf : List Byte} (d : Rgb) (h : withinObuf cap (buf.length + 3) = true) :
    unpackBytes cap buf d = some (buf ++ rgbBytes d) := by simp [unpackBytes, h]

/-- `stepData` says what it can do. -/
theorem stepData_some {cap : Option Nat} {base : Rgb} {p : Pixel} {q q' : Seq} (h : stepData cap base p q = some q') :
    q' = { q with buf := q.buf ++ rgbBytes (diffRgb base p), k := q.k + 1 } ∧
      withinObuf cap (q.buf.length + 3) = true := by
  unfold stepData at h
  split at h
  · rename_i buf hb
    obtain ⟨hbuf, hw⟩ := unpackBytes_some hb
    simp only [Option.some.injEq] at h
    exact ⟨by rw [← h, hbuf], hw⟩
  · exact absurd h (by simp)

theorem classify_data {ph : Phase} {p : Pixel} (h : classify ph p = .data) : ph = .collectingData := by
  cases ph with
  | collectingData => rfl
  | collectingOverflow => simp only [classify] at h; split at h <;> exact absurd h (by simp)

theorem classify_record {ph : Phase} {p : Pixel} (h : classify ph p = .record) : ph = .collectingOverflow := by
  cases ph with
  | collectingOverflow => rfl
  | collectingData => simp only [classify] at h; split at h <;> exact absurd h (by simp)

/-- Each block of a scan keeps the sequencer state legal. -/
theorem scanStep_legal {cap : Option Nat} {base : Rgb} {p : Pixel} {q q' : Seq} (h : scanStep cap base p q = some q')
    (hq : seqLegal cap q = true) : seqLegal cap q' = true := by
  rw [seqLegal_iff] at hq ⊢
  obtain ⟨h3, hw, ho, hr⟩ := hq
  unfold scanStep at h
  split at h
  · simp only [Option.some.injEq] at h; subst h; exact ⟨h3, hw, ho, .inr rfl⟩
  · obtain ⟨rfl, hw'⟩ := stepData_some h
    refine ⟨?_, ?_, ?_, hr⟩
    · simp [rgbBytes]; omega
    · simpa [rgbBytes] using hw'
    · simp [rgbBytes]; omega
  · simp only [Option.some.injEq] at h; subst h; exact ⟨h3, hw, ho, hr⟩
  · rename_i hc
    simp only [Option.some.injEq] at h; subst h
    exact ⟨h3, hw, ho, .inr (classify_record hc)⟩

theorem scanList_legal {cap : Option Nat} {base : Rgb} {ps : List Pixel} {q q' : Seq}
    (h : scanList cap base ps q = some q') (hq : seqLegal cap q = true) : seqLegal cap q' = true := by
  induction ps generalizing q with
  | nil => simp only [scanList, Option.some.injEq] at h; subst h; exact hq
  | cons p ps ih =>
    simp only [scanList] at h
    split at h
    · rename_i q1 h1; exact ih h (scanStep_legal h1 hq)
    · exact absurd h (by simp)

/-! ### The scan of an encode's blocks -/

@[simp] theorem isSep_iff (p : Pixel) : isSep p = true ↔ p = Pixel.zero := by
  cases p
  simp [isSep, Pixel.zero, and_assoc]

theorem classify_dataPixel (c : Rgb) : classify .collectingData (dataPixel c) = .data := by
  have : ¬ isSep (dataPixel c) = true := by
    rw [isSep_iff]; intro h; exact absurd (congrArg Pixel.a h) (by simp [dataPixel, Pixel.zero])
  simp [classify, this]

theorem classify_recPack (r : Record) : classify .collectingOverflow (recPack r) = .record := by
  simp [classify, recPack]

/-- Data blocks append their differences (R173). -/
theorem scanList_data {cap : Option Nat} {base : Rgb} (cs : List Rgb) {q : Seq} (hp : q.phase = .collectingData)
    (hw : withinObuf cap (q.buf.length + 3 * cs.length) = true) :
    scanList cap base (cs.map dataPixel) q =
      some { q with buf := q.buf ++ cs.flatMap (fun c => rgbBytes (diffRgb base (dataPixel c))),
                    k := q.k + cs.length } := by
  induction cs generalizing q with
  | nil => simp [scanList]
  | cons c cs ih =>
    have hc : classify q.phase (dataPixel c) = .data := by rw [hp]; exact classify_dataPixel c
    rw [List.length_cons] at hw
    have hw1 : withinObuf cap (q.buf.length + 3) = true := withinObuf_mono (by omega) hw
    have hstep : scanStep cap base (dataPixel c) q =
        some { q with buf := q.buf ++ rgbBytes (diffRgb base (dataPixel c)), k := q.k + 1 } := by
      simp [scanStep, hc, stepData, unpackBytes_within _ hw1]
    simp only [List.map_cons, scanList, hstep]
    rw [ih (q := { q with buf := q.buf ++ rgbBytes (diffRgb base (dataPixel c)), k := q.k + 1 }) hp
      (by simp only [List.length_append, rgbBytes, List.length_cons, List.length_nil]
          exact withinObuf_mono (by omega) hw)]
    simp [List.flatMap_cons, Nat.add_comm, Nat.add_left_comm]

/-- Overflow blocks collect their triples (R175). -/
theorem scanList_records {cap : Option Nat} {base : Rgb} (rs : List Record) {q : Seq} (hp : q.phase = .collectingOverflow) :
    scanList cap base (rs.map recPack) q =
      some { q with recs := q.recs ++ rs.map (fun r => recUnpack (recPack r)), k := q.k + rs.length } := by
  induction rs generalizing q with
  | nil => simp [scanList]
  | cons r rs ih =>
    have hc : classify q.phase (recPack r) = .record := by rw [hp]; exact classify_recPack r
    have hstep : scanStep cap base (recPack r) q = some (stepRecord (recPack r) q) := by simp [scanStep, hc]
    simp only [List.map_cons, scanList, hstep]
    rw [ih (q := stepRecord (recPack r) q) hp]
    simp [stepRecord, Nat.add_comm, Nat.add_left_comm]

/-- Unused blocks after the separator are skipped (R86, R175). -/
theorem scanList_unused {cap : Option Nat} {base : Rgb} (n : Nat) {q : Seq} (hp : q.phase = .collectingOverflow) :
    scanList cap base (List.replicate n Pixel.zero) q = some { q with k := q.k + n } := by
  induction n generalizing q with
  | zero => rfl
  | succ n ih =>
    have hc : classify q.phase Pixel.zero = .skip := by rw [hp]; rfl
    have hstep : scanStep cap base Pixel.zero q = some (stepSkip q) := by simp [scanStep, hc]
    simp only [List.replicate_succ, scanList, hstep]
    rw [ih (q := stepSkip q) hp]
    simp [stepSkip, Nat.add_comm, Nat.add_left_comm]

/-- The scan of an encode's blocks: data, separator, records, unused blocks. -/
theorem scanList_blockPixels {cap : Option Nat} {base : Rgb} (e : Seq) (unused : Nat) {q : Seq}
    (hp : q.phase = .collectingData) (hw : withinObuf cap (q.buf.length + 3 * e.colors.length) = true) :
    scanList cap base (blockPixels e ++ List.replicate unused Pixel.zero) q =
      some { q with phase := .collectingOverflow
                    buf := q.buf ++ e.colors.flatMap (fun c => rgbBytes (diffRgb base (dataPixel c)))
                    recs := q.recs ++ e.orb.map (fun r => recUnpack (recPack r))
                    k := q.k + passTotal e + unused } := by
  rw [blockPixels, List.append_assoc, List.append_assoc, scanList_append, scanList_data e.colors hp hw, Option.bind_some,
    scanList_append]
  have hsep : ∀ q1 : Seq, q1.phase = .collectingData → scanList cap base [Pixel.zero] q1 = some (stepSep q1) :=
    fun q1 h1 => by
      have hc : classify q1.phase Pixel.zero = .sep := by rw [h1]; rfl
      simp [scanList, scanStep, hc]
  rw [hsep { q with buf := q.buf ++ e.colors.flatMap (fun c => rgbBytes (diffRgb base (dataPixel c))),
                    k := q.k + e.colors.length } hp, Option.bind_some, scanList_append, scanList_records e.orb rfl, Option.bind_some,
    scanList_unused unused rfl]
  simp [stepSep, passTotal, totalBlocks, Nat.add_assoc, Nat.add_comm, Nat.add_left_comm]

/-! ### Recovery of the input (R127) -/

/-- What a lane lost to clamping. -/
def laneExcess (b d : Byte) : Nat := b.toNat + d.toNat - 255

theorem magnitudesAt_append (pos len : Nat) (a b : List Triple) :
    magnitudesAt pos len (a ++ b) = magnitudesAt pos len a + magnitudesAt pos len b := by
  simp [magnitudesAt]

/-- The triples the decoder reads from the encoder's records. -/
def asTriples (rs : List Record) : List Triple := rs.map fun r => recUnpack (recPack r)

@[simp] theorem asTriples_append (a b : List Record) : asTriples (a ++ b) = asTriples a ++ asTriples b := by
  simp [asTriples]

/-- The offset of a channel in a chunk. -/
def channelOffset : Channel → Nat
  | .red => 0
  | .green => 1
  | .blue => 2

theorem triplePos_record (i : Byte) (ch : Channel) (m : Byte) :
    triplePos (recUnpack (recPack ⟨i, ch, m⟩)) = some (i.toNat * 3 + channelOffset ch) := by
  cases ch <;> simp [triplePos, recUnpack, recPack, Channel.code, channelOffset]

/-- A lane's record addresses the lane's byte with what it lost. -/
theorem magnitudesAt_laneRecord (pos len : Nat) (i : Byte) (ch : Channel) (b d : Byte) :
    magnitudesAt pos len (asTriples (laneRecord i ch b d)) =
      if i.toNat * 3 + channelOffset ch = pos ∧ pos < len then laneExcess b d else 0 := by
  by_cases h : 255 < b.toNat + d.toNat
  · obtain ⟨m, hm, hv⟩ := clampAdd_some h
    have hl : laneRecord i ch b d = [⟨i, ch, m⟩] := by simp [laneRecord, hm]
    have hmag : m.toNat = laneExcess b d := by unfold laneExcess; exact hv
    rw [hl]
    generalize laneExcess b d = e at hmag ⊢
    subst hmag
    simp only [asTriples, List.map_cons, List.map_nil, magnitudesAt, List.sum_cons, List.sum_nil, Nat.add_zero,
      triplePos_record, Option.some.injEq]
    rfl
  · have hl : laneRecord i ch b d = [] := by simp [laneRecord, clampAdd_none (Nat.not_lt.mp h)]
    have he : laneExcess b d = 0 := by unfold laneExcess; omega
    rw [hl, he]
    simp [asTriples, magnitudesAt]

theorem magnitudesAt_chunk (base : Rgb) (pos len : Nat) (i : Byte) (c : Rgb) :
    magnitudesAt pos len (asTriples (ovfRec base i c).2) =
      (if i.toNat * 3 = pos ∧ pos < len then laneExcess base.r c.r else 0) +
      (if i.toNat * 3 + 1 = pos ∧ pos < len then laneExcess base.g c.g else 0) +
      (if i.toNat * 3 + 2 = pos ∧ pos < len then laneExcess base.b c.b else 0) := by
  simp only [ovfRec, asTriples_append, magnitudesAt_append, magnitudesAt_laneRecord, channelOffset, Nat.add_zero]
  rfl

/-- Records of later chunks address no earlier position. -/
theorem magnitudesAt_before {base : Rgb} {cs : List Rgb} {i pos : Nat} (len : Nat) (hi : i + cs.length ≤ 256)
    (hpos : pos < 3 * i) : magnitudesAt pos len (asTriples (recordsFrom base i cs)) = 0 := by
  induction cs generalizing i with
  | nil => rfl
  | cons c cs ih =>
    rw [List.length_cons] at hi
    have hb : (BitVec.ofNat 8 i).toNat = i := by simp only [BitVec.toNat_ofNat]; omega
    rw [recordsFrom, asTriples_append, magnitudesAt_append, magnitudesAt_chunk, ih (by omega) (by omega), hb]
    rw [if_neg (by omega), if_neg (by omega), if_neg (by omega)]

/-- One byte of the data buffer before and after correction (R127). -/
theorem lane_recovered (b d : Byte) : min 255 ((satSub (clampAdd b d).1 b).toNat + laneExcess b d) = d.toNat := by
  rw [satSub_clampAdd]
  unfold laneExcess
  have := b.isLt; have := d.isLt
  omega

/-- The differences of the data blocks and the magnitudes of the records give back every byte. -/
theorem chunks_recovered (base : Rgb) (cs : List Rgb) (i len pos : Nat) (hi : i + cs.length ≤ 256)
    (hpos : pos < 3 * cs.length) (hlen : 3 * i + pos < len) :
    min 255 ((((cs.map (chunkColor base)).flatMap fun c => rgbBytes (diffRgb base (dataPixel c))).getD pos 0).toNat +
        magnitudesAt (3 * i + pos) len (asTriples (recordsFrom base i cs))) =
      ((cs.flatMap rgbBytes).getD pos 0).toNat := by
  induction cs generalizing i pos with
  | nil => simp at hpos
  | cons c cs ih =>
    rw [List.length_cons] at hi hpos
    have hb : (BitVec.ofNat 8 i).toNat = i := by simp only [BitVec.toNat_ofNat]; omega
    rw [recordsFrom, asTriples_append, magnitudesAt_append, magnitudesAt_chunk, hb]
    have hlater : pos < 3 → magnitudesAt (3 * i + pos) len (asTriples (recordsFrom base (i + 1) cs)) = 0 := fun h =>
      magnitudesAt_before len (by omega) (by omega)
    match pos, hpos, hlen, hlater with
    | 0, _, hlen, hlater =>
      rw [hlater (by omega), if_pos (by omega), if_neg (by omega), if_neg (by omega)]
      simpa [rgbBytes, diffRgb, dataPixel, chunkColor] using lane_recovered base.r c.r
    | 1, _, hlen, hlater =>
      rw [hlater (by omega), if_neg (by omega), if_pos (by omega), if_neg (by omega)]
      simpa [rgbBytes, diffRgb, dataPixel, chunkColor] using lane_recovered base.g c.g
    | 2, _, hlen, hlater =>
      rw [hlater (by omega), if_neg (by omega), if_neg (by omega), if_pos (by omega)]
      simpa [rgbBytes, diffRgb, dataPixel, chunkColor] using lane_recovered base.b c.b
    | p + 3, hpos, hlen, _ =>
      rw [if_neg (by omega), if_neg (by omega), if_neg (by omega)]
      have := ih (i + 1) p (by omega) (by omega) (by omega)
      rw [show 3 * (i + 1) + p = 3 * i + (p + 3) by omega] at this
      simpa [rgbBytes] using this

/-- After correction the data buffer is the chunks' bytes (R127, R185). -/
theorem corrected_chunks (base : Rgb) (cs : List Rgb) (h : cs.length ≤ 255) :
    (asTriples (recordsFrom base 0 cs)).foldl applyTriple
        ((cs.map (chunkColor base)).flatMap fun c => rgbBytes (diffRgb base (dataPixel c))) =
      cs.flatMap rgbBytes := by
  have hlen : ((cs.map (chunkColor base)).flatMap fun c => rgbBytes (diffRgb base (dataPixel c))).length = 3 * cs.length := by
    induction cs with
    | nil => rfl
    | cons c cs ih =>
      rw [List.length_cons] at h
      rw [List.map_cons, List.flatMap_cons, List.length_append, ih (by omega)]
      simp [rgbBytes]; omega
  refine bytes_ext (by rw [foldl_applyTriple_length, hlen, flatMap_rgbBytes_length]) fun pos hp => ?_
  rw [foldl_applyTriple_length, hlen] at hp
  rw [foldl_applyTriple_getD, hlen]
  have := chunks_recovered base cs 0 (3 * cs.length) pos (by omega) hp (by omega)
  simpa using this

end Sys2Proof.Machine
end

