-- ==== Sys2Proof/Laws/Exec.lean ====
section
/-! SUPPORT. One lemma per shared operation that says everything it can do: the checks of ENCODE and PLAN, the commands' ends,
the operations run alone, the dispatch of a move, and that each keeps the memories' canonical form. -/

namespace Sys2Proof.Machine

/-! ### The checks of a command (R151, R209) -/

theorem badPixelSize_iff (s : State) :
    badPixelSize s = true ↔ s.pixelSize.toNat = 0 ∨ s.cfg.pixelSizeMax < s.pixelSize.toNat := by
  simp [badPixelSize]

theorem pixelSize_usable {s : State} (h : badPixelSize s = false) :
    0 < s.pixelSize.toNat ∧ s.pixelSize.toNat ≤ s.cfg.pixelSizeMax := by
  have : ¬ badPixelSize s = true := by simp [h]
  rw [badPixelSize_iff] at this
  omega

theorem withInput_long {s : State} (go : List Byte → Answer) (h : 765 < s.ilen.toNat) :
    withInput s go = .next (raise .inputTooLarge s) := by simp only [withInput, Config.inMax]; rw [if_pos h]

theorem withInput_badSize {s : State} (go : List Byte → Answer) (h : s.ilen.toNat ≤ 765) (hb : badPixelSize s = true) :
    withInput s go = .next (raise .invalidPixelSize s) := by
  simp only [withInput, Config.inMax]; rw [if_neg (by omega), if_pos hb]

theorem withInput_unwritten {s : State} (go : List Byte → Answer) (h : s.ilen.toNat ≤ 765) (hb : badPixelSize s = false)
    (hr : readInput s.ibuf 0 s.ilen.toNat = none) : withInput s go = .refused .ibufUnwritten := by
  simp only [withInput, Config.inMax]; rw [if_neg (by omega), hb, hr]; simp

theorem withInput_ok {s : State} {input : List Byte} (go : List Byte → Answer) (h : s.hasInput input) :
    withInput s go = go input := by
  obtain ⟨hl, hb, hr⟩ := h
  simp only [withInput]; rw [if_neg (by omega), hb, hr]; simp

/-- Everything the checks of ENCODE and PLAN can do. -/
theorem withInput_cases (s : State) :
    (765 < s.ilen.toNat ∧ ∀ go, withInput s go = .next (raise .inputTooLarge s)) ∨
    (badPixelSize s = true ∧ ∀ go, withInput s go = .next (raise .invalidPixelSize s)) ∨
    (∀ go, withInput s go = .refused .ibufUnwritten) ∨ ∃ input, s.hasInput input := by
  by_cases h : 765 < s.ilen.toNat
  · exact .inl ⟨h, fun go => withInput_long go h⟩
  by_cases hb : badPixelSize s = true
  · exact .inr (.inl ⟨hb, fun go => withInput_badSize go (by omega) hb⟩)
  cases hr : readInput s.ibuf 0 s.ilen.toNat with
  | none => exact .inr (.inr (.inl fun go => withInput_unwritten go (by omega) (by simpa using hb) hr))
  | some input => exact .inr (.inr (.inr ⟨input, by simp only [Config.inMax]; omega, by simpa using hb, hr⟩))

theorem hasInput_length {s : State} {input : List Byte} (h : s.hasInput input) : input.length = s.ilen.toNat :=
  readInput_length h.2.2

theorem hasInput_length_le {s : State} {input : List Byte} (h : s.hasInput input) : input.length ≤ 765 := by
  rw [hasInput_length h]; exact h.1

theorem hasInput_chunks {s : State} {input : List Byte} (h : s.hasInput input) : (chunkBytes input).length ≤ 255 := by
  rw [chunkBytes_length]; have := hasInput_length_le h; omega

theorem cfg_sizeMax {c : Config} (h : c.wf = true) : c.pixelSizeMax ≤ 134217727 := by
  simp only [Config.wf, Bool.and_eq_true, decide_eq_true_eq] at h
  exact h.1.2

theorem cfg_obufCap {c : Config} (h : c.wf = true) {n : Nat} (hn : n ≤ 765) : withinObuf c.obufCap n = true := by
  simp only [Config.wf, Bool.and_eq_true] at h
  have h2 := h.2
  cases hc : c.obufCap with
  | none => rfl
  | some m => rw [hc] at h2; simp only [decide_eq_true_eq] at h2; simp only [withinObuf, decide_eq_true_eq]; omega

/-- The planner's arithmetic fits the registers (R30). -/
theorem side_fits {base : Rgb} {cs : List Rgb} {size : Nat} (hc : cs.length ≤ 255) (hs : size ≤ 134217727) :
    ceilSqrt (passTotal (overflowPass base cs)) * size < 4294967296 := by
  have h := ceilSqrt_le_nMax (passTotal_le (base := base) hc)
  calc _ ≤ 32 * 134217727 := Nat.mul_le_mul h hs
    _ < _ := by decide

theorem planOf_describes {base : Rgb} {input : List Byte} {size : Nat} (hl : (chunkBytes input).length ≤ 255)
    (hs : size ≤ 134217727) : (planOf (overflowPass base (chunkBytes input)) size).describes base size input := by
  have hc := countOverflow_le base (chunkBytes input)
  have ht := passTotal_eq base (chunkBytes input)
  have hn := ceilSqrt_le_nMax (passTotal_le (base := base) hl)
  have hside := side_fits (base := base) hl hs
  obtain ⟨h1, h2⟩ := ceilSqrt_least (passTotal (overflowPass base (chunkBytes input)))
  simp only [Config.nMax] at hn
  have e1 : (planOf (overflowPass base (chunkBytes input)) size).nchunk.toNat = (chunkBytes input).length := by
    simp only [planOf, overflowPass_colors, List.length_map, BitVec.toNat_ofNat]; omega
  have e2 : (planOf (overflowPass base (chunkBytes input)) size).novf.toNat = countOverflow base (chunkBytes input) := by
    simp only [planOf, overflowPass_orb, recordsFrom_length, BitVec.toNat_ofNat]; omega
  have e3 : (planOf (overflowPass base (chunkBytes input)) size).total.toNat = passTotal (overflowPass base (chunkBytes input)) := by
    simp only [planOf, BitVec.toNat_ofNat]; omega
  have e4 : (planOf (overflowPass base (chunkBytes input)) size).nside.toNat = ceilSqrt (passTotal (overflowPass base (chunkBytes input))) := by
    simp only [planOf, BitVec.toNat_ofNat]; omega
  refine ⟨by rw [e1, chunkBytes_length], e2, by rw [e1, e2, e3, ht], by rw [e3, e4]; exact h1, by rw [e3, e4]; exact h2, ?_⟩
  rw [e4]
  simp only [planOf, sideOf, BitVec.toNat_ofNat]; omega

theorem execPlan_ok {s : State} {input : List Byte} (h : s.hasInput input) :
    exec .plan s = .next { s with
      plan := planOf (overflowPass s.base (chunkBytes input)) s.pixelSize.toNat, status := withErr 0 s.status, seq := Seq.initial } :=
  withInput_ok _ h

theorem execEncode_ok {s : State} {input : List Byte} (h : s.hasInput input) :
    exec .encode s = .next { s with
      canvas := (paint (overflowPass s.base (chunkBytes input)) s.pixelSize.toNat).2
      plan := planOf (overflowPass s.base (chunkBytes input)) s.pixelSize.toNat, status := withErr 0 s.status, seq := Seq.initial } :=
  withInput_ok _ h

/-! ### The encoder's emission (R150, R152) -/

/-- Chunking does not see zero bytes within the last chunk. -/
theorem chunkBytes_append_zeros (bs : List Byte) (n : Nat) (h : (bs.length + n + 2) / 3 = (bs.length + 2) / 3) :
    chunkBytes (bs ++ List.replicate n 0) = chunkBytes bs := by
  induction bs using chunkBytes.induct with
  | case1 =>
    have : n = 0 := by simp at h; omega
    subst this; rfl
  | case2 a =>
    have : n = 0 ∨ n = 1 ∨ n = 2 := by simp at h; omega
    rcases this with rfl | rfl | rfl <;> rfl
  | case3 a b =>
    have : n = 0 ∨ n = 1 := by simp at h; omega
    rcases this with rfl | rfl <;> rfl
  | case4 a b c rest ih =>
    simp only [List.cons_append, chunkBytes]
    rw [ih (by simp only [List.length_cons] at h; omega)]


theorem execAll_append (a b : List Instr) (s : State) :
    execAll (a ++ b) s = match execAll a s with
      | .next t => execAll b t
      | .fault f => .fault f
      | .refused r => .refused r := by
  induction a generalizing s with
  | nil => rfl
  | cons i is ih =>
    simp only [List.cons_append, execAll]
    cases exec i s <;> simp [ih]

/-- A block of a square of `n` columns fits its canvas. -/
theorem blockFits_square {c : Canvas} {k n size : Nat} (hk : k < n * n) (hw : c.cw.toNat = n * size) (hh : c.ch.toNat = n * size) :
    blockFits c k n size = true := by
  obtain ⟨h1, h2⟩ := blockArea_inside (s := size) hk
  have hn : 0 < n := by
    rcases Nat.eq_zero_or_pos n with rfl | h
    · simp at hk
    · exact h
  simp only [blockFits, Canvas.covers, Bool.or_eq_true, Bool.and_eq_true, decide_eq_true_eq]
  exact .inr ⟨hn, .inr ⟨by rw [hw]; exact h1, by rw [hh]; exact h2⟩⟩

/-- The zone a block instruction belongs to (R69). -/
def instrZone : Instr → Zone
  | .blkData _ _ _ => .data
  | .blkSep => .sep
  | _ => .ovf

theorem exec_block {i : Instr} {p : Pixel} (h : blockPixel i = some p) (s : State) :
    exec i s = emitAlone (instrZone i) p s := by
  cases i
  case blkData => cases h; rfl
  case blkSep => cases h; rfl
  case blkOvfR => cases h; rfl
  case blkOvfG => cases h; rfl
  case blkOvfB => cases h; rfl
  all_goals exact absurd h (by simp [blockPixel])

/-- With a column, or without pixels, a block's square is R138's and nothing is drawn. -/
theorem blockSquare_column {c : Canvas} {k m size : Nat} (d : Nat) (h : 0 < m ∨ size = 0) :
    blockSquare c k m size d = blockArea k m size ∧ blockDraws m size d = d := by
  have : ¬ (m = 0 ∧ 0 < size) := by omega
  exact ⟨if_neg this, if_neg this⟩

theorem blockFits_cases {c : Canvas} {k m size : Nat} (h : blockFits c k m size = true) :
    (0 < m ∨ size = 0) ∧ c.covers (blockArea k m size) = true := by
  simp only [blockFits, Bool.or_eq_true, Bool.and_eq_true, decide_eq_true_eq] at h
  rcases h with rfl | ⟨hm, h⟩
  · exact ⟨.inr rfl, by simp [Canvas.covers, blockArea]⟩
  · exact ⟨.inl hm, h⟩

/-- WRBLK of a block on the canvas (R152). -/
theorem writeBlock_fits {k m : Nat} {p : Pixel} {s : State} (h : blockFits s.canvas k m s.pixelSize.toNat = true) :
    writeBlock k m p s = .next { s with canvas := s.canvas.fill (blockArea k m s.pixelSize.toNat) p } := by
  obtain ⟨hm, hc⟩ := blockFits_cases h
  obtain ⟨h1, h2⟩ := blockSquare_column (c := s.canvas) (k := k) s.draws hm
  simp only [writeBlock, h1, h2, hc, if_pos]

theorem emitAlone_fits {z : Zone} {p : Pixel} {s : State} (h : blockFits s.canvas s.seq.k s.seq.cols s.pixelSize.toNat = true) :
    emitAlone z p s = .next { s with seq := advance z s.seq, canvas := s.canvas.fill (blockArea s.seq.k s.seq.cols s.pixelSize.toNat) p } := by
  simp only [emitAlone, writeBlock_fits h]

/-- Block instructions of one zone, one after the other. -/
theorem execAll_blocks {z : Zone} {n : Nat} {is : List Instr} {ps : List Pixel}
    (h : List.Forall₂ (fun i p => blockPixel i = some p ∧ instrZone i = z) is ps) {s : State} (hn : s.seq.cols = n)
    (hk : s.seq.k + ps.length ≤ n * n) (hw : s.canvas.cw.toNat = n * s.pixelSize.toNat)
    (hh : s.canvas.ch.toNat = n * s.pixelSize.toNat) :
    execAll is s = .next { s with
      seq := (emitBlocks s.pixelSize.toNat z ps (s.seq, s.canvas)).1
      canvas := (emitBlocks s.pixelSize.toNat z ps (s.seq, s.canvas)).2 } := by
  induction h generalizing s with
  | nil => rfl
  | @cons i p is ps hip _ ih =>
    simp only [List.length_cons] at hk
    simp only [execAll]
    rw [exec_block hip.1, emitAlone_fits (blockFits_square (by rw [hn]; omega) (by rw [hn]; exact hw) (by rw [hn]; exact hh)), hip.2]
    dsimp only
    rw [ih (by simpa using hn) (by simp; omega) (by simpa using hw) (by simpa using hh)]
    rfl

theorem emitBlocks_i (size : Nat) (z : Zone) (ps : List Pixel) (x : Seq × Canvas) :
    (emitBlocks size z ps x).1.i = x.1.i + (if z = .data then ps.length else 0) := by
  induction ps generalizing x with
  | nil => simp
  | cons p ps ih => rw [emitBlocks_cons, ih]; cases z <;> simp [emitBlock, advance]; omega

theorem emitBlocks_j (size : Nat) (z : Zone) (ps : List Pixel) (x : Seq × Canvas) :
    (emitBlocks size z ps x).1.j = x.1.j + (if z = .ovf then ps.length else 0) := by
  induction ps generalizing x with
  | nil => simp
  | cons p ps ih => rw [emitBlocks_cons, ih]; cases z <;> simp [emitBlock, advance]; omega

/-- Emission looks at the block index and the columns alone. -/
theorem emitBlocks_agree (size : Nat) (z : Zone) (ps : List Pixel) {x y : Seq × Canvas} (hk : x.1.k = y.1.k)
    (hc : x.1.cols = y.1.cols) (h : x.2 = y.2) : (emitBlocks size z ps x).2 = (emitBlocks size z ps y).2 := by
  obtain ⟨q, c⟩ := x; obtain ⟨q', c'⟩ := y
  cases h; exact emitBlocks_zone size z z ps q q' c hk hc

/-! ### DECODE (R181) -/

theorem execDecode_badSize {s : State} (h : badPixelSize s = true) :
    exec .decode s = .next (raise .invalidPixelSize s) := by simp [exec, execDecode, h]

theorem execDecode_overrun {s : State} (hb : badPixelSize s = false)
    (h : scanCanvas s.cfg.obufCap s.base s.canvas s.pixelSize.toNat = none) :
    exec .decode s = .next (raise .bufferOverrun s) := by simp [exec, execDecode, hb, h]

theorem execDecode_text {s : State} {q : Seq} (hb : badPixelSize s = false)
    (h : scanCanvas s.cfg.obufCap s.base s.canvas s.pixelSize.toNat = some q)
    (ht : legalText s.cfg.textRule (decoded q) = false) :
    exec .decode s = .next (raise .invalidEncoding { s with seq := corrected q }) := by
  have ht' : legalText s.cfg.textRule (corrected q).out = false := ht
  simp [exec, execDecode, hb, h, ht']

theorem execDecode_ok {s : State} {q : Seq} (hb : badPixelSize s = false)
    (h : scanCanvas s.cfg.obufCap s.base s.canvas s.pixelSize.toNat = some q)
    (ht : legalText s.cfg.textRule (decoded q) = true) :
    exec .decode s = .next { s with
      status := withErr 0 (withPhase (phaseBit q.phase) s.status)
      obuf := cellsFrom 0 (decoded q)
      olen := outputLength (decoded q).length s.draws
      draws := if (decoded q).length < 4294967296 then s.draws else s.draws + 1
      seq := Seq.initial } := by
  have ht' : legalText s.cfg.textRule (corrected q).out = true := ht
  simp only [exec, execDecode, hb, h, ht']
  rfl

/-- Everything DECODE can do. -/
theorem execDecode_cases (s : State) :
    (badPixelSize s = true ∧ exec .decode s = .next (raise .invalidPixelSize s)) ∨
    exec .decode s = .next (raise .bufferOverrun s) ∨
    ∃ q, scanCanvas s.cfg.obufCap s.base s.canvas s.pixelSize.toNat = some q ∧
      ((legalText s.cfg.textRule (decoded q) = false ∧ exec .decode s = .next (raise .invalidEncoding { s with seq := corrected q })) ∨
       (legalText s.cfg.textRule (decoded q) = true ∧ exec .decode s = .next { s with
          status := withErr 0 (withPhase (phaseBit q.phase) s.status)
          obuf := cellsFrom 0 (decoded q)
          olen := outputLength (decoded q).length s.draws
          draws := if (decoded q).length < 4294967296 then s.draws else s.draws + 1
          seq := Seq.initial })) := by
  by_cases hb : badPixelSize s = true
  · exact .inl ⟨hb, execDecode_badSize hb⟩
  replace hb : badPixelSize s = false := by simpa using hb
  cases h : scanCanvas s.cfg.obufCap s.base s.canvas s.pixelSize.toNat with
  | none => exact .inr (.inl (execDecode_overrun hb h))
  | some q =>
    refine .inr (.inr ⟨q, rfl, ?_⟩)
    cases ht : legalText s.cfg.textRule (decoded q) with
    | false => exact .inl ⟨rfl, execDecode_text hb h ht⟩
    | true => exact .inr ⟨rfl, execDecode_ok hb h ht⟩

theorem outputLength_toNat {n : Nat} (d : Nat) (h : n < 4294967296) : (outputLength n d).toNat = n := by
  unfold outputLength; rw [if_pos h]; simp; omega

/-! ### When the scan overruns, meets a separator, or is data alone (R182 to R184, R205) -/

theorem classify_data_iff (ph : Phase) (p : Pixel) : classify ph p = .data ↔ ph = .collectingData ∧ p ≠ Pixel.zero := by
  cases ph
  · by_cases h : isSep p = true
    · simp [classify, (isSep_iff p).mp h]
    · have : p ≠ Pixel.zero := fun e => h ((isSep_iff p).mpr e)
      simp [classify, h, this]
  · simp only [classify]; split <;> simp

theorem classify_sep_iff (ph : Phase) (p : Pixel) : classify ph p = .sep ↔ ph = .collectingData ∧ p = Pixel.zero := by
  cases ph
  · by_cases h : isSep p = true
    · simp [classify, (isSep_iff p).mp h]
    · have : p ≠ Pixel.zero := fun e => h ((isSep_iff p).mpr e)
      simp [classify, h, this]
  · simp only [classify]; split <;> simp

/-- In the overflow phase no block overruns, and the phase stays (R175, R182). -/
theorem scanList_overflow {cap : Option Nat} {base : Rgb} (ps : List Pixel) {q : Seq} (hp : q.phase = .collectingOverflow) :
    ∃ q', scanList cap base ps q = some q' ∧ q'.phase = .collectingOverflow := by
  induction ps generalizing q with
  | nil => exact ⟨q, rfl, hp⟩
  | cons p ps ih =>
    simp only [scanList, scanStep, hp]
    by_cases ha : p.a = 0
    · have : classify .collectingOverflow p = .skip := by simpa [classify] using ha
      rw [this]; exact ih (q := stepSkip q) hp
    · have : classify .collectingOverflow p = .record := by simpa [classify] using ha
      rw [this]; exact ih (q := stepRecord p q) hp

/-- A run of data pixels appends its differences, or overruns. -/
theorem scanList_dataRun {cap : Option Nat} {base : Rgb} (ps : List Pixel) {q : Seq} (hp : q.phase = .collectingData)
    (hz : ∀ p ∈ ps, p ≠ Pixel.zero) (hw : withinObuf cap (q.buf.length + 3 * ps.length) = true) :
    scanList cap base ps q = some { q with buf := q.buf ++ ps.flatMap (fun p => rgbBytes (diffRgb base p)), k := q.k + ps.length } := by
  induction ps generalizing q with
  | nil => simp [scanList]
  | cons p ps ih =>
    have hc : classify q.phase p = .data := (classify_data_iff _ _).mpr ⟨hp, hz p (by simp)⟩
    have h3 : withinObuf cap (q.buf.length + 3) = true := withinObuf_mono (by simp only [List.length_cons]; omega) hw
    simp only [scanList, scanStep, hc, stepData, unpackBytes_within _ h3]
    rw [ih (q := { q with buf := q.buf ++ rgbBytes (diffRgb base p), k := q.k + 1 }) hp (fun p' h' => hz p' (by simp [h'])) (by
      simp only [rgbBytes, List.length_append, List.length_cons, List.length_nil] at hw ⊢
      rw [show q.buf.length + (0 + 1 + 1 + 1) + 3 * ps.length = q.buf.length + 3 * (ps.length + 1) by omega]; exact hw)]
    simp only [List.flatMap_cons, List.append_assoc, List.length_cons]
    congr 2
    omega

/-- The first separator splits a scan; without one it is all data. -/
theorem scanList_split (ps : List Pixel) :
    (∀ p ∈ ps, p ≠ Pixel.zero) ∨ ∃ pre post, ps = pre ++ Pixel.zero :: post ∧ ∀ p ∈ pre, p ≠ Pixel.zero := by
  induction ps with
  | nil => exact .inl (by simp)
  | cons p ps ih =>
    by_cases h : p = Pixel.zero
    · exact .inr ⟨[], ps, by simp [h], by simp⟩
    · rcases ih with ih | ⟨pre, post, rfl, hpre⟩
      · exact .inl (by simpa using ⟨h, ih⟩)
      · exact .inr ⟨p :: pre, post, rfl, by simpa using ⟨h, hpre⟩⟩

/-- An overrun comes from a run of data pixels too long for the buffer, and such a run overruns (R205). -/
theorem scanList_none_iff {cap : Option Nat} {base : Rgb} (ps : List Pixel) {q : Seq} (hp : q.phase = .collectingData) :
    scanList cap base ps q = none ↔
      ∃ m, m ≤ ps.length ∧ withinObuf cap (q.buf.length + 3 * m) = false ∧ 0 < m ∧
        ∀ k (h : k < ps.length), k < m → ps[k] ≠ Pixel.zero := by
  induction ps generalizing q with
  | nil => simp [scanList]
  | cons p ps ih =>
    by_cases hz : p = Pixel.zero
    · subst hz
      have hc : classify q.phase Pixel.zero = .sep := (classify_sep_iff _ _).mpr ⟨hp, rfl⟩
      obtain ⟨q', hq', -⟩ := scanList_overflow (cap := cap) (base := base) ps (q := stepSep q) rfl
      simp only [scanList, scanStep, hc, hq', reduceCtorEq, false_iff, not_exists, not_and]
      intro m _ _ hm hall
      exact hall 0 (by simp) hm rfl
    · have hc : classify q.phase p = .data := (classify_data_iff _ _).mpr ⟨hp, hz⟩
      cases h3 : withinObuf cap (q.buf.length + 3) with
      | false =>
        have hu : unpackBytes cap q.buf (diffRgb base p) = none := by simp [unpackBytes, h3]
        simp only [scanList, scanStep, hc, stepData, hu, true_iff]
        exact ⟨1, by simp, h3, by omega, fun k hk hk1 => by
          have : k = 0 := by omega
          subst this; exact hz⟩
      | true =>
        simp only [scanList, scanStep, hc, stepData, unpackBytes_within _ h3]
        rw [ih (q := { q with buf := q.buf ++ rgbBytes (diffRgb base p), k := q.k + 1 }) hp]
        have hlen : (q.buf ++ rgbBytes (diffRgb base p)).length = q.buf.length + 3 := by simp [rgbBytes]
        rw [hlen]
        constructor
        · rintro ⟨m, hm, hwf, hm0, hall⟩
          refine ⟨m + 1, by simp only [List.length_cons]; omega, by rw [← hwf]; congr 1; omega, by omega, fun k hk hkm => ?_⟩
          cases k with
          | zero => exact hz
          | succ k => exact hall k (by simpa using hk) (by omega)
        · rintro ⟨m, hm, hwf, hm0, hall⟩
          cases m with
          | zero => omega
          | succ m =>
            cases m with
            | zero => rw [Nat.mul_comm] at hwf; simp [h3] at hwf
            | succ m =>
              refine ⟨m + 1, by simpa using hm, by rw [← hwf]; congr 1; omega, by omega, fun k hk hkm => ?_⟩
              exact hall (k + 1) (by simpa using hk) (by omega)

theorem scanList_phase {cap : Option Nat} {base : Rgb} {ps : List Pixel} {q q' : Seq} (hp : q.phase = .collectingData)
    (h : scanList cap base ps q = some q') : q'.phase = .collectingOverflow ↔ Pixel.zero ∈ ps := by
  induction ps generalizing q with
  | nil => simp only [scanList, Option.some.injEq] at h; subst h; simp [hp]
  | cons p ps ih =>
    by_cases hz : p = Pixel.zero
    · subst hz
      have hc : classify q.phase Pixel.zero = .sep := (classify_sep_iff _ _).mpr ⟨hp, rfl⟩
      obtain ⟨q'', hq', hph⟩ := scanList_overflow (cap := cap) (base := base) ps (q := stepSep q) rfl
      simp only [scanList, scanStep, hc, hq', Option.some.injEq] at h
      subst h; simp [hph]
    · have hc : classify q.phase p = .data := (classify_data_iff _ _).mpr ⟨hp, hz⟩
      simp only [scanList, scanStep, hc] at h
      cases hd : stepData cap base p q with
      | none => rw [hd] at h; simp at h
      | some q1 =>
        rw [hd] at h
        have := (stepData_some hd).1
        rw [ih (q := q1) (by rw [this]; exact hp) h]
        simp [Ne.symm hz]

theorem samples_getElem (c : Canvas) (cols size k0 n : Nat) (k : Nat) (h : k < (samples c cols size k0 n).length) :
    (samples c cols size k0 n)[k] = samplePixel c (k0 + k) cols size := by
  simp [samples]

theorem dataBytes_eq (base : Rgb) (c : Canvas) (cols size n : Nat) :
    dataBytes base c cols size n = (samples c cols size 0 n).flatMap (fun p => rgbBytes (diffRgb base p)) := by
  induction n with
  | zero => rfl
  | succ n ih =>
    simp only [dataBytes, ih, samples, List.range'_1_concat, List.map_append, List.flatMap_append]
    simp

/-! ### The round trip (R185) -/

/-- The samples of a painted canvas are its blocks, and `DEFAULT_PIXEL` for the unused ones. -/
theorem samples_paint {q : Seq} {size : Nat} (hs : 0 < size) (hw : ceilSqrt (passTotal q) * size < 4294967296) :
    samples (paint q size).2 (ceilSqrt (passTotal q)) size 0 (ceilSqrt (passTotal q) * ceilSqrt (passTotal q)) =
      blockPixels q ++ List.replicate (ceilSqrt (passTotal q) * ceilSqrt (passTotal q) - passTotal q) Pixel.zero := by
  have hleast := (ceilSqrt_least (passTotal q)).1
  apply List.ext_getElem
  · simp; omega
  intro k h1 h2
  rw [samples_getElem, Nat.zero_add]
  rw [samples_length] at h1
  have hin := blockArea_inside (s := size) h1
  have horig := blockArea_contains_origin k (ceilSqrt (passTotal q)) hs
  have hx : (blockArea k (ceilSqrt (passTotal q)) size).x0 < ceilSqrt (passTotal q) * size := by omega
  have hidx := (contains_iff_index hs hx).mp horig
  rw [samplePixel, paint_pixelAt hs hx hw, hidx]
  by_cases hk : k < (blockPixels q).length
  · rw [List.getElem_append_left hk, List.getD_eq_getElem?_getD, List.getElem?_eq_getElem hk]; rfl
  · rw [List.getElem_append_right (by omega), List.getElem_replicate, List.getD_eq_getElem?_getD,
      List.getElem?_eq_none (by omega)]; rfl

/-- The scan of a painted canvas (R182, R185). -/
theorem scanCanvas_paint {cap : Option Nat} {base : Rgb} {q : Seq} {size : Nat} (hs : 0 < size)
    (hw : ceilSqrt (passTotal q) * size < 4294967296) (hcap : withinObuf cap (3 * q.colors.length) = true) :
    ∃ q', scanCanvas cap base (paint q size).2 size = some q' ∧ q'.phase = .collectingOverflow ∧
      q'.buf = q.colors.flatMap (fun c => rgbBytes (diffRgb base (dataPixel c))) ∧ q'.recs = asTriples q.orb := by
  have hside : (BitVec.ofNat 32 (sideOf (ceilSqrt (passTotal q)) size)).toNat = ceilSqrt (passTotal q) * size := by
    simp only [sideOf, BitVec.toNat_ofNat]; omega
  have hcols : (paint q size).2.cw.toNat / size = ceilSqrt (passTotal q) := by
    rw [paint_cw, hside, Nat.mul_div_cancel _ hs]
  have hrows : (paint q size).2.ch.toNat / size = ceilSqrt (passTotal q) := by
    rw [paint_ch, hside, Nat.mul_div_cancel _ hs]
  rw [scanCanvas_eq, hcols, hrows, samples_paint hs hw,
    scanList_blockPixels q _ (q := scanStart (paint q size).2 size) rfl (by simpa [scanStart, Seq.initial] using hcap)]
  exact ⟨_, rfl, rfl, by simp [scanStart, Seq.initial], by simp [scanStart, Seq.initial, asTriples]⟩

/-- What the decoder finds on the canvas of an encode, under any base color (R185, R186). -/
theorem scanCanvas_encoded {s : State} {input : List Byte} (hc : s.cfg.wf = true) (h : s.hasInput input) (key : Rgb) :
    ∃ q, scanCanvas s.cfg.obufCap key (paint (overflowPass s.base (chunkBytes input)) s.pixelSize.toNat).2 s.pixelSize.toNat = some q ∧
      q.phase = .collectingOverflow ∧
      q.buf = ((chunkBytes input).map (chunkColor s.base)).flatMap (fun c => rgbBytes (diffRgb key (dataPixel c))) ∧
      q.recs = asTriples (recordsFrom s.base 0 (chunkBytes input)) := by
  have hu := pixelSize_usable h.2.1
  have hmax := cfg_sizeMax hc
  have hl := hasInput_chunks h
  have := scanCanvas_paint (cap := s.cfg.obufCap) (base := key) hu.1
    (side_fits (base := s.base) hl (show s.pixelSize.toNat ≤ 134217727 by omega))
    (cfg_obufCap hc (by rw [overflowPass_colors, List.length_map]; omega))
  simpa using this

theorem decoded_encoded {base : Rgb} {input : List Byte} {q : Seq} (hl : (chunkBytes input).length ≤ 255)
    (hb : q.buf = ((chunkBytes input).map (chunkColor base)).flatMap (fun c => rgbBytes (diffRgb base (dataPixel c))))
    (hr : q.recs = asTriples (recordsFrom base 0 (chunkBytes input))) : decoded q = stripZeros input := by
  unfold decoded
  rw [hb, hr, corrected_chunks base _ hl, chunkBytes_flat, stripZeros_append_zeros]

/-- The streaming scan and the deferring one side by side: the same phase, place and length, and the buffer is the corrected one
(R178). -/
theorem streamBlocks_agree (cap : Option Nat) (base : Rgb) (c : Canvas) (size n : Nat) (q q' : Seq)
    (hb : q.recs.foldl applyTriple q.buf = q'.buf) (hp : q.phase = q'.phase) (hk : q.k = q'.k) (hc : q.cols = q'.cols)
    (hr : q.phase = .collectingData → q.recs = []) :
    match scanBlocks cap base c size n q, streamBlocks cap base c size n q' with
    | some deferred, some streamed =>
      deferred.recs.foldl applyTriple deferred.buf = streamed.buf ∧ deferred.phase = streamed.phase ∧ deferred.k = streamed.k
    | none, none => True
    | _, _ => False := by
  induction n generalizing q q' with
  | zero => exact ⟨hb, hp, hk⟩
  | succ n ih =>
    simp only [scanBlocks, streamBlocks, scanStep, streamStep, ← hk, ← hc, ← hp]
    generalize samplePixel c q.k q.cols size = p
    have hbl : q.buf.length = q'.buf.length := by rw [← hb, foldl_applyTriple_length]
    cases hcl : classify q.phase p with
    | sep =>
      have h0 := hr ((classify_sep_iff _ _).mp hcl).1
      exact ih _ _ (by simpa [stepSep] using hb) rfl (by simp [stepSep, hk]) hc (by simp [stepSep])
    | data =>
      have h0 := hr ((classify_data_iff _ _).mp hcl).1
      simp only [h0, List.foldl_nil] at hb
      simp only [stepData, ← hb]
      cases hu : unpackBytes cap q.buf (diffRgb base p) with
      | none => trivial
      | some buf => exact ih _ _ (by simp [h0]) hp (by simp [hk]) hc (fun _ => h0)
    | skip => exact ih _ _ hb hp (by simp [stepSkip, hk]) hc hr
    | record =>
      exact ih _ _ (by simp [stepRecord, List.foldl_append, hb]) rfl (by simp [stepRecord]) rfl
        (fun e => absurd (classify_record hcl) (by rw [show q.phase = .collectingData from e]; simp))

/-! ### The operations of the sub-units -/

/-- CHUNK (R110): chunk `i` holds the input bytes `3i`, `3i + 1`, `3i + 2`, or 0 beyond the end. -/
theorem chunkBytes_getElem (bs : List Byte) (i : Nat) (h : i < (chunkBytes bs).length) :
    (chunkBytes bs)[i].r = bs.getD (3 * i) 0 ∧ (chunkBytes bs)[i].g = bs.getD (3 * i + 1) 0 ∧
      (chunkBytes bs)[i].b = bs.getD (3 * i + 2) 0 := by
  induction bs using chunkBytes.induct generalizing i with
  | case1 => simp [chunkBytes] at h
  | case2 a => have : i = 0 := by simp [chunkBytes] at h; omega
               subst this; simp [chunkBytes]
  | case3 a b => have : i = 0 := by simp [chunkBytes] at h; omega
                 subst this; simp [chunkBytes]
  | case4 a b c rest ih =>
    cases i with
    | zero => simp [chunkBytes]
    | succ i =>
      have := ih i (by simpa [chunkBytes] using h)
      simpa [chunkBytes, Nat.mul_add] using this

theorem clampAdd_eq_satAdd (b d : Byte) : (clampAdd b d).1 = satAdd b d := byte_ext (by rw [clampAdd_value, satAdd_toNat])

theorem laneRecord_eq (i : Byte) (ch : Channel) (b d : Byte) : laneRecord i ch b d = ruleRecord i ch b d := by
  unfold laneRecord ruleRecord clampAdd laneOverflows laneSum
  by_cases h : 255 < b.toNat + d.toNat
  · simp [h]
  · simp [h]

theorem countOverflow_eq (base : Rgb) (cs : List Rgb) :
    countOverflow base cs = (cs.map fun c =>
        (if 255 < base.r.toNat + c.r.toNat then 1 else 0) + (if 255 < base.g.toNat + c.g.toNat then 1 else 0) +
        (if 255 < base.b.toNat + c.b.toNat then 1 else 0)).sum := by
  induction cs with
  | nil => rfl
  | cons c cs ih =>
    have key : ∀ b d : Byte, laneCount b d = if 255 < b.toNat + d.toNat then 1 else 0 := fun b d => by
      unfold laneCount laneOverflows laneSum; by_cases h : 255 < b.toNat + d.toNat <;> simp [h]
    simp only [countOverflow, ih, List.map_cons, List.sum_cons, key]

theorem recordsFrom_eq (base : Rgb) (i : Nat) (cs : List Rgb) :
    recordsFrom base i cs = ((cs.zipIdx i).map fun e => ruleRecord (BitVec.ofNat 8 e.2) .red base.r e.1.r ++
          ruleRecord (BitVec.ofNat 8 e.2) .green base.g e.1.g ++ ruleRecord (BitVec.ofNat 8 e.2) .blue base.b e.1.b).flatten := by
  induction cs generalizing i with
  | nil => rfl
  | cons c cs ih => simp [recordsFrom, ovfRec, laneRecord_eq, ih]

theorem mem_ruleRecord {r : Record} {i : Byte} {ch : Channel} {b d : Byte} (h : r ∈ ruleRecord i ch b d) :
    r.idx = i ∧ r.chan = ch ∧ 1 ≤ r.mag.toNat ∧ r.mag.toNat = b.toNat + d.toNat - 255 := by
  unfold ruleRecord at h
  have := b.isLt; have := d.isLt
  split at h
  · simp only [List.mem_singleton] at h; subst h
    refine ⟨rfl, rfl, ?_, ?_⟩ <;> simp only [BitVec.toNat_ofNat] <;> omega
  · simp at h

theorem blockFits_right {c : Canvas} {k m size : Nat} (h : blockFits c k m size = true) :
    (blockArea k m size).x0 + (blockArea k m size).size ≤ 4294967296 ∧ c.covers (blockArea k m size) = true := by
  simp only [blockFits, Bool.or_eq_true, Bool.and_eq_true, decide_eq_true_eq] at h
  rcases h with rfl | ⟨-, h⟩
  · simp [blockArea, Canvas.covers]
  · refine ⟨?_, h⟩
    simp only [Canvas.covers, Bool.or_eq_true, Bool.and_eq_true, decide_eq_true_eq] at h
    have := c.cw.isLt
    rcases h with h | ⟨h, -⟩
    · have h : size = 0 := h
      subst h; simp [blockArea]
    · omega

/-- The pixels of a block that is written on its canvas (R152). -/
theorem pixelAt_fill_block {c : Canvas} {k m size x y : Nat} {p : Pixel} (hc : c.wf = true) (h : blockFits c k m size = true)
    (hxy : c.has x y = true) : (c.fill (blockArea k m size) p).pixelAt x y =
      if (blockArea k m size).contains x y = true then p else c.pixelAt x y :=
  Canvas.pixelAt_fill (Canvas.wf_rising hc) (blockFits_right h).1 (Canvas.has_lt hxy).1 p

/-- A block with a column but off the canvas is not written (R65). -/
theorem writeBlock_unfit {k m : Nat} {p : Pixel} {s : State} (hm : 0 < m)
    (h : blockFits s.canvas k m s.pixelSize.toNat = false) : writeBlock k m p s = .fault .noSuchPixel := by
  have hc : s.canvas.covers (blockArea k m s.pixelSize.toNat) = false := by
    simp only [blockFits, Bool.or_eq_false_iff, Bool.and_eq_false_iff, decide_eq_false_iff_not] at h
    rcases h.2 with h | h
    · exact absurd hm h
    · exact h
  simp [writeBlock, (blockSquare_column s.draws (.inl hm)).1, hc]

/-- A canvas without a whole block has no square for one. -/
theorem writeBlock_small {k m : Nat} {p : Pixel} {s : State} (h0 : 0 < s.pixelSize.toNat) (hf : blockFits s.canvas k m s.pixelSize.toNat = false)
    (h : s.canvas.cw.toNat < s.pixelSize.toNat ∨ s.canvas.ch.toNat < s.pixelSize.toNat) :
    writeBlock k m p s = .fault .noSuchPixel := by
  rcases Nat.eq_zero_or_pos m with rfl | hm
  · have hc : s.canvas.covers (blockSquare s.canvas k 0 s.pixelSize.toNat s.draws) = false := by
      rw [blockSquare, if_pos ⟨rfl, h0⟩]
      simp only [Canvas.covers, Bool.or_eq_false_iff, Bool.and_eq_false_iff, decide_eq_false_iff_not]
      refine ⟨by omega, ?_⟩
      generalize Config.freeNat s.draws % (s.canvas.cw.toNat / s.pixelSize.toNat) * s.pixelSize.toNat = x
      generalize Config.freeNat (s.draws + 1) % (s.canvas.ch.toNat / s.pixelSize.toNat) * s.pixelSize.toNat = y
      omega
    simp [writeBlock, hc]
  · exact writeBlock_unfit hm hf

/-- A square of whole blocks that is drawn on a canvas with a whole block lies on it. -/
theorem blockSquare_free {c : Canvas} {k size d : Nat} (h0 : 0 < size) (hw : size ≤ c.cw.toNat) (hh : size ≤ c.ch.toNat) :
    c.covers (blockSquare c k 0 size d) = true ∧ (blockSquare c k 0 size d).size = size := by
  have key : ∀ n w : Nat, size ≤ w → n % (w / size) * size + size ≤ w := fun n w h => by
    have h1 := Nat.mod_lt n (Nat.div_pos h h0)
    calc n % (w / size) * size + size = (n % (w / size) + 1) * size := by rw [Nat.add_mul, Nat.one_mul]
      _ ≤ (w / size) * size := Nat.mul_le_mul_right _ h1
      _ ≤ w := Nat.div_mul_le_self ..
  rw [blockSquare, if_pos ⟨rfl, h0⟩]
  simp only [Canvas.covers, Bool.or_eq_true, Bool.and_eq_true, decide_eq_true_eq, and_true]
  exact .inr ⟨key _ _ hw, key _ _ hh⟩

/-- WRBLK without a column, on a canvas with a whole block: the square is free within the canvas (log 21). -/
theorem writeBlock_free {k : Nat} {p : Pixel} {s : State} (h0 : 0 < s.pixelSize.toNat) (hw : s.pixelSize.toNat ≤ s.canvas.cw.toNat)
    (hh : s.pixelSize.toNat ≤ s.canvas.ch.toNat) :
    writeBlock k 0 p s = .next { s with
      canvas := s.canvas.fill (blockSquare s.canvas k 0 s.pixelSize.toNat s.draws) p, draws := s.draws + 2 } := by
  have hd : blockDraws 0 s.pixelSize.toNat s.draws = s.draws + 2 := if_pos ⟨rfl, h0⟩
  simp only [writeBlock, (blockSquare_free h0 hw hh).1, hd, if_pos]

/-- Everything WRBLK can do. -/
theorem writeBlock_next {k m : Nat} {p : Pixel} {s t : State} (h : writeBlock k m p s = .next t) :
    ∃ a d, s.canvas.covers a = true ∧ t = { s with canvas := s.canvas.fill a p, draws := d } := by
  simp only [writeBlock] at h
  split at h
  · rename_i hc; cases h; exact ⟨_, _, hc, rfl⟩
  · cases h

theorem emitAlone_eq (z : Zone) (p : Pixel) (s : State) :
    emitAlone z p s = match writeBlock s.seq.k s.seq.cols p s with
      | .next t => .next { t with seq := advance z s.seq }
      | .fault f => .fault f
      | .refused r => .refused r := rfl

/-- The numbers an operation answers: the rule's, or a free value with one draw more (log 26). -/
theorem answerNat_next (b : Bool) (n : Nat) (s : State) :
    ∃ v d, answerNat b n s = .next { s with result := .nat v, draws := d } ∧ (b = true → v = n ∧ d = s.draws) := by
  cases b with
  | true => exact ⟨n, s.draws, rfl, fun _ => ⟨rfl, rfl⟩⟩
  | false => exact ⟨_, _, rfl, fun h => absurd h (by simp)⟩

/-! ### Well-formed UTF-8 (R180) -/

/-- The bytes a row eats. -/
theorem afterRow_length {row : List (Nat × Nat)} {bs rest : List Byte} (h : afterRow row bs = some rest) :
    rest.length + row.length = bs.length := by
  induction row generalizing bs with
  | nil => simp only [afterRow, Option.some.injEq] at h; subst h; simp
  | cons r row ih =>
    obtain ⟨lo, hi⟩ := r
    cases bs with
    | nil => simp [afterRow] at h
    | cons b bs =>
      simp only [afterRow] at h
      split at h
      · have := ih h; simp only [List.length_cons]; omega
      · simp at h

/-- A row that matches the head of `a` matches the head of `a ++ b`. -/
theorem afterRow_append {row : List (Nat × Nat)} {a rest : List Byte} (b : List Byte) (h : afterRow row a = some rest) :
    afterRow row (a ++ b) = some (rest ++ b) := by
  induction row generalizing a with
  | nil => simp only [afterRow, Option.some.injEq] at h ⊢; rw [h]
  | cons r row ih =>
    obtain ⟨lo, hi⟩ := r
    cases a with
    | nil => simp [afterRow] at h
    | cons c a =>
      simp only [List.cons_append, afterRow] at h ⊢
      split at h
      · rename_i hc; rw [if_pos hc]; exact ih h
      · simp at h

/-- Every row has a first byte, and after it takes no zero byte. -/
theorem utf8Rows_shape : ∀ row ∈ utf8Rows, row ≠ [] ∧ ∀ e ∈ row.tail, 0 < e.1 := by decide

/-- The rows' first bytes rise from row to row. -/
theorem utf8Rows_rising : utf8Rows.Pairwise fun r r' => ∀ e ∈ r.head?, ∀ e' ∈ r'.head?, e.2 < e'.1 := by
  simp [utf8Rows]

theorem afterRow_head {row : List (Nat × Nat)} {c : Byte} {bs rest : List Byte} (h : afterRow row (c :: bs) = some rest)
    (hr : row ≠ []) : ∃ e ∈ row.head?, e.1 ≤ c.toNat ∧ c.toNat ≤ e.2 := by
  cases row with
  | nil => exact absurd rfl hr
  | cons e row =>
    obtain ⟨lo, hi⟩ := e
    refine ⟨(lo, hi), rfl, ?_⟩
    simp only [afterRow] at h
    split at h
    · assumption
    · simp at h

theorem afterSequence_row {rows : List (List (Nat × Nat))} {bs rest : List Byte} (h : afterSequence rows bs = some rest) :
    ∃ row ∈ rows, afterRow row bs = some rest := List.exists_of_findSome?_eq_some h

/-- What begins with a sequence begins with it whatever follows. -/
theorem afterSequence_append {rows : List (List (Nat × Nat))} {c : Byte} {a rest : List Byte} (b : List Byte)
    (hs : ∀ row ∈ rows, row ≠ []) (hp : rows.Pairwise fun r r' => ∀ e ∈ r.head?, ∀ e' ∈ r'.head?, e.2 < e'.1)
    (h : afterSequence rows (c :: a) = some rest) : afterSequence rows (c :: a ++ b) = some (rest ++ b) := by
  induction rows with
  | nil => simp [afterSequence] at h
  | cons r rows ih =>
    simp only [afterSequence, List.findSome?_cons] at h ⊢
    rw [List.pairwise_cons] at hp
    cases hr : afterRow r (c :: a) with
    | some x =>
      rw [hr] at h; simp only [Option.some.injEq] at h; subst h
      rw [afterRow_append b hr]
    | none =>
      rw [hr] at h
      have hrest := ih (fun row hrow => hs row (by simp [hrow])) hp.2 h
      have hnone : afterRow r (c :: a ++ b) = none := by
        cases hx : afterRow r (c :: a ++ b) with
        | none => rfl
        | some x =>
          obtain ⟨e, he, -, h2⟩ := afterRow_head hx (hs r (by simp))
          obtain ⟨row, hrow, hm⟩ := afterSequence_row h
          obtain ⟨e', he', h1', -⟩ := afterRow_head hm (hs row (by simp [hrow]))
          have := hp.1 row hrow e he e' he'
          omega
      rw [hnone]; exact hrest

/-- A sequence does not reach over a zero byte. -/
theorem afterRow_cut {row : List (Nat × Nat)} {a b rest : List Byte} (hr : ∀ e ∈ row, 0 < e.1)
    (h : afterRow row (a ++ 0 :: b) = some rest) : ∃ rest', rest = rest' ++ 0 :: b ∧ afterRow row a = some rest' := by
  induction row generalizing a with
  | nil => exact ⟨a, by simpa [afterRow] using h.symm, rfl⟩
  | cons e row ih =>
    obtain ⟨lo, hi⟩ := e
    have h0 : 0 < lo := hr (lo, hi) (by simp)
    cases a with
    | nil =>
      simp only [List.nil_append, afterRow] at h
      rw [if_neg (by simp; omega)] at h; simp at h
    | cons c a =>
      simp only [List.cons_append, afterRow] at h ⊢
      split at h
      · rename_i hc; rw [if_pos hc]; exact ih (fun e he => hr e (by simp [he])) h
      · simp at h

theorem afterRow_cut_cons {row : List (Nat × Nat)} {c : Byte} {a b rest : List Byte} (hn : row ≠ []) (hr : ∀ e ∈ row.tail, 0 < e.1)
    (h : afterRow row (c :: a ++ 0 :: b) = some rest) :
    ∃ rest', rest = rest' ++ 0 :: b ∧ afterRow row (c :: a) = some rest' := by
  cases row with
  | nil => exact absurd rfl hn
  | cons e row =>
    obtain ⟨lo, hi⟩ := e
    simp only [List.cons_append, afterRow] at h ⊢
    split at h
    · rename_i hc; rw [if_pos hc]; exact afterRow_cut hr h
    · simp at h

theorem afterSequence_cut {rows : List (List (Nat × Nat))} {c : Byte} {a b rest : List Byte}
    (hs : ∀ row ∈ rows, row ≠ [] ∧ ∀ e ∈ row.tail, 0 < e.1) (h : afterSequence rows (c :: a ++ 0 :: b) = some rest) :
    ∃ rest', rest = rest' ++ 0 :: b ∧ afterSequence rows (c :: a) = some rest' := by
  induction rows with
  | nil => simp [afterSequence] at h
  | cons r rows ih =>
    simp only [afterSequence, List.findSome?_cons] at h ⊢
    cases hr : afterRow r (c :: a ++ 0 :: b) with
    | some x =>
      rw [hr] at h; simp only [Option.some.injEq] at h; subst h
      obtain ⟨rest', h1, h2⟩ := afterRow_cut_cons (hs r (by simp)).1 (hs r (by simp)).2 hr
      exact ⟨rest', h1, by rw [h2]⟩
    | none =>
      rw [hr] at h
      have hnone : afterRow r (c :: a) = none := by
        cases hx : afterRow r (c :: a) with
        | none => rfl
        | some x => rw [afterRow_append _ hx] at hr; simp at hr
      rw [hnone]
      exact ih (fun row hrow => hs row (by simp [hrow])) h

theorem afterSequence_shorter {c : Byte} {bs rest : List Byte} (h : afterSequence utf8Rows (c :: bs) = some rest) :
    rest.length ≤ bs.length := by
  obtain ⟨row, hrow, hm⟩ := afterSequence_row h
  have h1 := afterRow_length hm
  have h2 : 0 < row.length := List.length_pos_iff.mpr (utf8Rows_shape row hrow).1
  simp only [List.length_cons] at h1
  omega

/-- More rounds than bytes change nothing. -/
theorem utf8Within_enough (f g : Nat) (bs : List Byte) (hf : bs.length ≤ f) (hg : bs.length ≤ g) :
    utf8Within f bs = utf8Within g bs := by
  induction f generalizing g bs with
  | zero => cases bs with
    | nil => cases g <;> rfl
    | cons b bs => simp at hf
  | succ f ih =>
    cases bs with
    | nil => cases g <;> rfl
    | cons b bs =>
      cases g with
      | zero => simp at hg
      | succ g =>
        simp only [utf8Within]
        cases h : afterSequence utf8Rows (b :: bs) with
        | none => rfl
        | some rest =>
          have := afterSequence_shorter h
          simp only [List.length_cons] at hf hg
          exact ih g rest (by omega) (by omega)

@[simp] theorem wellFormedUtf8_nil : wellFormedUtf8 [] = true := rfl

theorem wellFormedUtf8_cons (b : Byte) (bs : List Byte) :
    wellFormedUtf8 (b :: bs) = match afterSequence utf8Rows (b :: bs) with
      | none => false
      | some rest => wellFormedUtf8 rest := by
  simp only [wellFormedUtf8, List.length_cons, utf8Within]
  cases h : afterSequence utf8Rows (b :: bs) with
  | none => rfl
  | some rest => exact utf8Within_enough _ _ _ (afterSequence_shorter h) (Nat.le_refl _)

/-- Well-formed UTF-8 is closed under concatenation (R180). -/
theorem wellFormedUtf8_append (n : Nat) (a b : List Byte) (hn : a.length ≤ n) (ha : wellFormedUtf8 a = true)
    (hb : wellFormedUtf8 b = true) : wellFormedUtf8 (a ++ b) = true := by
  induction n generalizing a with
  | zero => rw [List.length_eq_zero_iff.mp (show a.length = 0 by omega)]; exact hb
  | succ n ih =>
    cases a with
    | nil => exact hb
    | cons c a =>
      rw [wellFormedUtf8_cons] at ha
      cases h : afterSequence utf8Rows (c :: a) with
      | none => rw [h] at ha; simp at ha
      | some rest =>
        rw [h] at ha
        rw [List.cons_append, wellFormedUtf8_cons,
          show afterSequence utf8Rows (c :: (a ++ b)) = some (rest ++ b) from
            afterSequence_append b (fun row hr => (utf8Rows_shape row hr).1) utf8Rows_rising h]
        have := afterSequence_shorter h
        simp only [List.length_cons] at hn
        exact ih rest (by omega) ha

/-- What follows well-formed UTF-8 in well-formed UTF-8 is well-formed. -/
theorem wellFormedUtf8_cancel (n : Nat) (a b : List Byte) (hn : a.length ≤ n) (ha : wellFormedUtf8 a = true)
    (h : wellFormedUtf8 (a ++ b) = true) : wellFormedUtf8 b = true := by
  induction n generalizing a with
  | zero => rw [List.length_eq_zero_iff.mp (show a.length = 0 by omega)] at h; exact h
  | succ n ih =>
    cases a with
    | nil => exact h
    | cons c a =>
      rw [wellFormedUtf8_cons] at ha
      cases hs : afterSequence utf8Rows (c :: a) with
      | none => rw [hs] at ha; simp at ha
      | some rest =>
        rw [hs] at ha
        rw [List.cons_append, wellFormedUtf8_cons,
          show afterSequence utf8Rows (c :: (a ++ b)) = some (rest ++ b) from
            afterSequence_append b (fun row hr => (utf8Rows_shape row hr).1) utf8Rows_rising hs] at h
        have := afterSequence_shorter hs
        simp only [List.length_cons] at hn
        exact ih rest (by omega) ha h

/-- The bytes a row eats are those that lie in its ranges, one by one. -/
theorem afterRow_iff (row : List (Nat × Nat)) (bs rest : List Byte) :
    afterRow row bs = some rest ↔
      ∃ p, bs = p ++ rest ∧ List.Forall₂ (fun e b => inBytes e.1 e.2 b) row p := by
  induction row generalizing bs with
  | nil =>
    constructor
    · intro h; exact ⟨[], by simpa [afterRow] using h, .nil⟩
    · rintro ⟨p, rfl, h⟩; cases h; rfl
  | cons e row ih =>
    obtain ⟨lo, hi⟩ := e
    cases bs with
    | nil =>
      refine ⟨fun h => absurd h (by simp [afterRow]), ?_⟩
      rintro ⟨p, h, hp⟩; cases hp; simp at h
    | cons b bs =>
      simp only [afterRow]
      constructor
      · intro h
        split at h
        · rename_i hb; obtain ⟨p, rfl, hp⟩ := (ih bs).mp h; exact ⟨b :: p, rfl, .cons hb hp⟩
        · simp at h
      · rintro ⟨p, h, hp⟩
        cases hp with
        | cons hb hp =>
          simp only [List.cons_append, List.cons.injEq] at h
          obtain ⟨rfl, rfl⟩ := h
          rw [if_pos (show lo ≤ b.toNat ∧ b.toNat ≤ hi from hb)]; exact (ih _).mpr ⟨_, rfl, hp⟩

/-- A row that matches is the one that is found. -/
theorem afterSequence_of_row {rows : List (List (Nat × Nat))} {c : Byte} {a rest : List Byte} (hs : ∀ row ∈ rows, row ≠ [])
    (hp : rows.Pairwise fun r r' => ∀ e ∈ r.head?, ∀ e' ∈ r'.head?, e.2 < e'.1) {row : List (Nat × Nat)} (hr : row ∈ rows)
    (h : afterRow row (c :: a) = some rest) : afterSequence rows (c :: a) = some rest := by
  induction rows with
  | nil => simp at hr
  | cons r rows ih =>
    simp only [afterSequence, List.findSome?_cons]
    rw [List.pairwise_cons] at hp
    rcases List.mem_cons.mp hr with rfl | hr
    · rw [h]
    · have hnone : afterRow r (c :: a) = none := by
        cases hx : afterRow r (c :: a) with
        | none => rfl
        | some x =>
          obtain ⟨e, he, -, h2⟩ := afterRow_head hx (hs r (by simp))
          obtain ⟨e', he', h1', -⟩ := afterRow_head h (hs row (by simp [hr]))
          have := hp.1 row hr e he e' he'
          omega
      rw [hnone]; exact ih (fun row hrow => hs row (by simp [hrow])) hp.2 hr

/-- The rows are the table of R180. -/
theorem utf8Sequence_iff (p : List Byte) :
    Utf8Sequence p ↔ ∃ row ∈ utf8Rows, List.Forall₂ (fun e b => inBytes e.1 e.2 b) row p := by
  simp only [utf8Rows, List.mem_cons, List.not_mem_nil, or_false, exists_eq_or_imp, exists_eq_left]
  rcases p with _ | ⟨a, _ | ⟨b, _ | ⟨c, _ | ⟨d, _ | ⟨e, p⟩⟩⟩⟩⟩ <;>
    simp only [Utf8Sequence, List.forall₂_cons, List.forall₂_nil_left_iff, List.forall₂_nil_right_iff, reduceCtorEq, and_false, and_true,
      or_false, false_or, or_self]
  · tauto
  · tauto

/-- Cutting well-formed UTF-8 before a zero byte leaves it well-formed (R185). -/
theorem wellFormedUtf8_cut (n : Nat) (a b : List Byte) (hn : a.length ≤ n) (h : wellFormedUtf8 (a ++ 0 :: b) = true) :
    wellFormedUtf8 a = true := by
  induction n generalizing a with
  | zero => rw [List.length_eq_zero_iff.mp (show a.length = 0 by omega)]; rfl
  | succ n ih =>
    cases a with
    | nil => rfl
    | cons c a =>
      rw [List.cons_append, wellFormedUtf8_cons] at h
      cases hs : afterSequence utf8Rows (c :: (a ++ 0 :: b)) with
      | none => rw [hs] at h; simp at h
      | some rest =>
        rw [hs] at h
        obtain ⟨rest', rfl, h2⟩ := afterSequence_cut utf8Rows_shape hs
        rw [wellFormedUtf8_cons, h2]
        have := afterSequence_shorter h2
        simp only [List.length_cons] at hn
        exact ih rest' (by omega) h

/-! ### The host's moves (R91) -/

theorem step_cons {s : State} {m : Move} {rest : List Move} (h : s.script = m :: rest) :
    step s = runMove m { s with script := rest } := by simp [step, h]

/-- A host write. -/
theorem step_wr {s : State} {r : Reg} {v : Word} {rest : List Move} (h : s.script = .wr r v :: rest) :
    step s = writeReg r v { s with script := rest } := step_cons h

theorem writtenByte_fits {v : Word} (h : v.toNat < 256) (d : Nat) :
    writtenByte v d = v.setWidth 8 ∧ writtenDraws v d = d := ⟨if_pos h, if_pos h⟩

theorem readCells_length (cells : List Host.Cell) (i n d : Nat) : (readCells cells i n d).1.length = n := by
  induction n generalizing i d with
  | zero => rfl
  | succ n ih =>
    simp only [readCells]
    cases lookupCell i cells <;> simp [ih]

/-- A cell with a specified value gives it. -/
theorem readCells_getElem? (cells : List Host.Cell) (i n d j : Nat) {b : Byte} (hj : j < n) (h : lookupCell (i + j) cells = some b) :
    (readCells cells i n d).1[j]? = some b := by
  induction n generalizing i d j with
  | zero => omega
  | succ n ih =>
    simp only [readCells]
    cases j with
    | zero => rw [Nat.add_zero] at h; rw [h]; rfl
    | succ j =>
      have h' : lookupCell (i + 1 + j) cells = some b := by rw [← h]; congr 1; omega
      cases lookupCell i cells with
      | some x => simpa using ih (i + 1) d j (by omega) h'
      | none => simpa using ih (i + 1) (d + 1) j (by omega) h'

/-! ### What an instruction can do: one inversion per shared operation -/

/-- The state ENCODE leaves for an input. -/
def encodedState (s : State) (input : List Byte) : State :=
  { s with
    canvas := (paint (overflowPass s.base (chunkBytes input)) s.pixelSize.toNat).2
    plan := planOf (overflowPass s.base (chunkBytes input)) s.pixelSize.toNat, status := withErr 0 s.status, seq := Seq.initial }

/-- The state PLAN leaves for an input. -/
def plannedState (s : State) (input : List Byte) : State :=
  { s with
    plan := planOf (overflowPass s.base (chunkBytes input)) s.pixelSize.toNat, status := withErr 0 s.status, seq := Seq.initial }

/-- The state DECODE leaves for a finished scan whose text is legal. -/
def decodedState (s : State) (q : Seq) : State :=
  { s with
    status := withErr 0 (withPhase (phaseBit q.phase) s.status)
    obuf := cellsFrom 0 (decoded q)
    olen := outputLength (decoded q).length s.draws
    draws := if (decoded q).length < 4294967296 then s.draws else s.draws + 1
    seq := Seq.initial }

theorem execEncode_next {s t : State} (h : exec .encode s = .next t) :
    (765 < s.ilen.toNat ∧ t = raise .inputTooLarge s) ∨ (badPixelSize s = true ∧ t = raise .invalidPixelSize s) ∨
      ∃ input, s.hasInput input ∧ t = encodedState s input := by
  rcases withInput_cases s with ⟨hc, e⟩ | ⟨hc, e⟩ | e | ⟨input, e⟩
  · rw [show exec .encode s = _ from e _] at h; cases h; exact .inl ⟨hc, rfl⟩
  · rw [show exec .encode s = _ from e _] at h; cases h; exact .inr (.inl ⟨hc, rfl⟩)
  · rw [show exec .encode s = _ from e _] at h; cases h
  · rw [execEncode_ok e] at h; cases h; exact .inr (.inr ⟨input, e, rfl⟩)

theorem execPlan_next {s t : State} (h : exec .plan s = .next t) :
    (765 < s.ilen.toNat ∧ t = raise .inputTooLarge s) ∨ (badPixelSize s = true ∧ t = raise .invalidPixelSize s) ∨
      ∃ input, s.hasInput input ∧ t = plannedState s input := by
  rcases withInput_cases s with ⟨hc, e⟩ | ⟨hc, e⟩ | e | ⟨input, e⟩
  · rw [show exec .plan s = _ from e _] at h; cases h; exact .inl ⟨hc, rfl⟩
  · rw [show exec .plan s = _ from e _] at h; cases h; exact .inr (.inl ⟨hc, rfl⟩)
  · rw [show exec .plan s = _ from e _] at h; cases h
  · rw [execPlan_ok e] at h; cases h; exact .inr (.inr ⟨input, e, rfl⟩)

theorem execDecode_next {s t : State} (h : exec .decode s = .next t) :
    (badPixelSize s = true ∧ t = raise .invalidPixelSize s) ∨ t = raise .bufferOverrun s ∨
    ∃ q, scanCanvas s.cfg.obufCap s.base s.canvas s.pixelSize.toNat = some q ∧
      (t = raise .invalidEncoding { s with seq := corrected q } ∨ legalText s.cfg.textRule (decoded q) = true ∧ t = decodedState s q) := by
  rcases execDecode_cases s with ⟨hb, e⟩ | e | ⟨q, hq, ⟨-, e⟩ | ⟨ht, e⟩⟩
  · rw [e] at h; cases h; exact .inl ⟨hb, rfl⟩
  · rw [e] at h; cases h; exact .inr (.inl rfl)
  · rw [e] at h; cases h; exact .inr (.inr ⟨q, hq, .inl rfl⟩)
  · rw [e] at h; cases h; exact .inr (.inr ⟨q, hq, .inr ⟨ht, rfl⟩⟩)

theorem emitAlone_next {z : Zone} {p : Pixel} {s t : State} (h : emitAlone z p s = .next t) :
    ∃ a d, s.canvas.covers a = true ∧ t = { s with seq := advance z s.seq, canvas := s.canvas.fill a p, draws := d } := by
  rw [emitAlone_eq] at h
  cases hw : writeBlock s.seq.k s.seq.cols p s with
  | next u => rw [hw] at h; cases h; obtain ⟨a, d, hc, rfl⟩ := writeBlock_next hw; exact ⟨a, d, hc, rfl⟩
  | fault f => rw [hw] at h; cases h
  | refused r => rw [hw] at h; cases h

/-- Everything an instruction that completes can have done, by the shared operation behind it. -/
inductive Effect (i : Instr) (s : State) : State → Prop where
  /-- One of the errors an instruction raises; BufferOverrun and InvalidEncoding only from the four named. -/
  | inputTooLarge (h : i = .encode ∨ i = .plan) : Effect i s (raise .inputTooLarge s)
  | invalidPixelSize (h : i = .encode ∨ i = .plan ∨ i = .decode) : Effect i s (raise .invalidPixelSize s)
  | illegalCommand (code : Byte) (h : i = .cmdReserved code) : Effect i s (raise .illegalCommand s)
  | bufferOverrun (h : i = .decode ∨ (∃ d, i = .unpack d) ∨ ∃ p, i = .decData p) : Effect i s (raise .bufferOverrun s)
  | invalidEncoding (q : Seq) (h : i = .decode ∨ i = .textchk) : Effect i s (raise .invalidEncoding { s with seq := q })
  | encoded (input : List Byte) (h : i = .encode) (hi : s.hasInput input) : Effect i s (encodedState s input)
  | planned (input : List Byte) (h : i = .plan) (hi : s.hasInput input) : Effect i s (plannedState s input)
  | decoded (q : Seq) (h : i = .decode) (hq : scanCanvas s.cfg.obufCap s.base s.canvas s.pixelSize.toNat = some q)
      (ht : legalText s.cfg.textRule (decoded q) = true) : Effect i s (decodedState s q)
  | block (a : Area) (d : Nat) (z : Zone) (p : Pixel) (h : (blockPixel i).isSome = true) (hf : s.canvas.covers a = true) :
      Effect i s { s with seq := advance z s.seq, canvas := s.canvas.fill a p, draws := d }
  | wrblk (a : Area) (d : Nat) (k m : Nat) (p : Pixel) (h : i = .wrblk k m p) (hf : s.canvas.covers a = true) :
      Effect i s { s with canvas := s.canvas.fill a p, draws := d }
  /-- An operation of a sub-unit: the hidden sequencer (kept legal), the result port and the draw counter. -/
  | unit (q : Seq) (r : OpResult) (d : Nat) (hq : seqLegal s.cfg.obufCap s.seq = true → seqLegal s.cfg.obufCap q = true) :
      Effect i s { s with seq := q, result := r, draws := d }

theorem exec_effect {i : Instr} {s t : State} (h : exec i s = .next t) : Effect i s t := by
  cases i with
  | encode =>
    rcases execEncode_next h with ⟨-, rfl⟩ | ⟨-, rfl⟩ | ⟨input, hi, rfl⟩
    · exact .inputTooLarge (.inl rfl)
    · exact .invalidPixelSize (.inl rfl)
    · exact .encoded input rfl hi
  | plan =>
    rcases execPlan_next h with ⟨-, rfl⟩ | ⟨-, rfl⟩ | ⟨input, hi, rfl⟩
    · exact .inputTooLarge (.inr rfl)
    · exact .invalidPixelSize (.inr (.inl rfl))
    · exact .planned input rfl hi
  | decode =>
    rcases execDecode_next h with ⟨-, rfl⟩ | rfl | ⟨q, hq, rfl | ⟨ht, rfl⟩⟩
    · exact .invalidPixelSize (.inr (.inr rfl))
    · exact .bufferOverrun (.inl rfl)
    · exact .invalidEncoding _ (.inl rfl)
    · exact .decoded q rfl hq ht
  | cmdReserved code => cases h; exact .illegalCommand code rfl
  | blkData r g b => obtain ⟨a, d, hf, rfl⟩ := emitAlone_next h; exact .block a d _ _ rfl hf
  | blkSep => obtain ⟨a, d, hf, rfl⟩ := emitAlone_next h; exact .block a d _ _ rfl hf
  | blkOvfR idx mag => obtain ⟨a, d, hf, rfl⟩ := emitAlone_next h; exact .block a d _ _ rfl hf
  | blkOvfG idx mag => obtain ⟨a, d, hf, rfl⟩ := emitAlone_next h; exact .block a d _ _ rfl hf
  | blkOvfB idx mag => obtain ⟨a, d, hf, rfl⟩ := emitAlone_next h; exact .block a d _ _ rfl hf
  | decSep =>
    simp only [exec, execDecSep] at h
    split at h
    · rename_i hc; cases h
      exact .unit (stepSep s.seq) s.result s.draws (scanStep_legal (base := s.base) (p := Pixel.zero) (by simp [scanStep, hc]))
    · cases h
  | decData p =>
    simp only [exec, execDecData] at h
    split at h
    · rename_i hc
      cases hd : stepData s.cfg.obufCap s.base p s.seq with
      | some q =>
        rw [hd] at h; cases h
        exact .unit q s.result s.draws (scanStep_legal (base := s.base) (p := p) (by simp [scanStep, hc, hd]))
      | none => rw [hd] at h; cases h; exact .bufferOverrun (.inr (.inr ⟨p, rfl⟩))
    · cases h
  | decSkip r g b =>
    simp only [exec, execDecSkip] at h
    split at h
    · rename_i hc; cases h
      exact .unit (stepSkip s.seq) s.result s.draws (scanStep_legal (base := s.base) (p := ⟨r, g, b, 0⟩) (by simp only [scanStep, hc]))
    · cases h
  | decRec p =>
    simp only [exec, execDecRec] at h
    split at h
    · rename_i hc; cases h
      exact .unit (stepRecord p s.seq) s.result s.draws (scanStep_legal (base := s.base) (p := p) (by simp [scanStep, hc]))
    · cases h
  | chunk =>
    simp only [exec, execChunk] at h
    split at h
    · split at h
      · cases h; exact .unit s.seq _ s.draws id
      · cases h
    · cases h
  | unpack d =>
    simp only [exec, execUnpack] at h
    cases hu : unpackBytes s.cfg.obufCap s.seq.buf d with
    | some buf =>
      rw [hu] at h; cases h
      refine .unit _ _ s.draws fun hq => ?_
      obtain ⟨rfl, hw⟩ := unpackBytes_some hu
      rw [seqLegal_iff] at hq ⊢
      simp only [List.length_append, rgbBytes, List.length_cons, List.length_nil]
      exact ⟨by omega, hw, by omega, hq.2.2.2⟩
    | none => rw [hu] at h; cases h; exact .bufferOverrun (.inr (.inl ⟨d, rfl⟩))
  | strip =>
    cases h
    refine .unit _ _ s.draws fun hq => ?_
    rw [seqLegal_iff] at hq ⊢
    exact ⟨hq.1, hq.2.1, stripZeros_length_le _, hq.2.2.2⟩
  | clampadd b d =>
    simp only [exec, execClampadd] at h
    split at h
    · cases h; exact .unit s.seq _ s.draws id
    · cases h; exact .unit s.seq _ _ id
  | ovfrec n c =>
    simp only [exec, execOvfrec] at h
    split at h
    · cases h; exact .unit s.seq _ s.draws id
    · cases h; exact .unit s.seq _ _ id
  | countOverflow cs => cases h; exact .unit s.seq _ s.draws id
  | recpack r =>
    simp only [exec, execRecpack] at h
    split at h
    · cases h; exact .unit s.seq _ s.draws id
    · cases h; exact .unit s.seq _ _ id
  | recunpack p =>
    simp only [exec, execRecunpack] at h
    split at h
    · cases h; exact .unit s.seq _ s.draws id
    · cases h; exact .unit s.seq _ _ id
  | total nch novf =>
    obtain ⟨v, d, e, -⟩ := answerNat_next (decide (nch ≤ Config.chunkMax) && decide (novf ≤ Config.ovfMax)) (totalBlocks nch novf) s
    rw [show exec (.total nch novf) s = _ from e] at h; cases h; exact .unit s.seq _ d id
  | csqrt t =>
    obtain ⟨v, d, e, -⟩ := answerNat_next (decide (1 ≤ t) && decide (t ≤ Config.nMax * Config.nMax)) (ceilSqrt t) s
    rw [show exec (.csqrt t) s = _ from e] at h; cases h; exact .unit s.seq _ d id
  | side n =>
    obtain ⟨v, d, e, -⟩ := answerNat_next (decide (1 ≤ n) && decide (n ≤ Config.nMax) && !badPixelSize s) (sideOf n s.pixelSize.toNat) s
    rw [show exec (.side n) s = _ from e] at h; cases h; exact .unit s.seq _ d id
  | blkaddr k m => cases h; exact .unit s.seq _ _ id
  | wrblk k m p => obtain ⟨a, d, hf, rfl⟩ := writeBlock_next h; exact .wrblk a d k m p rfl hf
  | issep p => cases h; exact .unit s.seq _ s.draws id
  | diff p => cases h; exact .unit s.seq _ s.draws id
  | apply t =>
    cases h
    refine .unit _ _ s.draws fun hq => ?_
    rw [seqLegal_iff] at hq ⊢
    simp only [applyTriple_length]
    exact hq
  | textchk =>
    simp only [exec, execTextchk] at h
    split at h
    · cases h; exact .unit s.seq _ s.draws id
    · cases h; exact .invalidEncoding s.seq (.inr rfl)

/-! ### The invariant -/

theorem statusLegal_iff (st : BitVec 8) :
    statusLegal st = true ↔ statusHigh st = 0 ∧ statusErr st ≠ 4 ∧ statusErr st ≠ 7 := by
  simp only [statusLegal, Bool.and_eq_true, decide_eq_true_eq, and_assoc]

theorem statusLegal_raise (e : Error) {s : State} (h : statusLegal s.status = true) : statusLegal (raise e s).status = true := by
  rw [statusLegal_iff] at h ⊢
  rw [statusHigh_raise, statusErr_raise]
  exact ⟨h.1, by cases e <;> decide, by cases e <;> decide⟩

theorem planLegal_planOf {base : Rgb} {cs : List Rgb} {size : Nat} (hl : cs.length ≤ 255) (h0 : 0 < size)
    (hs : size ≤ 134217727) : planLegal (planOf (overflowPass base cs) size) = true := by
  have hc := countOverflow_le base cs
  have ht := passTotal_eq base cs
  have hn := ceilSqrt_le_nMax (passTotal_le (base := base) hl)
  have hpos := ceilSqrt_pos (t := passTotal (overflowPass base cs)) (by omega)
  have hside := side_fits (base := base) hl hs
  simp only [Config.nMax] at hn
  have e1 : (planOf (overflowPass base cs) size).nchunk.toNat = cs.length := by
    simp only [planOf, overflowPass_colors, List.length_map, BitVec.toNat_ofNat]; omega
  have e2 : (planOf (overflowPass base cs) size).novf.toNat = countOverflow base cs := by
    simp only [planOf, overflowPass_orb, recordsFrom_length, BitVec.toNat_ofNat]; omega
  have e3 : (planOf (overflowPass base cs) size).total.toNat = passTotal (overflowPass base cs) := by
    simp only [planOf, BitVec.toNat_ofNat]; omega
  have e4 : (planOf (overflowPass base cs) size).nside.toNat = ceilSqrt (passTotal (overflowPass base cs)) := by
    simp only [planOf, BitVec.toNat_ofNat]; omega
  have e5 : (planOf (overflowPass base cs) size).side.toNat = ceilSqrt (passTotal (overflowPass base cs)) * size := by
    simp only [planOf, sideOf, BitVec.toNat_ofNat]; omega
  simp only [planLegal, Bool.or_eq_true, Bool.and_eq_true, decide_eq_true_eq, e1, e2, e3, e4, e5]
  exact .inr ⟨⟨⟨⟨by omega, by omega⟩, trivial⟩, hpos, Nat.le_mul_of_pos_right _ h0⟩, Nat.mul_mod_right _ _⟩

theorem outputLegal_empty {s : State} (h1 : s.obuf = []) (h2 : s.olen = 0) : outputLegal s = true := by
  have : withinObuf s.cfg.obufCap 0 = true := by cases s.cfg.obufCap <;> simp [withinObuf]
  simp [outputLegal, h1, h2, cellBytes, cellsFrom, legalText, this]

theorem outputLegal_agree {s t : State} (h1 : t.obuf = s.obuf) (h2 : t.olen = s.olen) (h3 : t.cfg = s.cfg)
    (h : outputLegal s = true) : outputLegal t = true := by
  simpa only [outputLegal, h1, h2, h3] using h

theorem scanCanvas_legal {cap : Option Nat} {base : Rgb} {c : Canvas} {size : Nat} {q : Seq}
    (h : scanCanvas cap base c size = some q) : seqLegal cap q = true := by
  rw [scanCanvas_eq] at h
  refine scanList_legal h ?_
  have := seqLegal_initial cap
  rw [seqLegal_iff] at this ⊢
  exact this

/-- A decoded sequence fits `OBUF`. -/
theorem decoded_within {cap : Option Nat} {base : Rgb} {c : Canvas} {size : Nat} {q : Seq}
    (h : scanCanvas cap base c size = some q) : withinObuf cap (decoded q).length = true := by
  have hq := (seqLegal_iff _ _).mp (scanCanvas_legal h)
  refine withinObuf_mono ?_ hq.2.1
  have := stripZeros_length_le (q.recs.foldl applyTriple q.buf)
  rw [foldl_applyTriple_length] at this
  exact this

theorem outputLegal_decoded {s : State} {q : Seq} (hq : scanCanvas s.cfg.obufCap s.base s.canvas s.pixelSize.toNat = some q)
    (ht : legalText s.cfg.textRule (decoded q) = true) : outputLegal (decodedState s q) = true := by
  have hw := decoded_within hq
  have hs : stripZeros (decoded q) = decoded q := stripZeros_idem _
  simp only [outputLegal, decodedState, cellBytes_cellsFrom, cellsFrom_length, ht, hs, decide_true, Bool.and_true,
    Bool.true_and, Bool.and_eq_true, Bool.or_eq_true, decide_eq_true_eq]
  by_cases hl : (decoded q).length < 4294967296
  · exact ⟨.inl (outputLength_toNat _ hl), by rw [outputLength_toNat _ hl]; exact hw⟩
  · refine ⟨.inr (by omega), withinObuf_mono ?_ hw⟩
    have := (outputLength (decoded q).length s.draws).isLt
    omega

theorem advance_legal {cap : Option Nat} (z : Zone) {q : Seq} (h : seqLegal cap q = true) : seqLegal cap (advance z q) = true := by
  cases z <;> exact h

theorem raise_inv (e : Error) {s : State} (h : s.Inv) : (raise e s).Inv where
  cfg := by rw [raise_cfg]; exact h.cfg
  memory := Memory.wf_raise h.memory e
  status := statusLegal_raise e h.status
  plan := by rw [raise_plan]; exact h.plan
  output := by
    cases e
    · exact outputLegal_agree rfl rfl rfl h.output
    · exact outputLegal_agree rfl rfl rfl h.output
    · exact outputLegal_empty rfl rfl
    · exact outputLegal_agree rfl rfl rfl h.output
    · exact outputLegal_empty rfl rfl
  seq := by
    cases e
    · exact h.seq
    · exact h.seq
    · exact seqLegal_initial _
    · exact h.seq
    · exact seqLegal_initial _


/-- Every instruction keeps the invariant. -/
theorem exec_inv {i : Instr} {s t : State} (hi : s.Inv) (h : exec i s = .next t) : t.Inv := by
  have hsz : ∀ input, s.hasInput input → (chunkBytes input).length ≤ 255 ∧ 0 < s.pixelSize.toNat ∧ s.pixelSize.toNat ≤ 134217727 :=
    fun input hin => ⟨hasInput_chunks hin, (pixelSize_usable hin.2.1).1, Nat.le_trans (pixelSize_usable hin.2.1).2 (cfg_sizeMax hi.cfg)⟩
  have hst : ∀ st : BitVec 8, statusHigh st = 0 → statusLegal (withErr 0 st) = true := fun st hs => by
    rw [statusLegal_iff]; simp [hs]
  have hhigh := ((statusLegal_iff _).mp hi.status).1
  cases exec_effect h with
  | inputTooLarge => exact raise_inv _ hi
  | invalidPixelSize => exact raise_inv _ hi
  | illegalCommand => exact raise_inv _ hi
  | bufferOverrun => exact raise_inv _ hi
  | invalidEncoding q =>
    have hb := raise_inv .bufferOverrun hi
    exact ⟨hi.cfg, hb.memory, by
      have := statusLegal_raise .invalidEncoding (s := { s with seq := q }) hi.status
      exact this, hi.plan, outputLegal_empty rfl rfl, seqLegal_initial _⟩
  | encoded input _ hin =>
    obtain ⟨h1, h2, h3⟩ := hsz input hin
    exact ⟨hi.cfg, Memory.wf_canvas hi.memory (paint_wf (side_fits h1 h3)), hst _ hhigh, planLegal_planOf h1 h2 h3,
      outputLegal_agree rfl rfl rfl hi.output, seqLegal_initial _⟩
  | planned input _ hin =>
    obtain ⟨h1, h2, h3⟩ := hsz input hin
    exact ⟨hi.cfg, hi.memory, hst _ hhigh, planLegal_planOf h1 h2 h3, outputLegal_agree rfl rfl rfl hi.output, seqLegal_initial _⟩
  | decoded q _ hq ht =>
    exact ⟨hi.cfg, Memory.wf_obuf hi.memory (decoded_within hq), hst _ (by simpa using hhigh), hi.plan,
      outputLegal_decoded hq ht, seqLegal_initial _⟩
  | block a d z p _ hf =>
    exact ⟨hi.cfg, Memory.wf_canvas hi.memory (Canvas.fill_wf ((Memory.wf_iff s).mp hi.memory).1 hf p), hi.status, hi.plan,
      outputLegal_agree rfl rfl rfl hi.output, advance_legal z hi.seq⟩
  | wrblk a d k m p _ hf =>
    exact ⟨hi.cfg, Memory.wf_canvas hi.memory (Canvas.fill_wf ((Memory.wf_iff s).mp hi.memory).1 hf p), hi.status, hi.plan,
      outputLegal_agree rfl rfl rfl hi.output, hi.seq⟩
  | unit q r d hq => exact ⟨hi.cfg, hi.memory, hi.status, hi.plan, outputLegal_agree rfl rfl rfl hi.output, hq hi.seq⟩

theorem runBytes_next {l : Lane} {bs : List Byte} {s t : State} (h : runBytes l bs s = .next t) : ∃ i, exec i s = .next t := by
  unfold runBytes at h; split at h
  · exact ⟨_, h⟩
  · cases h

/-- The pending moves are no part of the invariant. -/
theorem inv_script {s : State} (h : s.Inv) (ms : List Move) : ({ s with script := ms } : State).Inv :=
  ⟨h.cfg, h.memory, h.status, h.plan, h.output, h.seq⟩

theorem writeReg_inv {r : Reg} {v : Word} {s t : State} (hi : s.Inv) (h : writeReg r v s = .next t) : t.Inv := by
  cases r <;> simp only [writeReg] at h
  case cmd =>
    split at h
    · obtain ⟨i, hx⟩ := runBytes_next h; exact exec_inv hi hx
    · cases h; exact raise_inv _ hi
  all_goals cases h
  all_goals exact ⟨hi.cfg, hi.memory, hi.status, hi.plan, hi.output, hi.seq⟩

theorem runMove_inv {m : Move} {s t : State} (hi : s.Inv) (h : runMove m s = .next t) : t.Inv := by
  cases m <;> simp only [runMove] at h
  case wr r v =>
    exact writeReg_inv hi h
  case wrb i bs =>
    split at h
    · rename_i hb; cases h
      exact ⟨hi.cfg, Memory.wf_ibuf hi.memory hb, hi.status, hi.plan, hi.output, hi.seq⟩
    · cases h
  case rd r => cases h; exact ⟨hi.cfg, hi.memory, hi.status, hi.plan, hi.output, hi.seq⟩
  case rdb b i n =>
    split at h
    · cases h; exact ⟨hi.cfg, hi.memory, hi.status, hi.plan, hi.output, hi.seq⟩
    · cases h
  case new w h' =>
    cases h
    exact ⟨hi.cfg, Memory.wf_canvas hi.memory (Canvas.new_wf _ _), hi.status, hi.plan, hi.output, hi.seq⟩
  case set x y p =>
    split at h
    · rename_i hxy; cases h
      exact ⟨hi.cfg, Memory.wf_canvas hi.memory (Canvas.put_wf ((Memory.wf_iff s).mp hi.memory).1 hxy p), hi.status, hi.plan, hi.output, hi.seq⟩
    · cases h
  case get x y =>
    split at h
    · cases h; exact ⟨hi.cfg, hi.memory, hi.status, hi.plan, hi.output, hi.seq⟩
    · cases h
  case reset =>
    cases h
    exact ⟨hi.cfg, Memory.wf_reset, show statusLegal 0 = true by decide, show planLegal ⟨0, 0, 0, 0, 0⟩ = true by decide,
      outputLegal_empty rfl rfl, seqLegal_initial _⟩
  case emit z bs => obtain ⟨i, hx⟩ := runBytes_next h; exact exec_inv hi hx
  case sample bs => obtain ⟨i, hx⟩ := runBytes_next h; exact exec_inv hi hx
  case op i => exact exec_inv hi h

/-- No instruction writes what a host move writes. -/
theorem exec_host {i : Instr} {s t : State} (h : exec i s = .next t) :
    t.cfg = s.cfg ∧ t.pixelSize = s.pixelSize ∧ t.base = s.base ∧ t.ilen = s.ilen ∧ t.ibuf = s.ibuf ∧
      t.script = s.script ∧ t.rdata = s.rdata := by
  cases exec_effect h <;> simp [encodedState, plannedState, decodedState]

theorem runMove_cfg {m : Move} {s t : State} (h : runMove m s = .next t) : t.cfg = s.cfg := by
  have hx : ∀ {l bs}, runBytes l bs s = .next t → t.cfg = s.cfg := fun h => by
    obtain ⟨i, hx⟩ := runBytes_next h; exact (exec_host hx).1
  cases m <;> simp only [runMove] at h
  case wr r v =>
    cases r <;> simp only [writeReg] at h
    case cmd =>
      split at h
      · exact hx h
      · cases h; simp
    all_goals cases h
    all_goals rfl
  case wrb => split at h <;> cases h; rfl
  case rd => cases h; rfl
  case rdb => split at h <;> cases h; rfl
  case new => cases h; rfl
  case set => split at h <;> cases h; rfl
  case get => split at h <;> cases h; rfl
  case reset => cases h; rfl
  case emit => exact hx h
  case sample => exact hx h
  case op => exact (exec_host h).1

/-- On states that agree in what the host sees and in the draw counter, a command ends alike (R43). -/
theorem command_agree {i : Instr} {s s' : State} (hi : i = .encode ∨ i = .plan ∨ i = .decode) (hv : s'.visible = s.visible)
    (hd : s'.draws = s.draws) :
    (∃ t t', exec i s = .next t ∧ exec i s' = .next t' ∧ t'.visible = t.visible) ∨
      ∃ r, exec i s = .refused r ∧ exec i s' = .refused r := by
  simp only [State.visible, Visible.mk.injEq] at hv
  obtain ⟨e1, e2, e3, e4, e5, e6, e7, e8, e9, e10⟩ := hv
  have hb : badPixelSize s' = badPixelSize s := by simp only [badPixelSize, e1, e3]
  have hr : readInput s'.ibuf 0 s'.ilen.toNat = readInput s.ibuf 0 s.ilen.toNat := by rw [e5, e9]
  have hwi : ∀ go go' : List Byte → Answer, (∀ input, ∃ t t', go input = .next t ∧ go' input = .next t' ∧ t'.visible = t.visible) →
      (∃ t t', withInput s go = .next t ∧ withInput s' go' = .next t' ∧ t'.visible = t.visible) ∨
      ∃ r, withInput s go = .refused r ∧ withInput s' go' = .refused r := by
    intro go go' hgo
    by_cases hl : 765 < s.ilen.toNat
    · exact .inl ⟨_, _, withInput_long _ hl, withInput_long _ (by rw [e5]; exact hl), by
        simp only [raise, State.visible, e1, e2, e3, e4, e5, e6, e7, e8, e9, e10]⟩
    by_cases hbad : badPixelSize s = true
    · exact .inl ⟨_, _, withInput_badSize _ (by omega) hbad, withInput_badSize _ (by rw [e5]; omega) (hb.trans hbad), by
        simp only [raise, State.visible, e1, e2, e3, e4, e5, e6, e7, e8, e9, e10]⟩
    replace hbad : badPixelSize s = false := by simpa using hbad
    cases hread : readInput s.ibuf 0 s.ilen.toNat with
    | none =>
      exact .inr ⟨_, withInput_unwritten _ (by omega) hbad hread,
        withInput_unwritten _ (by rw [e5]; omega) (hb.trans hbad) (hr.trans hread)⟩
    | some input =>
      obtain ⟨t, t', h, h', he⟩ := hgo input
      exact .inl ⟨t, t', (withInput_ok (input := input) _ ⟨by simp only [Config.inMax]; omega, hbad, hread⟩).trans h,
        (withInput_ok (input := input) _ ⟨by simp only [Config.inMax]; rw [e5]; omega, hb.trans hbad, hr.trans hread⟩).trans h', he⟩
  rcases hi with rfl | rfl | rfl
  · exact hwi _ _ fun input => ⟨_, _, rfl, rfl, by simp only [State.visible, e1, e2, e3, e4, e5, e7, e9, e10]⟩
  · exact hwi _ _ fun input => ⟨_, _, rfl, rfl, by simp only [State.visible, e1, e2, e3, e4, e5, e7, e8, e9, e10]⟩
  · left
    by_cases hbad : badPixelSize s = true
    · exact ⟨_, _, execDecode_badSize hbad, execDecode_badSize (hb.trans hbad), by
        simp only [raise, State.visible, e1, e2, e3, e4, e5, e6, e7, e8, e9, e10]⟩
    replace hbad : badPixelSize s = false := by simpa using hbad
    have hsc : scanCanvas s'.cfg.obufCap s'.base s'.canvas s'.pixelSize.toNat =
        scanCanvas s.cfg.obufCap s.base s.canvas s.pixelSize.toNat := by rw [e1, e3, e4, e8]
    cases hq : scanCanvas s.cfg.obufCap s.base s.canvas s.pixelSize.toNat with
    | none =>
      exact ⟨_, _, execDecode_overrun hbad hq, execDecode_overrun (hb.trans hbad) (hsc.trans hq), by
        simp only [raise, State.visible, e1, e2, e3, e4, e5, e6, e8, e9]⟩
    | some q =>
      cases ht : legalText s.cfg.textRule (Machine.decoded q) with
      | false =>
        exact ⟨_, _, execDecode_text hbad hq ht, execDecode_text (hb.trans hbad) (hsc.trans hq) (by rw [e1]; exact ht), by
          simp only [raise, State.visible, e1, e2, e3, e4, e5, e6, e8, e9]⟩
      | true =>
        exact ⟨_, _, execDecode_ok hbad hq ht, execDecode_ok (hb.trans hbad) (hsc.trans hq) (by rw [e1]; exact ht), by
          simp only [State.visible, e1, e2, e3, e4, e5, e6, e8, e9, hd]⟩

/-- The planner's registers as numbers (R30). -/
theorem planOf_fields {base : Rgb} {cs : List Rgb} {size : Nat} (hl : cs.length ≤ 255) :
    (planOf (overflowPass base cs) size).nside.toNat = ceilSqrt (passTotal (overflowPass base cs)) ∧
    (planOf (overflowPass base cs) size).total.toNat = passTotal (overflowPass base cs) ∧
    (planOf (overflowPass base cs) size).nchunk.toNat = cs.length ∧
    (planOf (overflowPass base cs) size).novf.toNat = countOverflow base cs := by
  have hc := countOverflow_le base cs
  have ht := passTotal_eq base cs
  have hn := ceilSqrt_le_nMax (passTotal_le (base := base) hl)
  simp only [Config.nMax] at hn
  refine ⟨?_, ?_, ?_, ?_⟩ <;> simp only [planOf, overflowPass_colors, overflowPass_orb, recordsFrom_length, List.length_map, BitVec.toNat_ofNat] <;> omega

/-- Under the default `LegalText`, legal text stays legal without its trailing zero bytes (R185). -/
theorem legal_cut {input : List Byte} (h : legalText .utf8 input = true) : legalText .utf8 (stripZeros input) = true := by
  obtain ⟨n, h1, -⟩ := stripZeros_spec input
  cases n with
  | zero => rw [List.replicate_zero, List.append_nil] at h1; rw [← h1]; exact h
  | succ n =>
    by_cases he : input = []
    · subst he; rfl
    · have hw : wellFormedUtf8 input = true := by
        simp only [legalText, Bool.or_eq_true, List.isEmpty_iff] at h
        rcases h with h | h
        · exact absurd h he
        · exact h
      rw [h1, List.replicate_succ] at hw
      have := wellFormedUtf8_cut _ _ _ (Nat.le_refl _) hw
      simp [legalText, this]

end Sys2Proof.Machine
end

