-- ==== Sys2Proof/Laws/PerInstr.lean ====
section
/-! SUPPORT. The family RoundTrip, one lemma per constructor of `Instr`: decoding the encoding of a well-formed instruction, in
its lane, gives it back, and an instruction without an encoding is one of the internal operations (R82 to R84, R88, R90,
R93). -/

namespace Sys2Proof.Laws.RoundTrip

/-- What is said of each instruction as syntax. -/
def Statement (i : Instr) : Prop :=
  ∀ (l : Lane) (bs rest : List Byte), i.wf = true → Sys2Proof.encode i = some (l, bs) →
    Sys2Proof.decode l (bs ++ rest) = .ok (i, rest)

/-- An internal operation has no encoding (R93). -/
theorem of_none {i : Instr} (h : Sys2Proof.encode i = none) : Statement i := fun l bs rest _ he => by
  rw [h] at he; cases he

/-- It is enough to decode the one encoding. -/
theorem of_some {i : Instr} {l : Lane} {bs : List Byte} (h : Sys2Proof.encode i = some (l, bs))
    (hd : i.wf = true → ∀ rest, Sys2Proof.decode l (bs ++ rest) = .ok (i, rest)) : Statement i := fun l' bs' rest hw he => by
  rw [h] at he; cases he; exact hd hw rest

theorem encode : Statement .encode := of_some rfl fun _ _ => rfl
theorem decode : Statement .decode := of_some rfl fun _ _ => rfl
theorem plan : Statement .plan := of_some rfl fun _ _ => rfl
theorem cmdReserved (code : Byte) : Statement (.cmdReserved code) := of_some rfl fun hw rest => by
  simp only [Instr.wf, decide_eq_true_eq] at hw
  simp only [List.cons_append, Sys2Proof.decode, decodeCmd]
  rw [if_neg hw.1, if_neg hw.2.1, if_neg hw.2.2]
  rfl
theorem blkData (r g b : Byte) : Statement (.blkData r g b) := of_some rfl fun _ _ => rfl
theorem blkSep : Statement .blkSep := of_some rfl fun _ _ => rfl
theorem blkOvfR (idx mag : Byte) : Statement (.blkOvfR idx mag) := of_some rfl fun _ _ => rfl
theorem blkOvfG (idx mag : Byte) : Statement (.blkOvfG idx mag) := of_some rfl fun _ _ => rfl
theorem blkOvfB (idx mag : Byte) : Statement (.blkOvfB idx mag) := of_some rfl fun _ _ => rfl
theorem decSep : Statement .decSep := of_some rfl fun _ _ => rfl
theorem decData (p : Pixel) : Statement (.decData p) := of_some rfl fun hw rest => by
  simp only [Instr.wf, decide_eq_true_eq] at hw
  simp [Sys2Proof.decode, takePixel, pixelBytes, decodePixel, decodeSample, hw]
theorem decSkip (r g b : Byte) : Statement (.decSkip r g b) := of_some rfl fun _ _ => rfl
theorem decRec (p : Pixel) : Statement (.decRec p) := of_some rfl fun hw rest => by
  simp only [Instr.wf, decide_eq_true_eq] at hw
  simp only [Sys2Proof.decode, takePixel, pixelBytes, List.cons_append, decodePixel, decodeSample]
  rw [if_neg hw]
  rfl
theorem chunk : Statement .chunk := of_none rfl
theorem unpack (d : Rgb) : Statement (.unpack d) := of_none rfl
theorem strip : Statement .strip := of_none rfl
theorem clampadd (b d : Byte) : Statement (.clampadd b d) := of_none rfl
theorem ovfrec (n : Byte) (c : Rgb) : Statement (.ovfrec n c) := of_none rfl
theorem countOverflow (cs : List Rgb) : Statement (.countOverflow cs) := of_none rfl
theorem recpack (r : Record) : Statement (.recpack r) := of_none rfl
theorem recunpack (p : Pixel) : Statement (.recunpack p) := of_none rfl
theorem total (nch novf : Nat) : Statement (.total nch novf) := of_none rfl
theorem csqrt (t : Nat) : Statement (.csqrt t) := of_none rfl
theorem side (n : Nat) : Statement (.side n) := of_none rfl
theorem blkaddr (k m : Nat) : Statement (.blkaddr k m) := of_none rfl
theorem wrblk (k m : Nat) (p : Pixel) : Statement (.wrblk k m p) := of_none rfl
theorem issep (p : Pixel) : Statement (.issep p) := of_none rfl
theorem diff (p : Pixel) : Statement (.diff p) := of_none rfl
theorem apply (t : Triple) : Statement (.apply t) := of_none rfl
theorem textchk : Statement .textchk := of_none rfl

end Sys2Proof.Laws.RoundTrip
end

