-- ==== Sys2Proof/Tests/Slice0.lean ====
section
/-! SUPPORT. The model's own tests: ill-formed terms are refused, words written out from the encodings decode, one or two steps per
instruction with results from spec/95_test_vectors.md, and for each statement with hypotheses a state that meets them. -/

namespace Sys2Proof.Tests

open Sys2Proof Sys2Proof.Machine

/-! ### Helpers -/

/-- Bytes from numbers. -/
def bytes (ns : List Nat) : List Byte := ns.map (BitVec.ofNat 8)

/-- The state after reset with a block size, a base color and an input loaded. -/
def ready (input : List Byte) (size : Word) (base : Rgb) : State :=
  { State.reset with pixelSize := size, base := base, ilen := BitVec.ofNat 32 input.length, ibuf := cellsFrom 0 input }

/-- The next state, or the reset state where there is none. -/
def after : Answer → State
  | .next t => t
  | .fault _ => State.reset
  | .refused _ => State.reset

/-- The answer is a next state. -/
def completes : Answer → Bool
  | .next _ => true
  | .fault _ => false
  | .refused _ => false

/-- What an operation run alone on the reset state answers. -/
def answerOf (i : Instr) (base : Rgb) : OpResult := (after (exec i { State.reset with base := base, pixelSize := 5 })).result

/-- A state whose sequencer holds a data buffer. -/
def holding (buf : List Nat) : State := { State.reset with seq := { Seq.initial with buf := bytes buf } }

/-- A canvas with one row of pixels, given as words `R ‖ G ‖ B ‖ A`. -/
def rowCanvas (ws : List Nat) : Canvas :=
  (ws.zipIdx.foldl (fun c e => c.put e.2 0 (wordPixel e.1)) (Canvas.new (BitVec.ofNat 32 ws.length) 1))

/-- The reset state with a canvas of one row, `PIXEL_SIZE = 1` and base (0, 0, 0). -/
def withRow (ws : List Nat) : State := { State.reset with pixelSize := 1, canvas := rowCanvas ws }

/-- The smallest buffer the parameters admit. -/
def smallCap : Config := { Config.standard with obufCap := some 765 }

/-! ### Ill-formed terms are refused (WellFormed) -/

theorem test_wf_reserved_code : (Instr.cmdReserved 1).wf = false ∧ (Instr.cmdReserved 2).wf = false ∧
    (Instr.cmdReserved 3).wf = false ∧ (Instr.cmdReserved 0).wf = true := by decide
theorem test_wf_data_zero : (Instr.decData Pixel.zero).wf = false := by decide
theorem test_wf_record_alpha : (Instr.decRec ⟨1, 1, 1, 0⟩).wf = false := by decide
theorem test_wf_ovfrec_index : (Instr.ovfrec 255 ⟨0, 0, 0⟩).wf = false := by decide
theorem test_wf_count_chunks : (Instr.countOverflow (List.replicate 256 ⟨0, 0, 0⟩)).wf = false := by decide +kernel
theorem test_wf_recpack_magnitude : (Instr.recpack ⟨0, .red, 0⟩).wf = false := by decide
theorem test_wf_recunpack_alpha : (Instr.recunpack ⟨1, 1, 1, 0⟩).wf = false := by decide
theorem test_wf_total : (Instr.total 256 0).wf = false ∧ (Instr.total 0 766).wf = false := by decide
theorem test_wf_csqrt : (Instr.csqrt 0).wf = false ∧ (Instr.csqrt 1022).wf = false := by decide
theorem test_wf_side : (Instr.side 0).wf = false ∧ (Instr.side 33).wf = false := by decide
theorem test_wf_blkaddr : (Instr.blkaddr 0 0).wf = false := by decide
theorem test_wf_wrblk : (Instr.wrblk 0 0 Pixel.zero).wf = false := by decide
/-- Outside its range an operation still runs (log 26): the value is not stated, the rest is. -/
theorem test_out_of_range_runs :
    ∃ v, step { State.reset with script := [.op (.csqrt 0)] } = .next { State.reset with result := .nat v, draws := 1 } :=
  ⟨_, rfl⟩

/-! ### Words written out from the encodings (R82 to R84, R88, R90) -/

theorem test_decode_commands : decodeTableWord 8 0b00000001 = some .encode ∧ decodeTableWord 8 0b00000010 = some .decode ∧
    decodeTableWord 8 0b00000011 = some .plan ∧ decodeTableWord 8 0b00000100 = some (.cmdReserved 4) := by decide
/-- V93: block 0 of the input `41` under (10, 20, 30) is `4B141EFF`. -/
theorem test_decode_blkData : decodeTableWord 32 0b01001011000101000001111011111111 = some (.blkData 75 20 30) := by decide
theorem test_decode_blkSep : decodeTableWord 32 0b00000000000000000000000000000000 = some .blkSep := by decide
/-- V36: the record (2, 1, 145) is `0x020191FF`. -/
theorem test_decode_blkOvfR : decodeTableWord 32 0b00000010000000011001000111111111 = some (.blkOvfR 2 145) := by decide
/-- V94: the record (0, 2, 14) is `0x00020EFF`. -/
theorem test_decode_blkOvfG : decodeTableWord 32 0b00000000000000100000111011111111 = some (.blkOvfG 0 14) := by decide
/-- V37: the record (254, 3, 255) is `0xFE03FFFF`. -/
theorem test_decode_blkOvfB : decodeTableWord 32 0b11111110000000111111111111111111 = some (.blkOvfB 254 255) := by decide
theorem test_decode_decSkip : decodeTableWord 32 0b00000000000000010000101000000000 = some (.decSkip 0 1 10) := by decide
/-- V39: alpha 0x80 is accepted. -/
theorem test_decode_decData : decodeTableWord 32 0b00001010000001001000000010000000 = some (.decData ⟨10, 4, 128, 128⟩) := by
  decide
theorem test_decode_decSep : decode (.sample .collectingData) (bytes [0, 0, 0, 0, 7]) = .ok (.decSep, bytes [7]) := rfl
/-- V39 in the overflow phase. -/
theorem test_decode_decRec : decode (.sample .collectingOverflow) (bytes [0x0A, 0x02, 0x80, 0x80]) =
    .ok (.decRec ⟨10, 2, 128, 128⟩, []) := rfl
/-- V123: in the data phase a pixel with alpha 0 that is not all-zero is data. -/
theorem test_decode_data_alpha_zero : decode (.sample .collectingData) (bytes [0x41, 0, 0, 0]) =
    .ok (.decData ⟨65, 0, 0, 0⟩, []) := rfl
theorem test_decode_rejects : decode .emitOvf (bytes [0, 4, 1, 255]) = .error .notEmitted ∧
    decode .emitData (bytes [1, 2, 3, 254]) = .error .notEmitted ∧ decode .emitSep (bytes [0, 0, 0, 1]) = .error .notEmitted ∧
    decode .emitData (bytes [1, 2, 3]) = .error .truncated ∧ decode .cmd [] = .error .truncated := ⟨rfl, rfl, rfl, rfl, rfl⟩
theorem test_internal_rows_have_no_word : decodeTableWord 0 0 = none ∧ encode .chunk = none ∧ encode .textchk = none := by decide

/-! ### One step per instruction; results from spec/95_test_vectors.md -/

/-- V93. -/
theorem test_encode_layout :
    (after (exec .encode (ready (bytes [0x41]) 2 ⟨10, 20, 30⟩))).plan = ⟨1, 0, 2, 2, 4⟩ := by decide
/-- V94. -/
theorem test_encode_blocks :
    let c := (after (exec .encode (ready (bytes [0xC3, 0xA9]) 1 ⟨100, 100, 100⟩))).canvas
    c.pixelAt 0 0 = wordPixel 0xFFFF64FF ∧ c.pixelAt 1 0 = Pixel.zero ∧ c.pixelAt 0 1 = wordPixel 0x000128FF ∧
      c.pixelAt 1 1 = wordPixel 0x00020EFF := by decide
/-- V120: the record saturates, and `FF` is no legal text. -/
theorem test_decode_invalid_text : (after (exec .decode (withRow [0xFA0000FF, 0x00000000, 0x00010AFF]))).status = 0x0B := by
  decide
/-- V121, its four pixels in one row. -/
theorem test_decode_record_on_padding :
    let t := after (exec .decode (withRow [0x410000FF, 0x00000000, 0x000342FF, 0x00000000]))
    t.status = 0x08 ∧ t.olen = 3 ∧ t.obuf = cellsFrom 0 (bytes [0x41, 0x00, 0x42]) := by decide
/-- V105. -/
theorem test_plan_greatest_size :
    let t := after (exec .plan (ready [] 134217727 ⟨0, 0, 0⟩))
    t.plan = ⟨0, 0, 1, 1, 134217727⟩ ∧ t.status = 0 := by decide
/-- V104. -/
theorem test_plan_size_too_great : (after (exec .plan (ready [] 134217728 ⟨0, 0, 0⟩))).status = 2 := by decide
/-- V107. -/
theorem test_cmdReserved : (after (exec (.cmdReserved 0) State.reset)).status = 5 := by decide
/-- V55: block 3 of three columns with `s = 5` begins at (0, 5). -/
theorem test_blkData_place :
    let c := (after (exec (.blkData 1 2 3) { State.reset with
      pixelSize := 5, canvas := Canvas.new 15 15, seq := { Seq.initial with k := 3, cols := 3 } })).canvas
    c.pixelAt 0 5 = ⟨1, 2, 3, 255⟩ ∧ c.pixelAt 4 9 = ⟨1, 2, 3, 255⟩ ∧ c.pixelAt 5 5 = Pixel.zero ∧ c.pixelAt 0 4 = Pixel.zero := by
  decide
/-- V94: block 1 of two columns is the separator at (1, 0). -/
theorem test_blkSep_place :
    let t := after (exec .blkSep { withRow [0x01010101, 0x02020202] with seq := { Seq.initial with k := 1, cols := 2 } })
    t.canvas.pixelAt 1 0 = Pixel.zero ∧ t.canvas.pixelAt 0 0 = ⟨1, 1, 1, 1⟩ ∧ t.seq.k = 2 := by decide
/-- V35, V94: records as pixels, and the record index advances. -/
theorem test_blkOvf_pixels :
    let s := { withRow [0, 0] with seq := { Seq.initial with k := 1, cols := 2 } }
    (after (exec (.blkOvfR 0 1) s)).canvas.pixelAt 1 0 = wordPixel 0x000101FF ∧
      (after (exec (.blkOvfG 0 14) s)).canvas.pixelAt 1 0 = wordPixel 0x00020EFF ∧
      (after (exec (.blkOvfB 254 255) s)).canvas.pixelAt 1 0 = wordPixel 0xFE03FFFF ∧
      (after (exec (.blkOvfB 254 255) s)).seq.j = 1 := by decide
theorem test_decSep : (after (exec .decSep State.reset)).seq.phase = .collectingOverflow := by decide
/-- V68: below the base saturates at 0. -/
theorem test_decData : (after (exec (.decData ⟨5, 5, 5, 255⟩) { State.reset with base := ⟨9, 9, 9⟩ })).seq.buf =
    bytes [0, 0, 0] := by decide
theorem test_decSkip :
    let s := { State.reset with seq := { Seq.initial with phase := .collectingOverflow } }
    (after (exec (.decSkip 0 1 10) s)).seq = { s.seq with k := 1 } := by decide
/-- V39. -/
theorem test_decRec :
    let s := { State.reset with seq := { Seq.initial with phase := .collectingOverflow } }
    (after (exec (.decRec ⟨10, 2, 128, 128⟩) s)).seq.recs = [⟨10, 2, 128⟩] := by decide
/-- V5. -/
theorem test_chunk : (after (exec .chunk (ready (bytes [0x41, 0x42, 0x43, 0x44]) 0 ⟨0, 0, 0⟩))).result =
    .chunks [⟨0x41, 0x42, 0x43⟩, ⟨0x44, 0, 0⟩] := by decide
theorem test_unpack : (after (exec (.unpack ⟨3, 4, 5⟩) (holding [1, 2]))).seq.buf = bytes [1, 2, 3, 4, 5] := by decide
/-- V11, V14. -/
theorem test_strip : (after (exec .strip (holding [0x41, 0, 0x42, 0, 0]))).result = .bytes (bytes [0x41, 0, 0x42]) ∧
    (after (exec .strip (holding [0, 0, 1]))).result = .bytes (bytes [0, 0, 1]) := by decide
/-- V22, V23. -/
theorem test_clampadd : answerOf (.clampadd 200 100) ⟨0, 0, 0⟩ = .clamp 255 true 45 ∧
    answerOf (.clampadd 255 255) ⟨0, 0, 0⟩ = .clamp 255 true 255 := by decide
/-- V18: a sum of exactly 255 is no overflow. -/
theorem test_clampadd_no_overflow : clampAdd 1 254 = (255, none) := by decide
/-- V27, V29. -/
theorem test_ovfrec : answerOf (.ovfrec 2 ⟨200, 100, 200⟩) ⟨200, 100, 100⟩ =
      .chunkRecords ⟨255, 200, 255⟩ [⟨2, .red, 145⟩, ⟨2, .blue, 45⟩] ∧
    answerOf (.ovfrec 7 ⟨0, 0, 0⟩) ⟨255, 255, 255⟩ = .chunkRecords ⟨255, 255, 255⟩ [] := by decide
/-- V33, V34. -/
theorem test_countOverflow : answerOf (.countOverflow [⟨255, 255, 255⟩]) ⟨1, 0, 1⟩ = .nat 2 ∧
    answerOf (.countOverflow [⟨0x41, 0, 0⟩]) ⟨255, 255, 255⟩ = .nat 1 := by decide
/-- V36. -/
theorem test_recpack : answerOf (.recpack ⟨2, .red, 145⟩) ⟨0, 0, 0⟩ = .pixel (wordPixel 0x020191FF) := by decide
/-- V40. -/
theorem test_recunpack : answerOf (.recunpack (wordPixel 0xFF00FF01)) ⟨0, 0, 0⟩ = .triple ⟨255, 0, 255⟩ := by decide
/-- V52. -/
theorem test_total : answerOf (.total 255 765) ⟨0, 0, 0⟩ = .nat 1021 := by decide
/-- V49, V48. -/
theorem test_csqrt : answerOf (.csqrt 257) ⟨0, 0, 0⟩ = .nat 17 ∧ answerOf (.csqrt 256) ⟨0, 0, 0⟩ = .nat 16 := by decide
/-- V45. -/
theorem test_side : answerOf (.side 3) ⟨0, 0, 0⟩ = .nat 15 := by decide
/-- V56. -/
theorem test_blkaddr : answerOf (.blkaddr 5 3) ⟨0, 0, 0⟩ = .block 1 2 ⟨10, 5, 5⟩ := by decide
/-- V58: block 5 of four columns with `s = 2` begins at (2, 2). -/
theorem test_wrblk :
    let c := (after (exec (.wrblk 5 4 ⟨9, 9, 9, 9⟩) { State.reset with pixelSize := 2, canvas := Canvas.new 9 5 })).canvas
    c.pixelAt 2 2 = ⟨9, 9, 9, 9⟩ ∧ c.pixelAt 3 3 = ⟨9, 9, 9, 9⟩ ∧ c.pixelAt 4 2 = Pixel.zero ∧ c.pixelAt 2 4 = Pixel.zero := by decide
/-- V60, V62. -/
theorem test_issep : answerOf (.issep (wordPixel 0)) ⟨0, 0, 0⟩ = .bit true ∧
    answerOf (.issep (wordPixel 1)) ⟨0, 0, 0⟩ = .bit false := by decide
/-- V66, V68. -/
theorem test_diff : answerOf (.diff ⟨255, 200, 255, 255⟩) ⟨200, 100, 100⟩ = .rgb ⟨55, 100, 155⟩ ∧
    answerOf (.diff ⟨5, 5, 5, 255⟩) ⟨9, 9, 9⟩ = .rgb ⟨0, 0, 0⟩ := by decide
/-- V78, V74. -/
theorem test_apply : (after (exec (.apply ⟨0, 1, 10⟩) (holding [250, 0, 0]))).seq.buf = bytes [255, 0, 0] ∧
    (after (exec (.apply ⟨1, 1, 1⟩) (holding [65, 66, 67]))).seq.buf = bytes [65, 66, 67] := by decide
/-- V76: code 4 has no channel. -/
theorem test_apply_code_4 : (after (exec (.apply ⟨0, 4, 7⟩) (holding [65, 66, 67, 1, 2, 3]))).seq.buf =
    bytes [65, 66, 67, 1, 2, 3] := by decide
/-- V86, V89. -/
theorem test_textchk :
    (after (exec .textchk { State.reset with seq := { Seq.initial with out := bytes [0xE2, 0x82, 0xAC] } })).result = .bit true ∧
      (after (exec .textchk { State.reset with seq := { Seq.initial with out := bytes [0xC0, 0x80] } })).status = 3 := by decide
/-- V87. -/
theorem test_utf8_edges : wellFormedUtf8 (bytes [0xE0, 0xA0, 0x80]) = true ∧ wellFormedUtf8 (bytes [0xED, 0x9F, 0xBF]) = true ∧
    wellFormedUtf8 (bytes [0xF0, 0x90, 0x80, 0x80]) = true ∧ wellFormedUtf8 (bytes [0xF4, 0x8F, 0xBF, 0xBF]) = true := by decide
/-- V88, V90, V91. -/
theorem test_utf8_ill_formed : wellFormedUtf8 (bytes [0xE2, 0x82]) = false ∧ wellFormedUtf8 (bytes [0xED, 0xA0, 0x80]) = false ∧
    wellFormedUtf8 (bytes [0xF4, 0x90, 0x80, 0x80]) = false ∧ wellFormedUtf8 (bytes [0x80]) = false := by decide

/-! ### The host's moves (R20, R65, R91, R92) -/

theorem test_stop_outside_canvas : step { withRow [0] with script := [.get 1 0] } = .fault .noSuchPixel := rfl
theorem test_stop_outside_ibuf : step { State.reset with script := [.wrb 764 [1, 2]] } = .fault .noSuchCell := rfl
/-- A value wider than the register leaves a free value in it (log 10). -/
theorem test_wide_value : ∃ v, step { State.reset with script := [.wr .baseR 256] } =
    .next { State.reset with base := ⟨v, 0, 0⟩, draws := 1 } := ⟨_, rfl⟩
/-- R203: 257 is "a value other than 0x01, 0x02, 0x03". -/
theorem test_wide_command : step { State.reset with script := [.wr .cmd 257] } = .next { State.reset with status := 5 } := rfl
theorem test_stop_out_of_class :
    step { State.reset with script := [.op (.decSkip 0 0 0)] } = .refused .outOfClass := rfl
theorem test_stop_undecodable : step { State.reset with script := [.emit .data [1, 2, 3, 4]] } =
    .refused (.undecodable .notEmitted) := rfl
/-- R20: registers 7 to 10 are four different registers. -/
theorem test_read_plan : ([Reg.nchunk, .novf, .total, .nside].map fun r =>
    readReg r { State.reset with plan := ⟨3, 6, 10, 4, 20⟩ }) = [3, 6, 10, 4] := by decide
/-- R92: the five SET lines of a BLOCK line of one pixel row and its place. -/
theorem test_setBlock : setBlock 5 3 1 ⟨1, 2, 3, 4⟩ = [.set 2 1 ⟨1, 2, 3, 4⟩] := by decide

/-! ### Witnesses: for each statement with hypotheses, inputs that meet them -/

theorem witness_EncodedInstructionsDecodeToThemselves :
    (Instr.cmdReserved 0xFF).wf = true ∧ encode (.cmdReserved 0xFF) = some (.cmd, [0xFF]) ∧
      (Instr.decRec ⟨0, 0, 0, 1⟩).wf = true ∧
      encode (.decRec ⟨0, 0, 0, 1⟩) = some (.sample .collectingOverflow, [0, 0, 0, 1]) := by decide

theorem witness_DecodedInstructionsEncodeBack :
    decode .emitOvf (bytes [254, 3, 255, 255, 9]) = .ok (.blkOvfB 254 255, bytes [9]) := rfl

/-- A command, a block, a sampled pixel, an operation, and no move. -/
theorem witness_StepRunsTheInstructionItDecodes :
    (∃ s : State, s.script = [.wr .cmd 255] ∧ (255 : Word).toNat < 256 ∧
      decode .cmd [(255 : Word).setWidth 8] = .ok (.cmdReserved 255, [])) ∧
    (∃ s : State, s.script = [.emit .sep (bytes [0, 0, 0, 0])] ∧
      decode (zoneLane .sep) (bytes [0, 0, 0, 0]) = .ok (.blkSep, [])) ∧
    (∃ s : State, s.script = [.sample (bytes [0, 0, 0, 1])] ∧
      decode (.sample s.seq.phase) (bytes [0, 0, 0, 1]) = .ok (.decData ⟨0, 0, 0, 1⟩, [])) ∧
    (∃ s : State, s.script = [.op (.csqrt 1021)]) ∧ State.reset.script = [] :=
  ⟨⟨{ State.reset with script := [.wr .cmd 255] }, rfl, by decide, rfl⟩,
    ⟨{ State.reset with script := [.emit .sep (bytes [0, 0, 0, 0])] }, rfl, rfl⟩,
    ⟨{ State.reset with script := [.sample (bytes [0, 0, 0, 1])] }, rfl, rfl⟩,
    ⟨{ State.reset with script := [.op (.csqrt 1021)] }, rfl⟩, rfl⟩

theorem witness_PlacedTableWordRunsNext : decodeTableWord 32 0x00010A00 = some (.decSkip 0x00 0x01 0x0A) := by decide

/-- 766 is the least length that is rejected, 765 the greatest that is not. -/
theorem witness_LongInputIsRejectedFirst : 765 < (ready (List.replicate 766 0) 0 ⟨0, 0, 0⟩).ilen.toNat ∧
    (ready (List.replicate 765 0) 0 ⟨0, 0, 0⟩).ilen = 765 ∧
    (∃ t, exec .encode (ready [] 1 ⟨0, 0, 0⟩) = .next t) ∧ ∃ t, exec .decode (withRow [0]) = .next t :=
  ⟨by decide +kernel, by decide +kernel, ⟨_, rfl⟩, ⟨_, rfl⟩⟩

/-- Any 765 bytes in place are an input. -/
theorem ready_hasInput (bs : List Byte) (h : bs.length = 765) :
    (ready bs 1 ⟨0, 0, 0⟩).hasInput bs ∧ (ready bs 1 ⟨0, 0, 0⟩).ilen = 765 := by
  have hr := readInput_cellsFrom 0 bs
  rw [h] at hr
  refine ⟨⟨?_, rfl, ?_⟩, ?_⟩ <;> simp only [ready, h]
  · decide
  · exact hr
  · decide

theorem witness_LongInputIsRejectedFirst_accepts :
    ∃ bs : List Byte, (ready bs 1 ⟨0, 0, 0⟩).hasInput bs ∧ (ready bs 1 ⟨0, 0, 0⟩).ilen = 765 :=
  ⟨_, ready_hasInput (List.replicate 765 65) List.length_replicate⟩

/-- 0 and `PIXEL_SIZE_MAX + 1`, with an input of the greatest length; `PIXEL_SIZE_MAX` is usable. -/
theorem witness_UnusablePixelSizeIsRejected :
    (ready (List.replicate 765 0) 0 ⟨0, 0, 0⟩).pixelSize.toNat = 0 ∧
      (ready (List.replicate 765 0) 0 ⟨0, 0, 0⟩).ilen.toNat ≤ 765 ∧
      (ready [] 134217728 ⟨0, 0, 0⟩).cfg.pixelSizeMax < (ready [] 134217728 ⟨0, 0, 0⟩).pixelSize.toNat ∧
      (ready [] 134217727 ⟨0, 0, 0⟩).pixelSize.toNat ≤ (ready [] 134217727 ⟨0, 0, 0⟩).cfg.pixelSizeMax ∧
      ∃ t, exec .plan (ready [] 134217727 ⟨0, 0, 0⟩) = .next t :=
  ⟨by decide +kernel, by decide +kernel, by decide, by decide, _, rfl⟩

/-- Each error once: lengths, sizes, a reserved code, an overrun, no legal text (V95's `FF`). -/
theorem witness_ErrorsChangeOnlyWhatTheirRowLists :
    statusErr (after (exec .plan { State.reset with ilen := 766 })).status = 1 ∧
      statusErr (after (exec .decode State.reset)).status = 2 ∧ statusErr (after (exec (.cmdReserved 4) State.reset)).status = 5 ∧
      statusErr (after (exec .decode { withRow [0x414141FF] with cfg := { Config.standard with obufCap := some 2 } })).status = 6 ∧
      statusErr (after (exec .decode (withRow [0xFF0000FF, 0]))).status = 3 ∧
      completes (exec .decode (withRow [0xFF0000FF, 0])) = true := by decide

/-- The greatest code, and the least value wider than `CMD`. -/
theorem witness_ReservedCodesRaiseIllegalCommand :
    (∃ s : State, s.script = [.wr .cmd 255]) ∧ (∃ s : State, s.script = [.wr .cmd 256]) ∧
      ∀ v : Word, v = 255 ∨ v = 256 → v.toNat ≠ 1 ∧ v.toNat ≠ 2 ∧ v.toNat ≠ 3 :=
  ⟨⟨{ State.reset with script := [.wr .cmd 255] }, rfl⟩, ⟨{ State.reset with script := [.wr .cmd 256] }, rfl⟩, by
    rintro v (rfl | rfl) <;> decide⟩

theorem witness_CommandsAfterResetOnlyReportPixelSize :
    Instr.decode = .encode ∨ Instr.decode = .plan ∨ Instr.decode = .decode := .inr (.inr rfl)

theorem witness_UnwrittenInputIsRefused :
    ∃ s : State, s.ilen.toNat ≤ 765 ∧ badPixelSize s = false ∧ 764 < s.ilen.toNat ∧ lookupCell 764 s.ibuf = none :=
  ⟨{ State.reset with pixelSize := 1, ilen := 765 }, by decide⟩

/-- The input of V25: one chunk whose three channels overflow, on blocks of one pixel. -/
theorem witness_PlanWritesTheLayout :
    (ready (bytes [100, 200, 200]) 1 ⟨200, 100, 100⟩).cfg.wf = true ∧
      (ready (bytes [100, 200, 200]) 1 ⟨200, 100, 100⟩).hasInput (bytes [100, 200, 200]) :=
  ⟨by decide, by decide, by decide, by decide⟩

theorem witness_EncodeWritesTheLayoutAndSizesTheCanvas :
    (ready [] 134217727 ⟨200, 100, 100⟩).cfg.wf = true ∧ (ready [] 134217727 ⟨200, 100, 100⟩).hasInput [] :=
  ⟨by decide, by decide, by decide, by decide⟩

/-- A data block, the separator, a record and an unused position of one canvas (base R 200 + 65 overflows). -/
theorem witness_EncodedCanvasIsTheBlockMap :
    ∃ t, exec .encode (ready (bytes [65]) 1 ⟨200, 0, 0⟩) = .next t ∧ (ready (bytes [65]) 1 ⟨200, 0, 0⟩).hasInput (bytes [65]) ∧
      t.plan.nchunk = 1 ∧ t.plan.total = 3 ∧ t.plan.nside = 2 ∧ (blockArea 0 2 1).contains 0 0 = true ∧
      (blockArea 1 2 1).contains 1 0 = true ∧ (blockArea 2 2 1).contains 0 1 = true ∧ (blockArea 3 2 1).contains 1 1 = true :=
  ⟨_, rfl, ⟨by decide, by decide, by decide⟩, by decide⟩

theorem witness_EncodedCanvasIsAFunctionOfTheInput :
    (ready (bytes [65]) 1 ⟨200, 0, 0⟩).hasInput (bytes [65]) ∧
      (ready (bytes [65, 0, 0]) 1 ⟨200, 0, 0⟩).hasInput (bytes [65] ++ List.replicate 2 0) ∧
      ((bytes [65]).length + 2 + 2) / 3 = ((bytes [65]).length + 2) / 3 ∧
      (∃ t, exec .encode (ready (bytes [65]) 1 ⟨200, 0, 0⟩) = .next t) ∧
      ∃ t, exec .encode (ready (bytes [65, 0, 0]) 1 ⟨200, 0, 0⟩) = .next t :=
  ⟨⟨by decide, by decide, by decide⟩, ⟨by decide, by decide, by decide⟩, by decide, ⟨_, rfl⟩, ⟨_, rfl⟩⟩

theorem witness_EncodeIsItsBlocksOneByOne :
    (ready (bytes [65]) 1 ⟨200, 0, 0⟩).cfg.wf = true ∧ (ready (bytes [65]) 1 ⟨200, 0, 0⟩).hasInput (bytes [65]) :=
  ⟨by decide, by decide, by decide, by decide⟩

/-- An overrun (one data block against two bytes), no legal text (V120), and legal text (V121). -/
theorem witness_DecodeEndsInOutputOrTypedError :
    scanCanvas (some 2) ⟨0, 0, 0⟩ (rowCanvas [0x414141FF]) 1 = none ∧
    (∃ q, scanCanvas none ⟨0, 0, 0⟩ (rowCanvas [0xFA0000FF, 0, 0x00010AFF]) 1 = some q ∧ legalText .utf8 (decoded q) = false) ∧
    (∃ q, scanCanvas none ⟨0, 0, 0⟩ (rowCanvas [0x410000FF, 0, 0x000342FF]) 1 = some q ∧ legalText .utf8 (decoded q) = true ∧
      (decoded q).length < 4294967296) ∧ badPixelSize (withRow [0]) = false :=
  ⟨by decide, ⟨_, rfl, by decide⟩, ⟨_, rfl, by decide⟩, by decide⟩

/-- One sampled block each way. -/
theorem witness_BufferOverrunExactlyWhenDataExceedsCapacity :
    badPixelSize (withRow [0x41000000, 0]) = false ∧ ∃ t, exec .decode (withRow [0x41000000, 0]) = .next t := ⟨by decide, _, rfl⟩

theorem witness_PhaseTellsWhetherASeparatorWasMet :
    badPixelSize (withRow [0x41000000, 0]) = false ∧
      (∃ t, exec .decode (withRow [0x41000000, 0]) = .next t ∧ statusErr t.status ≠ 6) ∧
      ∃ t, exec .decode { withRow [0x414141FF] with cfg := { Config.standard with obufCap := some 2 } } = .next t ∧
        statusErr t.status = 6 := ⟨by decide, ⟨_, rfl, by decide⟩, _, rfl, by decide⟩

/-- A canvas of one data block, and no canvas (V124). -/
theorem witness_WithoutSeparatorTheCanvasIsData :
    (badPixelSize (withRow [0x41000000]) = false ∧
      (∀ k, k < scanSize (withRow [0x41000000]).canvas 1 → samplePixel (withRow [0x41000000]).canvas k 1 1 ≠ Pixel.zero) ∧
      withinObuf (withRow [0x41000000]).cfg.obufCap (3 * scanSize (withRow [0x41000000]).canvas 1) = true) ∧
    scanSize State.reset.canvas 1 = 0 := by decide

/-- V94 (legal text) and V95 (not). -/
theorem witness_RoundTripGivesTheInputStripped :
    ((ready (bytes [0xC3, 0xA9]) 1 ⟨100, 100, 100⟩).hasInput (bytes [0xC3, 0xA9]) ∧
      (∃ t, exec .encode (ready (bytes [0xC3, 0xA9]) 1 ⟨100, 100, 100⟩) = .next t) ∧
      legalText Config.standard.textRule (stripZeros (bytes [0xC3, 0xA9])) = true) ∧
    ((ready (bytes [0xFF]) 1 ⟨0, 0, 0⟩).hasInput (bytes [0xFF]) ∧
      (∃ t, exec .encode (ready (bytes [0xFF]) 1 ⟨0, 0, 0⟩) = .next t) ∧
      legalText Config.standard.textRule (stripZeros (bytes [0xFF])) = false) :=
  ⟨⟨⟨by decide, by decide, by decide⟩, ⟨_, rfl⟩, by decide⟩, ⟨⟨by decide, by decide, by decide⟩, ⟨_, rfl⟩, by decide⟩⟩

/-- V92. -/
theorem witness_EmptyInputDecodesToEmptyUnderEveryKey :
    (ready [] 4 ⟨9, 9, 9⟩).cfg.wf = true ∧ (ready [] 4 ⟨9, 9, 9⟩).hasInput [] ∧
      ∃ t, exec .encode (ready [] 4 ⟨9, 9, 9⟩) = .next t := ⟨by decide, ⟨by decide, by decide, by decide⟩, _, rfl⟩

theorem witness_StreamingCorrectionEqualsDeferred : Seq.initial.recs = [] := rfl

theorem witness_CorrectionIsOrderIndependent : 2 < (bytes [1, 2, 3]).length ∧
    [(⟨0, 1, 7⟩ : Triple), ⟨0, 2, 9⟩].Perm [⟨0, 2, 9⟩, ⟨0, 1, 7⟩] := by decide

/-- A step that goes on, and one that overruns at the capacity. -/
theorem witness_SampledPixelRunsAsOneScanStep :
    (∃ q, scanStep none ⟨0, 0, 0⟩ ⟨65, 0, 0, 255⟩ Seq.initial = some q) ∧
      scanStep (some 765) ⟨0, 0, 0⟩ ⟨65, 0, 0, 255⟩ { Seq.initial with buf := List.replicate 765 0 } = none :=
  ⟨⟨_, rfl⟩, by decide +kernel⟩

theorem witness_StripUndoesPadding : (List.replicate 765 (0x41 : Byte)).length ≤ 765 :=
  (List.length_replicate ..).le

theorem witness_ChunkPadsRunsOfThree :
    (ready (bytes [1, 2, 3, 4]) 1 ⟨0, 0, 0⟩).ilen.toNat ≤ 765 ∧
      readInput (ready (bytes [1, 2, 3, 4]) 1 ⟨0, 0, 0⟩).ibuf 0 4 = some (bytes [1, 2, 3, 4]) := by decide

/-- 762 bytes leave room for three, 765 do not. -/
theorem witness_UnpackAppendsThreeBytesOrOverruns :
    withinObuf smallCap.obufCap (762 + 3) = true ∧ withinObuf smallCap.obufCap (765 + 3) = false := by decide

/-- Sums of 256 and of 255. -/
theorem witness_ClampaddClampsAndDetectsOverflow :
    255 < (1 : Byte).toNat + (255 : Byte).toNat ∧ (1 : Byte).toNat + (254 : Byte).toNat ≤ 255 := by decide

theorem witness_OverflowedByteIsRecovered : (clampAdd 1 254).2 = none ∧ (clampAdd 1 255).2 = some 1 := by decide

theorem witness_RecordsComeInOrderWithinTheirRanges :
    (List.replicate 255 (⟨255, 255, 255⟩ : Rgb)).length ≤ 255 ∧
      (overflowPass ⟨1, 1, 1⟩ [⟨255, 255, 255⟩]).orb = [⟨0, .red, 1⟩, ⟨0, .green, 1⟩, ⟨0, .blue, 1⟩] := by decide +kernel

/-- The ends of the ranges; the greatest usable `PIXEL_SIZE`. -/
theorem witness_PlannerOperationsAnswerTheLayout : totalBlocks 255 765 = 1021 ∧ ceilSqrt 1 = 1 ∧ ceilSqrt 1024 = 32 ∧
    badPixelSize (ready [] 134217727 ⟨0, 0, 0⟩) = false ∧ 1 ≤ (ready [] 1 ⟨0, 0, 0⟩).pixelSize.toNat ∧
    blockRow 5 3 = 1 ∧ blockCol 5 3 = 2 := by decide +kernel

/-- A state for the clauses with an unusable `PIXEL_SIZE`, one for those with a usable one, and the operands just outside. -/
theorem witness_OperandsOutsideTheirRangesGiveFreeValues :
    badPixelSize State.reset = true ∧ State.reset.pixelSize = 0 ∧ 1 ≤ (withRow [0]).pixelSize.toNat ∧ 255 < 256 ∧ 765 < 766 ∧
      1024 < 1025 ∧ 32 < 33 ∧ (⟨0, .red, 0⟩ : Record).mag = 0 ∧ (⟨1, 1, 1, 0⟩ : Pixel).a = 0 := by decide

theorem witness_OvfrecRecordsEachOverflowingChannel : (254 : Byte).toNat ≤ 254 := by decide

/-- The least magnitude and the least alpha. -/
theorem witness_RecordsPackAndUnpack : 1 ≤ (⟨0, .red, 1⟩ : Record).mag.toNat ∧ (⟨0, 0, 0, 1⟩ : Pixel).a ≠ 0 := by decide

/-- The corner pixels of the last block of a 2 × 2 square with `s = 2`. -/
theorem witness_BlocksTileTheCanvas :
    3 < 2 * 2 ∧ (blockArea 3 2 2).contains 2 2 = true ∧ (blockArea 3 2 2).contains 3 3 = true ∧ 3 < 2 * 2 := by decide

/-- The last block of a row fits, the next does not; each kind of block instruction has a pixel. -/
theorem witness_BlockInstructionsWriteTheirBlock :
    (withRow [0, 0]).canvas.wf = true ∧ blockFits (withRow [0, 0]).canvas 1 2 1 = true ∧
      blockPixel (.blkData 1 2 3) = some ⟨1, 2, 3, 255⟩ ∧ blockPixel .blkSep = some Pixel.zero ∧
      blockPixel (.blkOvfR 1 2) = some ⟨1, 1, 2, 255⟩ ∧ (withRow [0, 0]).canvas.has 1 0 = true ∧
      (withRow [0]).seq.cols = 0 ∧ 1 ≤ (withRow [0]).pixelSize.toNat ∧
      (withRow [0]).pixelSize.toNat ≤ (withRow [0]).canvas.cw.toNat ∧
      (withRow [0]).pixelSize.toNat ≤ (withRow [0]).canvas.ch.toNat := by decide

theorem witness_WrblkWritesOneBlock :
    (withRow [0, 0]).canvas.wf = true ∧ blockFits (withRow [0, 0]).canvas 1 2 1 = true ∧
      blockFits (withRow [0, 0]).canvas 2 2 1 = false ∧ blockPixel .blkSep = some Pixel.zero ∧
      (withRow [0, 0]).pixelSize.toNat ≤ (withRow [0, 0]).canvas.ch.toNat ∧
      (rowCanvas []).cw.toNat < (withRow []).pixelSize.toNat ∧ blockFits (rowCanvas []) 0 0 1 = false := by decide

/-- Both phases; a data pixel with room and without; a record with the least alpha. -/
theorem witness_ClassInstructionsStepTheStateMachine :
    State.reset.seq.phase = .collectingData ∧ (⟨0, 0, 0, 1⟩ : Pixel) ≠ Pixel.zero ∧
      withinObuf smallCap.obufCap (762 + 3) = true ∧ withinObuf smallCap.obufCap (765 + 3) = false ∧
      (stepSep Seq.initial).phase = .collectingOverflow ∧ (⟨0, 0, 0, 1⟩ : Pixel).a ≠ 0 := by decide

/-- Positions in reach and out of it, at the end of a buffer of three bytes (V79, V74). -/
theorem witness_ApplyCorrectsOneByteOrNone :
    triplePos ⟨0, 3, 66⟩ = some 2 ∧ triplePos ⟨1, 1, 1⟩ = some 3 ∧ triplePos ⟨0, 4, 7⟩ = none ∧
      2 < (holding [65, 0, 0]).seq.buf.length := by decide

theorem witness_TextchkPassesLegalTextOnly : legalText .utf8 (bytes [0xC3, 0xA9]) = true ∧ legalText .utf8 [] = true ∧
    legalText .utf8 (bytes [0xC3]) = false := by decide

/-- A sequence of the table and a proper initial part of it; text of two sequences; text with a zero byte. -/
theorem witness_WellFormedUtf8IsTheTablesConcatenations :
    wellFormedUtf8 (bytes [0xC3, 0xA9]) = true ∧ Utf8Sequence (bytes [0xF4, 0x8F, 0xBF] ++ bytes [0xBF]) ∧
      bytes [0xF4, 0x8F, 0xBF] ≠ [] ∧ bytes [0xBF] ≠ [] ∧
      wellFormedUtf8 (bytes [0xC3, 0xA9] ++ 0 :: bytes [0x41]) = true :=
  ⟨by decide, by simp [bytes, Utf8Sequence, inBytes], by decide, by decide, by decide⟩

theorem witness_ResetGivesTheResetValues : ∃ s : State, s.script = [.reset] ∧ s.visible ≠ State.reset.visible :=
  ⟨{ State.reset with script := [.reset], status := 5 }, rfl, by decide⟩

/-- The greatest value of an 8-bit register and of a 32-bit one. -/
theorem witness_ConfigurationRegistersReadBack :
    (255 : Word).toNat < 2 ^ Reg.baseG.width ∧ (4294967295 : Word).toNat < 2 ^ Reg.ilen.width ∧
      (∃ s : State, s.script = .wr .baseG 255 :: .rd .baseG :: []) ∧ 256 ≤ (256 : Word).toNat ∧
      ∃ s : State, s.script = .wr .baseR 256 :: [] :=
  ⟨by decide, by decide, ⟨{ State.reset with script := [.wr .baseG 255, .rd .baseG] }, rfl⟩, by decide,
    { State.reset with script := [.wr .baseR 256] }, rfl⟩

theorem witness_ReadOnlyRegistersKeepTheirValue :
    (∃ s : State, s.script = [.wr .status 255]) ∧ (∃ s : State, s.script = [.rd .cmd]) ∧
      (∃ s : State, s.script = [.wr .ch 4294967295]) ∧ 7 ≤ Reg.ch.number ∧ 7 ≤ Reg.nchunk.number :=
  ⟨⟨{ State.reset with script := [.wr .status 255] }, rfl⟩, ⟨{ State.reset with script := [.rd .cmd] }, rfl⟩,
    ⟨{ State.reset with script := [.wr .ch 4294967295] }, rfl⟩, by decide, by decide⟩

/-- The last pixel of a row and the one after it. -/
theorem witness_CanvasPrimitivesReadWhatWasWritten :
    (∃ s : State, s.script = [.new 4294967295 1]) ∧
    (∃ s : State, s.canvas.wf = true ∧ s.script = [.set 1 0 Pixel.zero] ∧ s.canvas.has 1 0 = true ∧ s.canvas.has 2 0 = false) ∧
      ∃ s : State, s.script = [.get 1 0] ∧ s.canvas.has 1 0 = true :=
  ⟨⟨{ State.reset with script := [.new 4294967295 1] }, rfl⟩,
    ⟨{ withRow [0, 0x01020304] with script := [.set 1 0 Pixel.zero] }, by decide, rfl, by decide, by decide⟩,
    ⟨{ withRow [0, 0x01020304] with script := [.get 1 0] }, rfl, by decide⟩⟩

theorem witness_LoadedInputIsWhatCommandsRead :
    (List.replicate 765 (65 : Byte)).length ≤ 765 ∧ ∃ s : State, s.script = load (List.replicate 765 65) ++ [] :=
  ⟨by decide +kernel, { State.reset with script := load (List.replicate 765 65) ++ [] }, rfl⟩

/-- The last two cells, one beyond, and a written cell. -/
theorem witness_InputCellsReadBackWhatWasWritten :
    (∃ s : State, s.script = [.wrb 763 (bytes [1, 2])]) ∧ 763 + (bytes [1, 2]).length ≤ 765 ∧
      765 < 764 + (bytes [1, 2]).length ∧ (bytes [1, 2])[1]? = some 2 ∧
      (∃ s : State, s.script = [.rdb .ibuf 763 2] ∧ lookupCell (763 + 1) s.ibuf = some 2) :=
  ⟨⟨{ State.reset with script := [.wrb 763 (bytes [1, 2])] }, rfl⟩, by decide, by decide, by decide,
    { State.reset with script := [.rdb .ibuf 763 2], ibuf := [(764, 2)] }, rfl, by decide⟩

/-- The last cell of the smallest `OBUF`, holding a value. -/
theorem witness_OutputReadsReturnSpecifiedCells :
    ∃ s : State, s.script = [.rdb .obuf 764 1] ∧ withinObuf s.cfg.obufCap (764 + 1) = true ∧ lookupCell (764 + 0) s.obuf = some 65 :=
  ⟨{ State.reset with script := [.rdb .obuf 764 1], cfg := smallCap, obuf := [(764, 65)] }, rfl, by decide, by decide⟩

theorem witness_NoInstructionWritesConfigurationOrInput : ∃ t, exec .encode (ready [] 1 ⟨0, 0, 0⟩) = .next t := ⟨_, rfl⟩

theorem witness_CommandsLeaveTheRestAlone : (∃ t, exec .encode (ready [] 1 ⟨0, 0, 0⟩) = .next t) ∧
    (∃ t, exec .plan (ready [] 1 ⟨0, 0, 0⟩) = .next t) ∧ ∃ t, exec .decode (withRow [0]) = .next t := ⟨⟨_, rfl⟩, ⟨_, rfl⟩, ⟨_, rfl⟩⟩

theorem witness_OnlyTheNamedInstructionsChangeEachMemory : ∃ t, exec (.issep Pixel.zero) State.reset = .next t := ⟨_, rfl⟩

/-- Two states that differ in a hidden field only. -/
theorem witness_CommandsReadOnlyTheVisibleState :
    (holding [1, 2, 3]).visible = State.reset.visible ∧ (holding [1, 2, 3]).draws = State.reset.draws ∧
      holding [1, 2, 3] ≠ State.reset := by decide

theorem witness_EveryStepKeepsTheInvariant :
    State.reset.Inv ∧ ∃ t, step State.reset = .next t := ⟨⟨by decide, by decide, by decide, by decide, by decide, by decide⟩, _, rfl⟩

theorem witness_NoStepChangesTheParameters : ∃ t, step { State.reset with script := [.reset] } = .next t := ⟨_, rfl⟩

end Sys2Proof.Tests
end

namespace Sys2Proof.Machine

/-- What a step that answers a next state has done: nothing, when no move is pending (R217), or the first pending move, from
the state in which that move is taken off the script. -/
theorem step_next {s t : State} (h : step s = .next t) :
    s.script = [] ∧ t = s ∨
      ∃ m rest, s.script = m :: rest ∧ runMove m { s with script := rest } = .next t := by
  cases hs : s.script with
  | nil =>
    have hidle : step s = .next s := by simp only [step, hs]
    exact .inl ⟨rfl, Host.Outcome.next.inj (h.symm.trans hidle)⟩
  | cons m rest => exact .inr ⟨m, rest, rfl, (step_cons hs).symm.trans h⟩

/-- Settles O59: an idle step keeps the whole state, and every move keeps the parameters (`runMove_cfg`: no instruction writes
them, and RESET hands them on). -/
theorem noStepChangesTheParameters : Obligations.NoStepChangesTheParameters := by
  intro s t h
  rcases step_next h with ⟨-, rfl⟩ | ⟨m, rest, -, hmove⟩
  · rfl
  · have hcfg : t.cfg = ({ s with script := rest } : State).cfg := runMove_cfg hmove
    exact hcfg

end Sys2Proof.Machine

namespace Sys2Proof.Machine

/-! ### The invariant -/

/-- Settles O58: an idle step keeps the whole state, and the first pending move keeps the invariant (`runMove_inv`), which does
not speak of the moves behind it (`inv_script`). -/
theorem everyStepKeepsTheInvariant : Obligations.EveryStepKeepsTheInvariant := by
  intro s t hs h
  rcases step_next h with ⟨-, rfl⟩ | ⟨m, rest, -, hmove⟩
  · exact hs
  · exact runMove_inv (inv_script hs rest) hmove

/-- Settles O57: empty memories, empty output and the sequencer's initial values are legal; the registers and the parameters
are evaluated. -/
theorem resetMeetsTheInvariant : Obligations.ResetMeetsTheInvariant where
  cfg := by decide
  memory := Memory.wf_reset
  status := by decide
  plan := by decide
  output := outputLegal_empty rfl rfl
  seq := seqLegal_initial _

/-! ### The host's register moves (R20, R44) -/

/-- Settles O46: the RESET move leaves `resetRegs`, whose registers and buffers are those of the reset state. -/
theorem resetGivesTheResetValues : Obligations.ResetGivesTheResetValues := by
  have hnone : ∀ x y, State.reset.canvas.has x y = false := fun x y => by simp [Canvas.has, State.reset]
  refine ⟨⟨rfl, rfl, rfl, rfl, rfl, rfl, rfl, rfl, hnone⟩, fun s rest hs => ?_⟩
  exact ⟨_, step_cons hs, rfl, rfl⟩

/-- A write to a register other than `CMD` changes configuration registers and the draw counter only. -/
theorem writeReg_frame {r : Reg} {v : Word} {s t : State} (hr : r ≠ .cmd) (h : writeReg r v s = .next t) :
    t = { s with pixelSize := t.pixelSize, base := t.base, ilen := t.ilen, draws := t.draws } := by
  cases r
  case cmd => exact absurd rfl hr
  all_goals cases h
  all_goals rfl

/-- A write to a register other than `CMD` changes what no other register reads. -/
theorem readReg_writeReg_other {r r' : Reg} {v : Word} {s t : State} (hr : r ≠ .cmd) (hne : r' ≠ r)
    (h : writeReg r v s = .next t) : readReg r' t = readReg r' s := by
  cases r
  case cmd => exact absurd rfl hr
  all_goals cases h
  all_goals cases r' <;> simp at hne <;> rfl

/-- A value that 8 bits hold is the zero-extension of its low 8 bits. -/
theorem setWidth_byte {v : Word} (h : v.toNat < 256) : (v.setWidth 8).setWidth 32 = v := by
  refine BitVec.eq_of_toNat_eq ?_
  simp only [BitVec.toNat_setWidth]
  omega

/-- A configuration register takes every value of its width and reads it back. -/
theorem readReg_writeReg_same {r : Reg} {v : Word} (s : State)
    (hr : r = .pixelSize ∨ r = .baseR ∨ r = .baseG ∨ r = .baseB ∨ r = .ilen) (hv : v.toNat < 2 ^ r.width) :
    ∃ t, writeReg r v s = .next t ∧ readReg r t = v := by
  have hbyte : v.toNat < 256 → (writtenByte v s.draws).setWidth 32 = v := fun h => by
    rw [(writtenByte_fits h _).1, setWidth_byte h]
  rcases hr with rfl | rfl | rfl | rfl | rfl
  · exact ⟨_, rfl, rfl⟩
  · exact ⟨_, rfl, hbyte hv⟩
  · exact ⟨_, rfl, hbyte hv⟩
  · exact ⟨_, rfl, hbyte hv⟩
  · exact ⟨_, rfl, rfl⟩

theorem writtenDraws_wide {v : Word} (h : 256 ≤ v.toNat) (d : Nat) : writtenDraws v d = d + 1 := if_neg (by omega)

/-- A value wider than a base register draws one free value, and nothing but the base color changes (log 10). -/
theorem writeReg_base_wide {r : Reg} {v : Word} (s : State) (hr : r = .baseR ∨ r = .baseG ∨ r = .baseB) (hv : 256 ≤ v.toNat) :
    ∃ t, writeReg r v s = .next t ∧ t = { s with base := t.base, draws := s.draws + 1 } := by
  rw [← writtenDraws_wide hv s.draws]
  rcases hr with rfl | rfl | rfl
  · exact ⟨_, rfl, rfl⟩
  · exact ⟨_, rfl, rfl⟩
  · exact ⟨_, rfl, rfl⟩

/-- Settles O47: the write reaches its register (`readReg_writeReg_same`) and no other (`readReg_writeReg_other`), nor a memory
(`writeReg_frame`), and the read that follows changes no register; a wider value is `writeReg_base_wide`. -/
theorem configurationRegistersReadBack : Obligations.ConfigurationRegistersReadBack := by
  constructor
  · intro s r v rest hr hv hs
    have hcmd : r ≠ .cmd := by rintro rfl; simp at hr
    obtain ⟨t, hw, hread⟩ := readReg_writeReg_same { s with script := .rd r :: rest } hr hv
    have hframe := writeReg_frame hcmd hw
    have hother : ∀ r', r' ≠ r → readReg r' t = readReg r' { s with script := .rd r :: rest } := fun r' hne =>
      readReg_writeReg_other hcmd hne hw
    have hscript : t.script = .rd r :: rest := by rw [hframe]
    have hcanvas : t.canvas = s.canvas := by rw [hframe]
    have hibuf : t.ibuf = s.ibuf := by rw [hframe]
    have hobuf : t.obuf = s.obuf := by rw [hframe]
    exact ⟨t, _, (step_wr hs).trans hw, step_cons hscript, congrArg HostData.value hread, rfl, hother, hcanvas, hibuf, hobuf⟩
  · intro s r v rest hr hv hs
    have hcmd : r ≠ .cmd := by rintro rfl; simp at hr
    obtain ⟨t, hw, ht⟩ := writeReg_base_wide { s with script := rest } hr hv
    have hother : ∀ r', r' ≠ r → readReg r' t = readReg r' { s with script := rest } := fun r' hne =>
      readReg_writeReg_other hcmd hne hw
    exact ⟨t, (step_wr hs).trans hw, ht, hother⟩

/-- Registers 7 to 14 are not written by the host (log 9). -/
theorem writeReg_readOnly {r : Reg} (h : 7 ≤ r.number) (v : Word) (s : State) :
    writeReg r v s = .refused (.readOnly r) := by
  cases r <;> simp [Reg.number] at h <;> rfl

/-- Settles O48: each clause is the move's own equation; a read is the register, zero-extended. -/
theorem readOnlyRegistersKeepTheirValue : Obligations.ReadOnlyRegistersKeepTheirValue := by
  have hext : ∀ {w : Nat} (x : BitVec w), w ≤ 32 → (x.setWidth 32).toNat = x.toNat := fun _ hw =>
    BitVec.toNat_setWidth_of_le hw
  refine ⟨fun s v rest hs => step_wr hs, fun s rest hs => step_cons hs, fun s r rest hs => step_cons hs, fun s => ?_,
    fun s r v rest hs hr => (step_wr hs).trans (writeReg_readOnly hr v _)⟩
  exact ⟨hext _ (by decide), rfl, hext _ (by decide), hext _ (by decide), hext _ (by decide), rfl, hext _ (by decide),
    hext _ (by decide), hext _ (by decide), hext _ (by decide), rfl, rfl, rfl, rfl⟩

/-! ### The host's buffer moves (R27, R28) -/

/-- WRB of cells that exist. -/
theorem step_wrb {s : State} {i : Nat} {bs : List Byte} {rest : List Move} (hs : s.script = .wrb i bs :: rest)
    (h : i + bs.length ≤ 765) : step s = .next { s with script := rest, ibuf := writeCells s.ibuf i bs } :=
  (step_cons hs).trans (if_pos h)

/-- WRB beyond the last cell (log 11). -/
theorem step_wrb_beyond {s : State} {i : Nat} {bs : List Byte} {rest : List Move} (hs : s.script = .wrb i bs :: rest)
    (h : 765 < i + bs.length) : step s = .fault .noSuchCell :=
  (step_cons hs).trans (if_neg (Nat.not_le.mpr h))

/-- RDB within a buffer: as many bytes as asked, each listed cell's byte among them, and a frame. -/
theorem step_rdb {s : State} {b : Buffer} {i n : Nat} {rest : List Move} (hs : s.script = .rdb b i n :: rest)
    (h : withinBuffer b (i + n) s = true) :
    ∃ t bs, step s = .next t ∧ t = { s with script := rest, rdata := .bytes bs, draws := t.draws } ∧ bs.length = n ∧
      ∀ j c, j < n → lookupCell (i + j) (bufferCells b s) = some c → bs[j]? = some c :=
  ⟨{ s with script := rest, rdata := .bytes (readCells (bufferCells b s) i n s.draws).1,
            draws := (readCells (bufferCells b s) i n s.draws).2 }, _,
    (step_cons hs).trans (if_pos h), rfl, readCells_length _ _ _ _, fun _ _ hj hc => readCells_getElem? _ _ _ _ _ hj hc⟩

/-- Settles O50: WRB at cell 0, then the length to `ILEN`; the cells written are the input that `readInput` reads. -/
theorem loadedInputIsWhatCommandsRead : Obligations.LoadedInputIsWhatCommandsRead := by
  intro s bs rest hlen hs
  have hlength : (BitVec.ofNat 32 bs.length).toNat = bs.length := by simp only [BitVec.toNat_ofNat]; omega
  have hread : readInput (writeCells s.ibuf 0 bs) 0 (BitVec.ofNat 32 bs.length).toNat = some bs :=
    readInput_iff.mpr ⟨hlength.symm, fun _ hj => lookupCell_writeCells hj⟩
  have hframe : ∀ a, bs.length ≤ a → lookupCell a (writeCells s.ibuf 0 bs) = lookupCell a s.ibuf := fun a ha =>
    lookupCell_writeCells_other (.inr (by omega))
  have hwr : step { s with script := .wr .ilen (BitVec.ofNat 32 bs.length) :: rest, ibuf := writeCells s.ibuf 0 bs } =
      .next { s with script := rest, ibuf := writeCells s.ibuf 0 bs, ilen := BitVec.ofNat 32 bs.length } := rfl
  exact ⟨_, _, step_wrb hs (by omega), hwr, rfl, hlength, hread, hframe⟩

/-- Settles O51: the equations of the two moves with the laws of `writeCells` and `readCells`. -/
theorem inputCellsReadBackWhatWasWritten : Obligations.InputCellsReadBackWhatWasWritten := by
  refine ⟨fun s i bs rest hs => ⟨fun hin => ?_, step_wrb_beyond hs⟩, fun s i n rest hs hin => ?_⟩
  · refine ⟨_, step_wrb hs hin, rfl, fun j b hb => ?_, fun a ha => lookupCell_writeCells_other ha⟩
    obtain ⟨hj, rfl⟩ := List.getElem?_eq_some_iff.mp hb
    exact lookupCell_writeCells hj
  · exact step_rdb hs (decide_eq_true hin)

/-- Settles O52: RDB of the window `OBUF`, which ends at `OBUF_CAP`. -/
theorem outputReadsReturnSpecifiedCells : Obligations.OutputReadsReturnSpecifiedCells :=
  fun _ _ _ _ hs hin => step_rdb hs hin

/-! ### The frames of the instructions (R31, R43) -/

/-- Settles O53: no effect of an instruction writes what the host writes. -/
theorem noInstructionWritesConfigurationOrInput : Obligations.NoInstructionWritesConfigurationOrInput :=
  fun _ _ _ h => exec_host h

/-- Settles O54, by the ends of each command: the errors of its checks, the errors of the scan, completion. -/
theorem commandsLeaveTheRestAlone : Obligations.CommandsLeaveTheRestAlone := by
  refine fun s t => ⟨fun h => ?_, fun h => ?_, fun h => ?_⟩
  · rcases execEncode_next h with ⟨-, rfl⟩ | ⟨-, rfl⟩ | ⟨input, -, rfl⟩
    · exact ⟨rfl, by simp, by simp⟩
    · exact ⟨rfl, by simp, by simp⟩
    · exact ⟨rfl, by simp [encodedState], by simp [encodedState]⟩
  · rcases execPlan_next h with ⟨-, rfl⟩ | ⟨-, rfl⟩ | ⟨input, -, rfl⟩
    · exact ⟨rfl, by simp, by simp⟩
    · exact ⟨rfl, by simp, by simp⟩
    · exact ⟨rfl, by simp [plannedState], by simp [plannedState]⟩
  · rcases execDecode_next h with ⟨-, rfl⟩ | rfl | ⟨q, -, rfl | ⟨-, rfl⟩⟩
    · exact ⟨rfl, by simp⟩
    · exact ⟨rfl, by simp⟩
    · exact ⟨rfl, by simp⟩
    · exact ⟨rfl, by simp [decodedState]⟩

/-- Settles O55, by the effects an instruction can have, each of which names the instructions that have it. -/
theorem onlyTheNamedInstructionsChangeEachMemory : Obligations.OnlyTheNamedInstructionsChangeEachMemory := by
  intro i s t h
  cases exec_effect h with
  | inputTooLarge hi => exact ⟨.inl rfl, .inl rfl, .inl ⟨rfl, rfl⟩, by tauto⟩
  | invalidPixelSize hi => exact ⟨.inl rfl, .inl rfl, .inl ⟨rfl, rfl⟩, by tauto⟩
  | illegalCommand code hi => exact ⟨.inl rfl, .inl rfl, .inl ⟨rfl, rfl⟩, .inr (.inr (.inr (.inr (.inl ⟨code, hi⟩))))⟩
  | bufferOverrun hi => exact ⟨.inl rfl, .inl rfl, by tauto, by tauto⟩
  | invalidEncoding q hi => exact ⟨.inl rfl, .inl rfl, by tauto, by tauto⟩
  | encoded input hi => exact ⟨.inr (.inl hi), .inr (.inl hi), .inl ⟨rfl, rfl⟩, .inr (.inl hi)⟩
  | planned input hi => exact ⟨.inl rfl, .inr (.inr hi), .inl ⟨rfl, rfl⟩, .inr (.inr (.inl hi))⟩
  | decoded q hi => exact ⟨.inl rfl, .inl rfl, .inr (.inl hi), .inr (.inr (.inr (.inl hi)))⟩
  | block a d z p hi => exact ⟨.inr (.inr (.inl hi)), .inl rfl, .inl ⟨rfl, rfl⟩, .inl rfl⟩
  | wrblk a d k m p hi => exact ⟨.inr (.inr (.inr ⟨k, m, p, hi⟩)), .inl rfl, .inl ⟨rfl, rfl⟩, .inl rfl⟩
  | unit => exact ⟨.inl rfl, .inl rfl, .inl ⟨rfl, rfl⟩, .inl rfl⟩

/-- Settles O56: by `command_agree` the two runs end alike, in states that look the same or in one refusal; the outcome that
an assumption names is the one of these two. -/
theorem commandsReadOnlyTheVisibleState : Obligations.CommandsReadOnlyTheVisibleState := by
  intro i s s' hi hv hd
  rcases command_agree hi hv hd with ⟨t, t', h, h', hvis⟩ | ⟨r, h, h'⟩
  · rw [h, h']
    refine ⟨?_, nofun, nofun⟩
    rintro _ ⟨⟩
    exact ⟨t', rfl, hvis⟩
  · rw [h, h']
    exact ⟨fun _ hnext => (nomatch hnext), fun _ hr => hr, nofun⟩

end Sys2Proof.Machine

namespace Sys2Proof.Machine

/-! ### The map of an encoded canvas (R69) -/

theorem dataPixel_chunkColor (base c : Rgb) :
    dataPixel (chunkColor base c) = ⟨satAdd base.r c.r, satAdd base.g c.g, satAdd base.b c.b, 255⟩ := by
  simp only [dataPixel, chunkColor, clampAdd_eq_satAdd]

/-- The least root is the only one (R136). -/
theorem ceilSqrt_unique {t n : Nat} (h : t ≤ n * n) (hleast : ∀ m, m < n → m * m < t) : n = ceilSqrt t := by
  refine Nat.le_antisymm (Nat.le_of_not_lt fun hlt => ?_) (ceilSqrt_le h)
  exact absurd (ceilSqrt_least t).1 (Nat.not_le.mpr (hleast _ hlt))

/-- A square of least side leaves fewer blocks unused than its last row and column have (R69). -/
theorem unused_le {t n : Nat} (ht : 1 ≤ t) (hleast : ∀ m, m < n → m * m < t) : n * n - t ≤ 2 * n - 2 := by
  cases n with
  | zero => omega
  | succ m =>
    have hm := hleast m (Nat.lt_succ_self m)
    have hsq : (m + 1) * (m + 1) = m * m + 2 * m + 1 := by ring
    omega

/-- What a described layout says of the pass it was planned for. -/
theorem describes_pass {p : Plan} {base : Rgb} {size : Nat} {input : List Byte} (h : p.describes base size input) :
    p.nchunk.toNat = (chunkBytes input).length ∧ p.total.toNat = passTotal (overflowPass base (chunkBytes input)) ∧
      p.nside.toNat = ceilSqrt (passTotal (overflowPass base (chunkBytes input))) := by
  obtain ⟨hnchunk, hnovf, htotal, hfit, hleast, -⟩ := h
  have hn : p.nchunk.toNat = (chunkBytes input).length := by rw [hnchunk, chunkBytes_length]
  have ht : p.total.toNat = passTotal (overflowPass base (chunkBytes input)) := by rw [passTotal_eq, htotal, hn, hnovf]
  exact ⟨hn, ht, ht ▸ ceilSqrt_unique hfit hleast⟩

/-- The block order puts the data blocks first. -/
theorem blockPixels_data {q : Seq} {k : Nat} {c : Rgb} (h : q.colors[k]? = some c) :
    (blockPixels q).getD k Pixel.zero = dataPixel c := by
  obtain ⟨hk, rfl⟩ := List.getElem?_eq_some_iff.mp h
  simp [blockPixels, List.getElem?_append, hk]

/-- The data block of a chunk holds its clamped colour. -/
theorem blockPixels_chunk {base : Rgb} {cs : List Rgb} {k : Nat} {c : Rgb} (h : cs[k]? = some c) :
    (blockPixels (overflowPass base cs)).getD k Pixel.zero =
      ⟨satAdd base.r c.r, satAdd base.g c.g, satAdd base.b c.b, 255⟩ := by
  rw [← dataPixel_chunkColor]
  exact blockPixels_data (by simp [h])

/-- After the data blocks stands the separator. -/
theorem blockPixels_separator (q : Seq) : (blockPixels q).getD q.colors.length Pixel.zero = Pixel.zero := by
  simp [blockPixels]

/-- After the separator stand the records in their order. -/
theorem blockPixels_record {q : Seq} {k : Nat} {r : Record} (hk : q.colors.length < k)
    (h : q.orb[k - q.colors.length - 1]? = some r) : (blockPixels q).getD k Pixel.zero = recPack r := by
  have hlen : (q.colors.map dataPixel ++ [Pixel.zero]).length = q.colors.length + 1 := by simp
  rw [List.getD_eq_getElem?_getD, blockPixels, List.getElem?_append_right (by omega), hlen, ← Nat.sub_sub,
    List.getElem?_map, h]
  rfl

/-- Beyond the records nothing is emitted. -/
theorem blockPixels_unused {q : Seq} {k : Nat} (h : passTotal q ≤ k) : (blockPixels q).getD k Pixel.zero = Pixel.zero :=
  List.getD_eq_default _ _ (by simpa using h)

/-- The encoded canvas is a square of `N·s` by `N·s` pixels. -/
theorem paint_size {q : Seq} {size : Nat} (hw : ceilSqrt (passTotal q) * size < 4294967296) :
    (paint q size).2.cw.toNat = ceilSqrt (passTotal q) * size ∧
      (paint q size).2.ch.toNat = ceilSqrt (passTotal q) * size := by
  rw [paint_cw, paint_ch]
  exact ⟨Nat.mod_eq_of_lt hw, Nat.mod_eq_of_lt hw⟩

/-- Every pixel of a block of the layout exists on the encoded canvas and holds the block's pixel (R69, R140). -/
theorem paint_block {q : Seq} {size k x y : Nat} (hs : 0 < size) (hw : ceilSqrt (passTotal q) * size < 4294967296)
    (hk : k < ceilSqrt (passTotal q) * ceilSqrt (passTotal q))
    (hxy : (blockArea k (ceilSqrt (passTotal q)) size).contains x y = true) :
    (paint q size).2.has x y = true ∧ (paint q size).2.pixelAt x y = (blockPixels q).getD k Pixel.zero := by
  obtain ⟨hright, hbottom⟩ := blockArea_inside (s := size) hk
  obtain ⟨-, hx, -, hy⟩ := blockArea_contains_iff.mp hxy
  have hx' : x < ceilSqrt (passTotal q) * size := lt_of_lt_of_le hx hright
  have hy' : y < ceilSqrt (passTotal q) * size := lt_of_lt_of_le hy hbottom
  obtain ⟨hcw, hch⟩ := paint_size hw
  constructor
  · rw [Canvas.has_iff, hcw, hch]
    exact ⟨hx', hy'⟩
  · rw [paint_pixelAt hs hx' hw, (contains_iff_index hs hx').mp hxy]

/-- Settles O14: the layout is the one the planner describes (`planOf_describes`), and a pixel holds what the block order has at
its block's index (`paint_block`), by the four ranges of that index. -/
theorem encodedCanvasIsTheBlockMap : Obligations.EncodedCanvasIsTheBlockMap := by
  intro s t input hcfg hin h
  obtain rfl := Host.Outcome.next.inj ((execEncode_ok hin).symm.trans h)
  obtain ⟨hs, hmax⟩ := pixelSize_usable hin.2.1
  have hsize : s.pixelSize.toNat ≤ 134217727 := le_trans hmax (cfg_sizeMax hcfg)
  have hfits := side_fits (base := s.base) (hasInput_chunks hin) hsize
  have hplan := planOf_describes (base := s.base) (hasInput_chunks hin) hsize
  obtain ⟨hnchunk, htotal, hnside⟩ := describes_pass hplan
  obtain ⟨-, -, hsum, hroot, hleast, -⟩ := hplan
  have hcolors : (overflowPass s.base (chunkBytes input)).colors.length = (chunkBytes input).length := by simp
  have hunused := unused_le (by omega) hleast
  obtain ⟨hcw, hch⟩ := paint_size hfits
  refine ⟨⟨hnside ▸ hcw, hnside ▸ hch, hsum, hroot, hunused⟩, fun k x y hk hxy => ?_⟩
  rw [hnside] at hk hxy
  obtain ⟨hhas, hpixel⟩ := paint_block hs hfits hk hxy
  rw [hpixel, hnchunk, htotal]
  refine ⟨hhas, fun hdata => ?_, ?_, fun hsep hrec => ?_, blockPixels_unused⟩
  · have hc := List.getElem?_eq_getElem hdata
    exact ⟨_, hc, blockPixels_chunk hc⟩
  · rintro rfl
    rw [← hcolors]
    exact blockPixels_separator _
  · rw [← hcolors] at hsep ⊢
    have hr := List.getElem?_eq_getElem (l := (overflowPass s.base (chunkBytes input)).orb)
      (i := k - (overflowPass s.base (chunkBytes input)).colors.length - 1)
      (by simp only [passTotal, totalBlocks] at hrec; omega)
    exact ⟨_, hr, blockPixels_record hsep hr⟩

/-! ### The host's canvas moves (R62 to R65) -/

/-- SET of a pixel of the canvas (R63). -/
theorem step_set {s : State} {x y : Nat} {p : Pixel} {rest : List Move} (hs : s.script = .set x y p :: rest)
    (h : s.canvas.has x y = true) : step s = .next { s with script := rest, canvas := s.canvas.put x y p } :=
  (step_cons hs).trans (if_pos h)

/-- SET outside the canvas (R65, log 11). -/
theorem step_set_outside {s : State} {x y : Nat} {p : Pixel} {rest : List Move} (hs : s.script = .set x y p :: rest)
    (h : s.canvas.has x y = false) : step s = .fault .noSuchPixel :=
  (step_cons hs).trans (if_neg (Bool.eq_false_iff.mp h))

/-- GET of a pixel of the canvas (R62). -/
theorem step_get {s : State} {x y : Nat} {rest : List Move} (hs : s.script = .get x y :: rest)
    (h : s.canvas.has x y = true) : step s = .next { s with script := rest, rdata := .pixel (s.canvas.pixelAt x y) } :=
  (step_cons hs).trans (if_pos h)

/-- GET outside the canvas (R65, log 11). -/
theorem step_get_outside {s : State} {x y : Nat} {rest : List Move} (hs : s.script = .get x y :: rest)
    (h : s.canvas.has x y = false) : step s = .fault .noSuchPixel :=
  (step_cons hs).trans (if_neg (Bool.eq_false_iff.mp h))

/-- Setting a pixel to what it holds leaves the canvas as it is: the canonical form has one list for these pixels. -/
theorem Canvas.put_pixelAt {c : Canvas} (hc : c.wf = true) {x y : Nat} (h : c.has x y = true) :
    c.put x y (c.pixelAt x y) = c := by
  refine Canvas.ext_pixels (Canvas.put_wf hc h _) hc rfl rfl fun u v huv => ?_
  rw [Canvas.pixelAt_put (Canvas.wf_rising hc) (Canvas.has_lt h).1 (Canvas.has_lt huv).1]
  split
  case isTrue heq => obtain ⟨rfl, rfl⟩ := heq; rfl
  case isFalse => rfl

/-- Settles O49: the equations of the three moves with the laws of `Canvas.put`; a pixel set to its own value is
`Canvas.put_pixelAt`. -/
theorem canvasPrimitivesReadWhatWasWritten : Obligations.CanvasPrimitivesReadWhatWasWritten := by
  refine ⟨fun s w h rest hs => ⟨_, step_cons hs, rfl, rfl, rfl, fun _ _ _ => rfl⟩,
    fun s x y p rest hc hs => ⟨fun hxy => ?_, step_set_outside hs⟩,
    fun s x y rest hs => ⟨step_get hs, step_get_outside hs⟩⟩
  have hother : ∀ u v, s.canvas.has u v = true → ¬ (u = x ∧ v = y) →
      (s.canvas.put x y p).pixelAt u v = s.canvas.pixelAt u v := fun u v huv hne =>
    Canvas.pixelAt_put_other (Canvas.has_lt hxy).1 (Canvas.has_lt huv).1 hne _ _
  refine ⟨_, step_set hs hxy, rfl, rfl, rfl, Canvas.pixelAt_put_same (Canvas.wf_rising hc) x y p, hother, ?_⟩
  rintro rfl
  exact Canvas.put_pixelAt hc hxy

end Sys2Proof.Machine

namespace Sys2Proof

/-! ### The decoder and the encoder of instructions (R82 to R84, R88, R90) -/

/-- The round trip of every instruction, by the family with one lemma per constructor. -/
theorem roundTrip : ∀ i : Instr, Laws.RoundTrip.Statement i
  | .encode => Laws.RoundTrip.encode
  | .decode => Laws.RoundTrip.decode
  | .plan => Laws.RoundTrip.plan
  | .cmdReserved code => Laws.RoundTrip.cmdReserved code
  | .blkData r g b => Laws.RoundTrip.blkData r g b
  | .blkSep => Laws.RoundTrip.blkSep
  | .blkOvfR idx mag => Laws.RoundTrip.blkOvfR idx mag
  | .blkOvfG idx mag => Laws.RoundTrip.blkOvfG idx mag
  | .blkOvfB idx mag => Laws.RoundTrip.blkOvfB idx mag
  | .decSep => Laws.RoundTrip.decSep
  | .decData p => Laws.RoundTrip.decData p
  | .decSkip r g b => Laws.RoundTrip.decSkip r g b
  | .decRec p => Laws.RoundTrip.decRec p
  | .chunk => Laws.RoundTrip.chunk
  | .unpack d => Laws.RoundTrip.unpack d
  | .strip => Laws.RoundTrip.strip
  | .clampadd b d => Laws.RoundTrip.clampadd b d
  | .ovfrec n c => Laws.RoundTrip.ovfrec n c
  | .countOverflow cs => Laws.RoundTrip.countOverflow cs
  | .recpack r => Laws.RoundTrip.recpack r
  | .recunpack p => Laws.RoundTrip.recunpack p
  | .total nch novf => Laws.RoundTrip.total nch novf
  | .csqrt t => Laws.RoundTrip.csqrt t
  | .side n => Laws.RoundTrip.side n
  | .blkaddr k m => Laws.RoundTrip.blkaddr k m
  | .wrblk k m p => Laws.RoundTrip.wrblk k m p
  | .issep p => Laws.RoundTrip.issep p
  | .diff p => Laws.RoundTrip.diff p
  | .apply t => Laws.RoundTrip.apply t
  | .textchk => Laws.RoundTrip.textchk

/-- Settles O1: the family of round trips, for every constructor (`roundTrip`). -/
theorem encodedInstructionsDecodeToThemselves : Obligations.EncodedInstructionsDecodeToThemselves := roundTrip

/-- What the command lane reads: one byte, by the command decoder (R90). -/
theorem decode_cmd_ok {bs rest : List Byte} {i : Instr} (h : decode .cmd bs = .ok (i, rest)) :
    ∃ v, bs = v :: rest ∧ i = decodeCmd v := by
  cases bs with
  | nil => cases h
  | cons v bs => cases h; exact ⟨v, rfl, rfl⟩

/-- What every other lane reads: four bytes as a pixel, by the pixel decoder of the lane (R66). -/
theorem decode_pixel_ok {l : Lane} {bs rest : List Byte} {i : Instr} (hl : l ≠ .cmd) (h : decode l bs = .ok (i, rest)) :
    ∃ p, bs = pixelBytes p ++ rest ∧ decodePixel l p = .ok i := by
  cases hp : takePixel bs with
  | none => simp only [decode, hp, reduceCtorEq] at h
  | some taken =>
    obtain ⟨p, left⟩ := taken
    cases hi : decodePixel l p with
    | error e => simp only [decode, hp, hi, reduceCtorEq] at h
    | ok j =>
      simp only [decode, hp, hi] at h
      cases h
      exact ⟨p, takePixel_some hp, hi⟩

/-- Settles O2: a code is read back by `encode_decodeCmd`, a pixel by `decodePixel_ok`, and both decoders answer well-formed
instructions only. -/
theorem decodedInstructionsEncodeBack : Obligations.DecodedInstructionsEncodeBack := by
  intro l bs rest i h
  by_cases hl : l = .cmd
  · subst hl
    obtain ⟨v, rfl, rfl⟩ := decode_cmd_ok h
    exact ⟨decodeCmd_wf v, [v], encode_decodeCmd v, rfl⟩
  · obtain ⟨p, rfl, hp⟩ := decode_pixel_ok hl h
    obtain ⟨hwf, henc⟩ := decodePixel_ok hp
    exact ⟨hwf, pixelBytes p, henc, rfl⟩

/-- Settles O3: eleven closed words, evaluated by the decoder. -/
theorem tableWordsDecodeToTheirRows : Obligations.TableWordsDecodeToTheirRows := by
  unfold Obligations.TableWordsDecodeToTheirRows
  decide

/-- What `decodeTableWord` reads is what the word's lane decodes from its bytes. -/
theorem decodeTableWord_some {nbits w : Nat} {i : Instr} (h : decodeTableWord nbits w = some i) :
    ∃ rest, decode (tableLane nbits w) (tableBytes nbits w) = .ok (i, rest) := by
  unfold decodeTableWord at h
  split at h
  case isTrue => cases h
  case isFalse =>
    split at h
    case h_1 rest hd => cases h; exact ⟨rest, hd⟩
    case h_2 => cases h

/-- Only a code of at most 8 bits is read in the command lane (log 13). -/
theorem tableLane_cmd {nbits w : Nat} (h : tableLane nbits w = .cmd) : nbits ≤ 8 := by
  by_contra hbits
  simp only [tableLane, if_neg hbits] at h
  split_ifs at h

end Sys2Proof

namespace Sys2Proof.Machine

/-! ### A step and the instruction it decodes (R90, R91, R217) -/

/-- With nothing pending a step keeps the state (R217). -/
theorem step_idle {s : State} (h : s.script = []) : step s = .next s := by simp only [step, h]

/-- Bytes that a lane decodes run as the instruction they decode to. -/
theorem runBytes_ok {l : Lane} {bs left : List Byte} {i : Instr} (h : decode l bs = .ok (i, left)) (s : State) :
    runBytes l bs s = exec i s := by simp only [runBytes, h]

/-- A value of 8 bits written to `CMD` is read in the command lane (R90). -/
theorem writeReg_cmd {v : Word} (h : v.toNat < 256) (s : State) : writeReg .cmd v s = runBytes .cmd [v.setWidth 8] s :=
  if_pos h

/-- Settles O4: each kind of move hands its bytes to the decoder of its lane (`runBytes_ok`) or the instruction to `exec`. -/
theorem stepRunsTheInstructionItDecodes : Obligations.StepRunsTheInstructionItDecodes := by
  refine ⟨fun s v rest i left hs hv hd => ?_, fun s z bytes left rest i hs hd => ?_, fun s bytes left rest i hs hd => ?_,
    fun s rest i hs => step_cons hs, fun s hs => step_idle hs⟩
  · rw [step_wr hs, writeReg_cmd hv, runBytes_ok hd]
  · exact (step_cons hs).trans (runBytes_ok hd _)
  · exact (step_cons hs).trans (runBytes_ok hd _)

/-- The move of a table word presents the word's bytes in the word's lane, once the classifier is in the word's phase. -/
theorem runMove_tableMove {nbits w : Nat} {s : State} (hph : tablePhase nbits w s.seq.phase = s.seq.phase) :
    runMove (tableMove nbits w) s = runBytes (tableLane nbits w) (tableBytes nbits w) s := by
  cases hl : tableLane nbits w <;> simp only [tableMove, hl]
  case cmd =>
    have hcode : (BitVec.ofNat 32 (w % 256)).setWidth 8 = BitVec.ofNat 8 w := by
      refine BitVec.eq_of_toNat_eq ?_
      simp only [BitVec.toNat_setWidth, BitVec.toNat_ofNat]
      omega
    have hbytes : tableBytes nbits w = [BitVec.ofNat 8 w] := if_pos (tableLane_cmd hl)
    rw [hbytes, ← hcode]
    exact writeReg_cmd (by simp only [BitVec.toNat_ofNat]; omega) s
  case emitData => rfl
  case emitSep => rfl
  case emitOvf => rfl
  case sample ph =>
    have hphase : ph = s.seq.phase := by simpa only [tablePhase, hl] using hph
    rw [hphase]
    rfl

theorem tablePhase_idem (nbits w : Nat) (ph : Phase) : tablePhase nbits w (tablePhase nbits w ph) = tablePhase nbits w ph := by
  unfold tablePhase
  cases tableLane nbits w <;> rfl

/-- Settles O5: the placed word is the only pending move, and that move reads it in its lane (`runMove_tableMove`). -/
theorem placedTableWordRunsNext : Obligations.PlacedTableWordRunsNext := by
  intro s nbits w i h
  obtain ⟨rest, hd⟩ := decodeTableWord_some h
  rw [step_cons (withFetchWord_script s nbits w), runMove_tableMove (tablePhase_idem nbits w s.seq.phase), runBytes_ok hd]
  rfl

/-! ### A sampled pixel as one round of the scan (R88, R182) -/

/-- The instruction of a class of sampled pixels (R88). -/
def classInstr (p : Pixel) : PixelClass → Instr
  | .sep => .decSep
  | .data => .decData p
  | .skip => .decSkip p.r p.g p.b
  | .record => .decRec p

/-- The decoder reads a sampled pixel as the instruction of its class. -/
theorem decodeSample_eq (ph : Phase) (p : Pixel) : decodeSample ph p = classInstr p (classify ph p) := by
  cases ph with
  | collectingData =>
    by_cases hp : p = Pixel.zero
    · simp only [decodeSample, classify, isSep_iff, if_pos hp, classInstr]
    · simp only [decodeSample, classify, isSep_iff, if_neg hp, classInstr]
  | collectingOverflow =>
    by_cases ha : p.a = 0
    · simp only [decodeSample, classify, if_pos ha, classInstr]
    · simp only [decodeSample, classify, if_neg ha, classInstr]

/-- A pixel that is skipped has A = 0 (R175). -/
theorem classify_skip {ph : Phase} {p : Pixel} (h : classify ph p = .skip) : p.a = 0 := by
  cases ph <;> simp only [classify] at h <;> split at h
  case collectingOverflow.isTrue ha => exact ha
  all_goals cases h

/-- The state after a round of the scan: the sequencer's next state, or BufferOverrun (R112, R205). -/
def afterRound (s : State) : Option Seq → State
  | some q => { s with seq := q }
  | none => raise .bufferOverrun s

/-- A class instruction does the round of the scan that its class names. -/
theorem exec_decodeSample (s : State) (p : Pixel) :
    exec (decodeSample s.seq.phase p) s = .next (afterRound s (scanStep s.cfg.obufCap s.base p s.seq)) := by
  rw [decodeSample_eq]
  cases hc : classify s.seq.phase p with
  | sep =>
    have hp : p = Pixel.zero := ((classify_sep_iff _ _).mp hc).2
    subst hp
    simp only [classInstr, exec, execDecSep, scanStep, hc, if_pos, afterRound]
  | data =>
    simp only [classInstr, exec, execDecData, scanStep, hc, if_pos]
    cases stepData s.cfg.obufCap s.base p s.seq <;> rfl
  | skip =>
    have hp : (⟨p.r, p.g, p.b, 0⟩ : Pixel) = p := by rw [← classify_skip hc]
    simp only [classInstr, exec, execDecSkip, scanStep, hp, hc, if_pos, afterRound]
  | record => simp only [classInstr, exec, execDecRec, scanStep, hc, if_pos, afterRound]

/-- Settles O25: the round that `exec_decodeSample` names, by its outcome. -/
theorem sampledPixelRunsAsOneScanStep : Obligations.SampledPixelRunsAsOneScanStep := by
  intro s p
  rw [exec_decodeSample]
  exact ⟨fun q h => by rw [h]; rfl, fun h => by rw [h]; rfl⟩

/-! ### A block instruction run alone (R82 to R84, R152) -/

/-- The sequencer after a block instruction (R22, R40). -/
theorem advanced_advance {i : Instr} {p : Pixel} (h : blockPixel i = some p) (q : Seq) :
    advanced i q (advance (instrZone i) q) := by
  cases i
  case blkData => exact ⟨rfl, fun _ _ _ _ => ⟨rfl, rfl⟩, nofun, fun hne => absurd rfl (hne _ _ _)⟩
  case blkSep => exact ⟨rfl, nofun, fun _ => ⟨rfl, rfl⟩, fun _ hne => absurd rfl hne⟩
  case blkOvfR => exact ⟨rfl, nofun, nofun, fun _ _ => ⟨rfl, rfl⟩⟩
  case blkOvfG => exact ⟨rfl, nofun, nofun, fun _ _ => ⟨rfl, rfl⟩⟩
  case blkOvfB => exact ⟨rfl, nofun, nofun, fun _ _ => ⟨rfl, rfl⟩⟩
  all_goals cases h

/-- Filling an area left of column 2^32 paints it and nothing else. -/
theorem Canvas.fill_paintedFrom {c : Canvas} (hc : c.wf = true) {a : Area} (ha : a.x0 + a.size ≤ 4294967296) (p : Pixel) :
    (c.fill a p).paintedFrom c a p :=
  ⟨Canvas.fill_cw c a p, Canvas.fill_ch c a p,
    fun _ _ hxy => Canvas.pixelAt_fill (Canvas.wf_rising hc) ha (Canvas.has_lt hxy).1 p⟩

/-- The free place of a block without columns is a whole block of the canvas (R67, log 21). -/
theorem blockSquare_wholeBlock {c : Canvas} {k size d : Nat} (h0 : 0 < size) (hw : size ≤ c.cw.toNat)
    (hh : size ≤ c.ch.toNat) : (blockSquare c k 0 size d).wholeBlockOf c size := by
  obtain ⟨hcov, hsize⟩ := blockSquare_free (k := k) (d := d) h0 hw hh
  simp only [Canvas.covers, hsize, Bool.or_eq_true, Bool.and_eq_true, decide_eq_true_eq] at hcov
  obtain ⟨hright, hbottom⟩ := hcov.resolve_left (Nat.ne_of_gt h0)
  refine ⟨hsize, ?_, ?_, hright, hbottom⟩
  · rw [blockSquare, if_pos ⟨rfl, h0⟩]
    exact Nat.mul_mod_left ..
  · rw [blockSquare, if_pos ⟨rfl, h0⟩]
    exact Nat.mul_mod_left ..

theorem Area.wholeBlockOf_right {a : Area} {c : Canvas} {size : Nat} (h : a.wholeBlockOf c size) :
    a.x0 + a.size ≤ 4294967296 := by
  obtain ⟨hsize, -, -, hright, -⟩ := h
  have := c.cw.isLt
  omega

/-- A block emitted without columns on a canvas with a whole block goes to a free place (log 21). -/
theorem emitAlone_free {z : Zone} {p : Pixel} {s : State} (hcols : s.seq.cols = 0) (h0 : 0 < s.pixelSize.toNat)
    (hw : s.pixelSize.toNat ≤ s.canvas.cw.toNat) (hh : s.pixelSize.toNat ≤ s.canvas.ch.toNat) :
    emitAlone z p s = .next { s with
      seq := advance z s.seq
      canvas := s.canvas.fill (blockSquare s.canvas s.seq.k 0 s.pixelSize.toNat s.draws) p
      draws := s.draws + 2 } := by
  simp only [emitAlone, hcols, writeBlock_free h0 hw hh]

/-- Settles O39: a block instruction is an emission of its zone (`exec_block`), at its block's place (`emitAlone_fits`) or,
without columns, at a free whole block (`emitAlone_free`). -/
theorem blockInstructionsWriteTheirBlock : Obligations.BlockInstructionsWriteTheirBlock := by
  intro s i p hi hc
  rw [exec_block hi]
  refine ⟨fun hfits => ?_, fun hcols h0 hw hh => ?_⟩
  · exact ⟨_, emitAlone_fits hfits, rfl, advanced_advance hi s.seq, Canvas.fill_paintedFrom hc (blockFits_right hfits).1 p⟩
  · have hblock := blockSquare_wholeBlock (k := s.seq.k) (d := s.draws) h0 hw hh
    exact ⟨_, _, emitAlone_free hcols h0 hw hh, rfl, advanced_advance hi s.seq, hblock,
      Canvas.fill_paintedFrom hc (Area.wholeBlockOf_right hblock) p⟩

end Sys2Proof.Machine

namespace Sys2Proof.Machine

/-! ### The chunker's operations run alone (R110 to R114) -/

/-- CHUNK of an accepted, written input answers its chunks (R110). -/
theorem exec_chunk {s : State} {input : List Byte} (hlen : s.ilen.toNat ≤ 765)
    (hin : readInput s.ibuf 0 s.ilen.toNat = some input) :
    exec .chunk s = .next { s with result := .chunks (chunkBytes input) } := by
  simp only [exec, execChunk, Config.inMax, if_pos hlen, hin, answer]

/-- Settles O26: CHUNK answers the input's chunks (`exec_chunk`), whose count and bytes are `chunkBytes_length` and
`chunkBytes_getElem`. -/
theorem chunkPadsRunsOfThree : Obligations.ChunkPadsRunsOfThree := by
  intro s input hlen hin
  have hcount : (chunkBytes input).length = (s.ilen.toNat + 2) / 3 := by
    rw [chunkBytes_length, readInput_length hin]
  exact ⟨chunkBytes input, exec_chunk hlen hin, hcount, chunkBytes_getElem input⟩

/-- Settles O27: the chunks are the input followed by zero bytes (`chunkBytes_flat`), which STRIP does not see
(`stripZeros_append_zeros`); so STRIP gives the input exactly when the input is its own STRIP. -/
theorem stripUndoesPadding : Obligations.StripUndoesPadding := by
  intro input
  have hcount := chunkBytes_length input
  have hflat := chunkBytes_flat input
  have hstrip : stripZeros ((chunkBytes input).flatMap rgbBytes) = stripZeros input := by
    rw [hflat, stripZeros_append_zeros]
  refine ⟨hcount, fun hlen => ?_, ?_, ?_, hstrip, ?_⟩
  · omega
  · rw [← hcount]; exact hflat
  · omega
  · rw [hstrip]; exact stripZeros_eq_self_iff input

/-- STRIP answers the data buffer stripped, in every state (R113). -/
theorem exec_strip (s : State) : exec .strip s =
    .next { s with seq := { s.seq with out := stripZeros s.seq.buf }, result := .bytes (stripZeros s.seq.buf) } := rfl

/-- Settles O29: STRIP answers `stripZeros` of the data buffer (`exec_strip`), and `stripZeros_spec` says what that is. -/
theorem stripKeepsTheLongestPartNotEndingInZero : Obligations.StripKeepsTheLongestPartNotEndingInZero := by
  intro s
  obtain ⟨n, hbuf, hend⟩ := stripZeros_spec s.seq.buf
  exact ⟨stripZeros s.seq.buf, n, exec_strip s, hbuf, hend⟩

/-- UNPACK where three more bytes fit (R112). -/
theorem exec_unpack_within {s : State} (d : Rgb) (h : withinObuf s.cfg.obufCap (s.seq.buf.length + 3) = true) :
    exec (.unpack d) s = .next { s with seq := { s.seq with buf := s.seq.buf ++ rgbBytes d },
                                        result := .bytes (s.seq.buf ++ rgbBytes d) } := by
  simp only [exec, execUnpack, unpackBytes_within d h, answer]

theorem unpackBytes_beyond {cap : Option Nat} {buf : List Byte} (d : Rgb) (h : withinObuf cap (buf.length + 3) = false) :
    unpackBytes cap buf d = none :=
  if_neg (Bool.eq_false_iff.mp h)

/-- UNPACK where three more bytes do not fit (R112, R205). -/
theorem exec_unpack_beyond {s : State} (d : Rgb) (h : withinObuf s.cfg.obufCap (s.seq.buf.length + 3) = false) :
    exec (.unpack d) s = .next (raise .bufferOverrun s) := by
  simp only [exec, execUnpack, unpackBytes_beyond d h]

/-- BufferOverrun writes `STATUS`, empties the output and ends the sequencer, and nothing else (R206). -/
theorem raise_bufferOverrun_eq (s : State) : raise .bufferOverrun s =
    { s with status := (raise .bufferOverrun s).status, olen := 0, obuf := [], seq := Seq.initial } := rfl

/-- Settles O28, by the room that is left: the bytes are appended (`exec_unpack_within`) or BufferOverrun is raised
(`exec_unpack_beyond`). -/
theorem unpackAppendsThreeBytesOrOverruns : Obligations.UnpackAppendsThreeBytesOrOverruns := by
  intro s d
  refine ⟨exec_unpack_within d, fun hcap => ?_⟩
  exact ⟨raise .bufferOverrun s, exec_unpack_beyond d hcap, raise_bufferOverrun_eq s,
    statusErr_raise .bufferOverrun s, statusPhase_raise_bufferOverrun s, statusHigh_raise .bufferOverrun s⟩

end Sys2Proof.Machine

namespace Sys2Proof.Machine

/-! ### The clamping adder (R120, R127) -/

/-- A sum above 255 is stored as 255 and leaves its excess as the magnitude. -/
theorem clampAdd_overflow {b d : Byte} (h : 255 < b.toNat + d.toNat) :
    clampAdd b d = (255, some (BitVec.ofNat 8 (b.toNat + d.toNat - 255))) :=
  if_pos (decide_eq_true h)

/-- A sum of at most 255 is stored as it is, without a magnitude. -/
theorem clampAdd_fits {b d : Byte} (h : b.toNat + d.toNat ≤ 255) :
    clampAdd b d = (BitVec.ofNat 8 (b.toNat + d.toNat), none) :=
  if_neg (mt of_decide_eq_true (Nat.not_lt.mpr h))

/-- A lane without a magnitude did not overflow. -/
theorem sum_le_of_clampAdd_none {b d : Byte} (h : (clampAdd b d).2 = none) : b.toNat + d.toNat ≤ 255 := by
  by_contra hsum
  obtain ⟨m, hm, -⟩ := clampAdd_some (Nat.lt_of_not_le hsum)
  simp [hm] at h

/-- A lane with a magnitude overflowed by that magnitude. -/
theorem sum_of_clampAdd_some {b d mag : Byte} (h : (clampAdd b d).2 = some mag) :
    255 < b.toNat + d.toNat ∧ mag.toNat = b.toNat + d.toNat - 255 := by
  by_cases hsum : 255 < b.toNat + d.toNat
  · obtain ⟨m, hm, hmag⟩ := clampAdd_some hsum
    obtain rfl := Option.some.inj (hm.symm.trans h)
    exact ⟨hsum, hmag⟩
  · simp [clampAdd_none (Nat.le_of_not_lt hsum)] at h

/-- Settles O31: DIFF of the stored value is `min (255 − b) d` (`satSub_clampAdd`), which is `d` without overflow and `255 − b`
with it; the magnitude is then the part of `d` that is missing. -/
theorem overflowedByteIsRecovered : Obligations.OverflowedByteIsRecovered := by
  intro b d
  have hdiff := satSub_clampAdd b d
  have hd := d.isLt
  refine ⟨fun hnone => byte_ext ?_, fun mag hsome => ?_⟩
  · have hsum := sum_le_of_clampAdd_none hnone
    omega
  · obtain ⟨hsum, hmag⟩ := sum_of_clampAdd_some hsome
    have hleft : (satSub (clampAdd b d).1 b).toNat = 255 - b.toNat := by omega
    refine ⟨hleft, byte_ext ?_⟩
    rw [satAdd_toNat, hleft, hmag]
    omega

/-- Settles O30, by the two cases of the adder (`clampAdd_overflow`, `clampAdd_fits`). -/
theorem clampaddClampsAndDetectsOverflow : Obligations.ClampaddClampsAndDetectsOverflow := by
  refine fun s b d => ⟨fun hover => ?_, fun hfits => ⟨Config.freeByte s.draws, ?_⟩⟩
  · simp only [exec, execClampadd, clampAdd_overflow hover, answer]
  · simp only [exec, execClampadd, clampAdd_fits hfits, answer]

/-! ### The overflow recorder (R121 to R123) -/

/-- OVFREC in the terms of its rule: the saturated sums, and a record per overflowing channel (R121). -/
theorem ovfRec_eq (base : Rgb) (i : Byte) (c : Rgb) : ovfRec base i c =
    (⟨satAdd base.r c.r, satAdd base.g c.g, satAdd base.b c.b⟩,
      ruleRecord i .red base.r c.r ++ ruleRecord i .green base.g c.g ++ ruleRecord i .blue base.b c.b) := by
  simp only [ovfRec, clampAdd_eq_satAdd, laneRecord_eq]

/-- Settles O32: within the range of the index OVFREC answers `ovfRec`, which `ovfRec_eq` spells out. -/
theorem ovfrecRecordsEachOverflowingChannel : Obligations.OvfrecRecordsEachOverflowingChannel := by
  intro s i c hi
  simp only [exec, execOvfrec, if_pos hi, answer, ovfRec_eq]

/-- Settles O33: the count is the sum over the chunks (`countOverflow_eq`), and the pass emits as many records
(`recordsFrom_length`). -/
theorem countOverflowCountsTheRecords : Obligations.CountOverflowCountsTheRecords := by
  refine fun s cs => ⟨?_, ?_⟩
  · simp only [exec, execCountOverflow, answer, countOverflow_eq]
  · rw [overflowPass_orb, recordsFrom_length]

/-- A record of a chunk carries the chunk's index and a magnitude of at least 1 (R121). -/
theorem mem_ovfRec {base c : Rgb} {i : Byte} {r : Record} (h : r ∈ (ovfRec base i c).2) :
    r.idx = i ∧ 1 ≤ r.mag.toNat := by
  simp only [ovfRec_eq, List.mem_append] at h
  rcases h with (h | h) | h
  all_goals
    obtain ⟨hidx, -, hmag, -⟩ := mem_ruleRecord h
    exact ⟨hidx, hmag⟩

/-- A record of chunks numbered from `i` on carries the number of one of these chunks. -/
theorem mem_recordsFrom {base : Rgb} {cs : List Rgb} {i : Nat} {r : Record} (h : r ∈ recordsFrom base i cs) :
    ∃ k, k < cs.length ∧ r.idx = BitVec.ofNat 8 (i + k) ∧ 1 ≤ r.mag.toNat := by
  induction cs generalizing i with
  | nil => simp [recordsFrom] at h
  | cons c cs ih =>
    rcases List.mem_append.mp h with hfirst | hlater
    · exact ⟨0, Nat.zero_lt_succ _, mem_ovfRec hfirst⟩
    · obtain ⟨k, hk, hidx, hmag⟩ := ih hlater
      exact ⟨k + 1, Nat.succ_lt_succ hk, by rw [hidx, Nat.add_assoc, Nat.add_comm 1], hmag⟩

/-- Settles O34: the order is that of `recordsFrom_eq`; an index is the number of a chunk (`mem_recordsFrom`), which a byte holds
because there are at most 255 chunks. -/
theorem recordsComeInOrderWithinTheirRanges : Obligations.RecordsComeInOrderWithinTheirRanges := by
  intro base cs hlen
  rw [overflowPass_orb]
  refine ⟨recordsFrom_eq base 0 cs, fun r hr => ?_⟩
  obtain ⟨k, hk, hidx, hmag⟩ := mem_recordsFrom hr
  have hnumber : r.idx.toNat = k := by rw [hidx, Nat.zero_add, BitVec.toNat_ofNat]; omega
  exact ⟨by omega, by omega, hmag⟩

/-! ### The record packer (R124, R125) -/

/-- RECUNPACK of a pixel that is not transparent (R125). -/
theorem exec_recunpack_opaque {p : Pixel} (h : p.a ≠ 0) (s : State) :
    exec (.recunpack p) s = .next { s with result := .triple ⟨p.r, p.g, p.b⟩ } := if_pos h

/-- Settles O35: a packed record has alpha 255, so it is unpacked as any other pixel that is not transparent
(`exec_recunpack_opaque`). -/
theorem recordsPackAndUnpack : Obligations.RecordsPackAndUnpack :=
  fun s => ⟨fun r hmag => ⟨if_pos hmag, exec_recunpack_opaque (p := recPack r) (by decide : (255 : Byte) ≠ 0) s⟩,
    fun _ ha => exec_recunpack_opaque ha s⟩

/-! ### Operands outside the ranges of the rules (log 26) -/

/-- A number that the rule does not state is the next free value. -/
theorem answerNat_unstated {stated : Bool} (h : stated = false) (n : Nat) (s : State) :
    answerNat stated n s = .next { s with result := .nat (Config.freeNat s.draws), draws := s.draws + 1 } := by
  subst h; rfl

/-- BLKADDR without columns or with `PIXEL_SIZE = 0` draws five free values; what does not need the missing operand is as R138
gives it. -/
theorem exec_blkaddr_free (k : Nat) {m : Nat} {s : State} (h : m = 0 ∨ s.pixelSize.toNat = 0) :
    ∃ row col area, exec (.blkaddr k m) s = .next { s with result := .block row col area, draws := s.draws + 5 } ∧
      (m ≠ 0 → row = blockRow k m ∧ col = blockCol k m) ∧
      (s.pixelSize.toNat ≠ 0 → area = ⟨col * s.pixelSize.toNat, row * s.pixelSize.toNat, s.pixelSize.toNat⟩) := by
  have hdraws : (if m = 0 ∨ s.pixelSize.toNat = 0 then s.draws + 5 else s.draws) = s.draws + 5 := if_pos h
  rw [← hdraws]
  exact ⟨_, _, _, rfl, fun hm => ⟨if_neg hm, if_neg hm⟩, fun hsize => if_neg hsize⟩

/-- Row and column determine the block index (R138). -/
theorem blockRow_blockCol (k m : Nat) : k = blockRow k m * m + blockCol k m := (Nat.div_add_mod' k m).symm

/-- Settles O37: each operation takes the branch of its free value; what the rule still gives is `ovfRec_eq` for OVFREC and
`exec_blkaddr_free` for BLKADDR. -/
theorem operandsOutsideTheirRangesGiveFreeValues : Obligations.OperandsOutsideTheirRangesGiveFreeValues := by
  intro s
  refine ⟨fun nch novf h => ⟨_, answerNat_unstated ?total _ s⟩, fun t h => ⟨_, answerNat_unstated ?csqrt _ s⟩,
    fun n h => ⟨_, answerNat_unstated ?side _ s⟩, fun c => ⟨Config.freeByte s.draws, ?ovfrec⟩,
    fun r h => ⟨_, if_neg ?recpack⟩, fun p h => ⟨_, if_neg (not_not.mpr h)⟩, fun k => ?noColumns,
    fun k m hm hsize => ?noSize⟩
  case total =>
    simpa only [Bool.and_eq_false_iff, decide_eq_false_iff_not, not_le, Config.chunkMax, Config.ovfMax] using h
  case csqrt =>
    simpa only [Bool.and_eq_false_iff, decide_eq_false_iff_not, not_le, Nat.lt_one_iff, Config.nMax] using h
  case side =>
    simpa only [Bool.and_eq_false_iff, decide_eq_false_iff_not, Bool.not_eq_false', not_le, Nat.lt_one_iff, or_assoc,
      Config.nMax] using h
  case ovfrec =>
    have hi : ¬ (255 : Byte).toNat ≤ 254 := by decide
    simp only [exec, execOvfrec, if_neg hi, answer, ovfRec_eq]
  case recpack => simp [h]
  case noColumns =>
    obtain ⟨row, col, area, hexec, -, harea⟩ := exec_blkaddr_free k (s := s) (.inl rfl)
    exact ⟨row, col, area, hexec, fun hsize => harea (Nat.ne_of_gt hsize)⟩
  case noSize =>
    have hzero : s.pixelSize.toNat = 0 := by rw [hsize]; rfl
    obtain ⟨_, _, area, hexec, hplace, -⟩ := exec_blkaddr_free k (m := m) (.inr hzero)
    obtain ⟨rfl, rfl⟩ := hplace (Nat.ne_of_gt hm)
    exact ⟨_, _, area, hexec, blockRow_blockCol k m, Nat.mod_lt k hm⟩

end Sys2Proof.Machine

namespace Sys2Proof.Machine

/-! ### The layout planner (R135 to R141) -/

/-- A number that the rule states goes to the result port, and nothing is drawn. -/
theorem answerNat_stated {stated : Bool} (h : stated = true) (n : Nat) (s : State) :
    answerNat stated n s = .next { s with result := .nat n } := by
  subst h; rfl

/-- BLKADDR with at least one column and a `PIXEL_SIZE` of at least 1 answers row, column and square of R138, and draws
nothing. -/
theorem exec_blkaddr_stated (k : Nat) {m : Nat} {s : State} (hm : m ≠ 0) (hsize : s.pixelSize.toNat ≠ 0) :
    exec (.blkaddr k m) s = .next { s with
      result := .block (blockRow k m) (blockCol k m) (blockArea k m s.pixelSize.toNat) } := by
  have hdraws : ¬ (m = 0 ∨ s.pixelSize.toNat = 0) := not_or.mpr ⟨hm, hsize⟩
  simp only [exec, execBlkaddr, answer, blockArea, if_neg hm, if_neg hsize, if_neg hdraws]

/-- Settles O36: each operand in its range selects the number the rule states; the least root is `ceilSqrt_least`, and row and
column determine the block index by `blockRow_blockCol`. -/
theorem plannerOperationsAnswerTheLayout : Obligations.PlannerOperationsAnswerTheLayout := by
  intro s
  refine ⟨fun nch novf hnch hnovf => answerNat_stated ?total _ s,
    fun t hlow hhigh => ⟨ceilSqrt t, answerNat_stated ?csqrt _ s, ceilSqrt_least t⟩,
    fun n hlow hhigh hsize => answerNat_stated ?side _ s,
    fun k m hm hsize => ⟨blockRow k m, blockCol k m, exec_blkaddr_stated k (Nat.ne_of_gt hm) (Nat.ne_of_gt hsize),
      blockRow_blockCol k m, Nat.mod_lt k hm⟩⟩
  case total => simp [Config.chunkMax, Config.ovfMax, hnch, hnovf]
  case csqrt => simp [Config.nMax, hlow, hhigh]
  case side => simp [Config.nMax, hlow, hhigh, hsize]

/-- A block of `PIXEL_SIZE = 0` has no pixel, so a block with a pixel has a positive size. -/
theorem blockArea_size_pos {k m s x y : Nat} (h : (blockArea k m s).contains x y = true) : 0 < s := by
  obtain ⟨hleft, hright, -⟩ := blockArea_contains_iff.mp h
  omega

/-- Settles O38: containment from where a block ends (`blockArea_inside`), then `blockArea_disjoint` and
`blockArea_covers`. -/
theorem blocksTileTheCanvas : Obligations.BlocksTileTheCanvas := by
  refine fun n s => ⟨fun k x y hk hxy => ?inside,
    fun k k' x y h h' => blockArea_disjoint (blockArea_size_pos h) h h', fun x y hx hy => blockArea_covers hx hy⟩
  case inside =>
    obtain ⟨hright, hbottom⟩ := blockArea_inside (s := s) hk
    obtain ⟨-, hx, -, hy⟩ := blockArea_contains_iff.mp hxy
    exact ⟨lt_of_lt_of_le hx hright, lt_of_lt_of_le hy hbottom⟩

end Sys2Proof.Machine

namespace Sys2Proof.Machine

/-! ### The layout that ENCODE and PLAN leave (R150, R158) -/

/-- The block size of an accepted input is within the greatest `PIXEL_SIZE_MAX` there is (D7). -/
theorem hasInput_size_le {s : State} {input : List Byte} (hcfg : s.cfg.wf = true) (h : s.hasInput input) :
    s.pixelSize.toNat ≤ 134217727 :=
  le_trans (pixelSize_usable h.2.1).2 (cfg_sizeMax hcfg)

/-- The planner's registers hold the layout of every accepted input. -/
theorem hasInput_describes {s : State} {input : List Byte} (hcfg : s.cfg.wf = true) (h : s.hasInput input) :
    (planOf (overflowPass s.base (chunkBytes input)) s.pixelSize.toNat).describes s.base s.pixelSize.toNat input :=
  planOf_describes (hasInput_chunks h) (hasInput_size_le hcfg h)

/-- Settles O12: PLAN's end for an accepted input (`execPlan_ok`) writes the registers that `hasInput_describes` speaks of. -/
theorem planWritesTheLayout : Obligations.PlanWritesTheLayout :=
  fun s _ hcfg hin => ⟨_, execPlan_ok hin, rfl, hasInput_describes hcfg hin, statusErr_withErr 0 s.status,
    statusPhase_withErr 0 s.status, statusHigh_withErr 0 s.status⟩

/-- Settles O13: ENCODE writes the registers that PLAN writes, and its canvas has the side of step 4 (`paint_cw`, `paint_ch`),
which is the one in `SIDE`. -/
theorem encodeWritesTheLayoutAndSizesTheCanvas : Obligations.EncodeWritesTheLayoutAndSizesTheCanvas :=
  fun s _ hcfg hin => ⟨_, execEncode_ok hin, rfl, hasInput_describes hcfg hin, paint_cw _ _, paint_ch _ _,
    statusErr_withErr 0 s.status, statusPhase_withErr 0 s.status, statusHigh_withErr 0 s.status⟩

/-- Settles O15: the canvas is painted from the chunks, the block size and the base color (`execEncode_ok`), and the chunks do
not see zero bytes within the last chunk (`chunkBytes_append_zeros`). -/
theorem encodedCanvasIsAFunctionOfTheInput : Obligations.EncodedCanvasIsAFunctionOfTheInput := by
  intro s s' t t' input zeros hin hin' hzeros hsize hbase h h'
  obtain rfl := Host.Outcome.next.inj ((execEncode_ok hin).symm.trans h)
  obtain rfl := Host.Outcome.next.inj ((execEncode_ok hin').symm.trans h')
  dsimp only
  rw [chunkBytes_append_zeros input zeros hzeros, hsize, hbase]

/-! ### ENCODE as its block instructions, one by one (R150, R154 to R156) -/

/-- Steps 5 to 7 of R150, from any sequencer state and canvas: the data blocks, the separator, the overflow blocks. -/
def emitLayout (size : Nat) (q : Seq) (x : Seq × Canvas) : Seq × Canvas :=
  emitBlocks size .ovf (q.orb.map recPack)
    (emitBlocks size .sep [Pixel.zero] (emitBlocks size .data (q.colors.map dataPixel) x))

/-- ENCODE paints by `emitLayout`, from the canvas of step 4. -/
theorem paint_eq_emitLayout (q : Seq) (size : Nat) :
    paint q size = emitLayout size q (sizedSeq q, sizedCanvas q size) := rfl

/-- What steps 5 to 7 paint depends on the block index, the columns and the canvas they start from alone. -/
theorem emitLayout_agree (size : Nat) (q : Seq) {x y : Seq × Canvas} (hk : x.1.k = y.1.k) (hcols : x.1.cols = y.1.cols)
    (hcanvas : x.2 = y.2) : (emitLayout size q x).2 = (emitLayout size q y).2 := by
  have hdata := emitBlocks_agree size .data (q.colors.map dataPixel) hk hcols hcanvas
  have hsep := emitBlocks_agree size .sep [Pixel.zero]
    (x := emitBlocks size .data (q.colors.map dataPixel) x) (y := emitBlocks size .data (q.colors.map dataPixel) y)
    (by simp [hk]) (by simp [hcols]) hdata
  exact emitBlocks_agree size .ovf _ (by simp [hk]) (by simp [hcols]) hsep

/-- The block index advances by one for each block of the layout (R22). -/
theorem emitLayout_k (size : Nat) (q : Seq) (x : Seq × Canvas) : (emitLayout size q x).1.k = x.1.k + passTotal q := by
  simp only [emitLayout, emitBlocks_k, List.length_map, List.length_singleton, passTotal, totalBlocks]
  omega

/-- The chunk index advances by one for each data block (R40). -/
theorem emitLayout_i (size : Nat) (q : Seq) (x : Seq × Canvas) : (emitLayout size q x).1.i = x.1.i + q.colors.length := by
  simp [emitLayout, emitBlocks_i]

/-- The record index advances by one for each overflow block (R40). -/
theorem emitLayout_j (size : Nat) (q : Seq) (x : Seq × Canvas) : (emitLayout size q x).1.j = x.1.j + q.orb.length := by
  simp [emitLayout, emitBlocks_j]

/-- A colour's block instruction emits its data block (R82). -/
theorem dataInstrs_blocks (colors : List Rgb) :
    List.Forall₂ (fun i p => blockPixel i = some p ∧ instrZone i = .data)
      (colors.map fun c => .blkData c.r c.g c.b) (colors.map dataPixel) := by
  induction colors with
  | nil => exact .nil
  | cons c colors ih => exact .cons ⟨rfl, rfl⟩ ih

/-- A record's block instruction emits its overflow block, whichever its channel (R84). -/
theorem recordInstr_block (r : Record) :
    blockPixel (recordInstr r) = some (recPack r) ∧ instrZone (recordInstr r) = .ovf := by
  obtain ⟨idx, chan, mag⟩ := r
  cases chan <;> exact ⟨rfl, rfl⟩

theorem recordInstrs_blocks (orb : List Record) :
    List.Forall₂ (fun i p => blockPixel i = some p ∧ instrZone i = .ovf) (orb.map recordInstr) (orb.map recPack) := by
  induction orb with
  | nil => exact .nil
  | cons r orb ih => exact .cons (recordInstr_block r) ih

/-- The block instructions of a layout, run one by one on a canvas with room for all of its blocks, do steps 5 to 7. -/
theorem execAll_blockProgram {q : Seq} {s : State} {n : Nat} (hn : s.seq.cols = n) (hk : s.seq.k + passTotal q ≤ n * n)
    (hw : s.canvas.cw.toNat = n * s.pixelSize.toNat) (hh : s.canvas.ch.toNat = n * s.pixelSize.toNat) :
    execAll (blockProgram q) s = .next { s with
      seq := (emitLayout s.pixelSize.toNat q (s.seq, s.canvas)).1
      canvas := (emitLayout s.pixelSize.toNat q (s.seq, s.canvas)).2 } := by
  have hsep : List.Forall₂ (fun i p => blockPixel i = some p ∧ instrZone i = .sep) [.blkSep] [Pixel.zero] :=
    .cons ⟨rfl, rfl⟩ .nil
  simp only [passTotal, totalBlocks] at hk
  rw [blockProgram, execAll_append, execAll_append,
    execAll_blocks (dataInstrs_blocks q.colors) hn (by simp; omega) hw hh]
  dsimp only
  rw [execAll_blocks hsep (by simpa using hn) (by simp; omega) (by simpa using hw) (by simpa using hh)]
  dsimp only
  rw [execAll_blocks (recordInstrs_blocks q.orb) (by simpa using hn) (by simp; omega) (by simpa using hw) (by simpa using hh)]
  rfl

/-- Settles O16: the canvas of step 4 has room for the whole layout (`hasInput_describes`), so its instructions complete
(`execAll_blockProgram`), paint what ENCODE paints (`emitLayout_agree`) and count as `emitLayout_k`, `_i` and `_j` say. -/
theorem encodeIsItsBlocksOneByOne : Obligations.EncodeIsItsBlocksOneByOne := by
  intro s input hcfg hin
  have hdescribes := hasInput_describes hcfg hin
  obtain ⟨hnchunk, htotal, hnside⟩ := describes_pass hdescribes
  obtain ⟨-, hnovf, -, hroom, -, hside⟩ := hdescribes
  refine ⟨_, _, execEncode_ok hin, execAll_blockProgram rfl ?room hside hside, ?canvas, ?k, ?i, ?j⟩
  case room =>
    rw [htotal] at hroom
    simpa [Seq.initial] using hroom
  case canvas =>
    dsimp only
    rw [paint_eq_emitLayout]
    exact emitLayout_agree _ _ rfl hnside rfl
  case k => simp [emitLayout_k, htotal, Seq.initial]
  case i => simp [emitLayout_i, hnchunk, Seq.initial]
  case j => simp [emitLayout_j, hnovf, recordsFrom_length, Seq.initial]

end Sys2Proof.Machine

namespace Sys2Proof.Machine

/-! ### WRBLK run alone (R65, R152) -/

/-- A block that is not on the canvas is not written, where it has a column or the canvas has no whole block (R65; logs 11,
21). -/
theorem writeBlock_off {k m : Nat} {p : Pixel} {s : State} (h : blockFits s.canvas k m s.pixelSize.toNat = false)
    (hoff : 1 ≤ m ∨ s.canvas.cw.toNat < s.pixelSize.toNat ∨ s.canvas.ch.toNat < s.pixelSize.toNat) :
    writeBlock k m p s = .fault .noSuchPixel := by
  rcases hoff with hm | hsmall
  · exact writeBlock_unfit hm h
  · exact writeBlock_small (by omega) h hsmall

/-- A block instruction stops where WRBLK of its block does. -/
theorem exec_block_off {i : Instr} {q : Pixel} {s : State} (hi : blockPixel i = some q)
    (h : blockFits s.canvas s.seq.k s.seq.cols s.pixelSize.toNat = false)
    (hoff : 1 ≤ s.seq.cols ∨ s.canvas.cw.toNat < s.pixelSize.toNat ∨ s.canvas.ch.toNat < s.pixelSize.toNat) :
    exec i s = .fault .noSuchPixel := by
  rw [exec_block hi, emitAlone_eq, writeBlock_off h hoff]

/-- Settles O40: WRBLK on the canvas (`writeBlock_fits`), at a free whole block (`writeBlock_free`), and its stops
(`writeBlock_off`), which the block instructions share. -/
theorem wrblkWritesOneBlock : Obligations.WrblkWritesOneBlock := by
  refine fun s k m p hc => ⟨fun hfits => ?fits, fun h0 hw hh => ?free, writeBlock_off,
    fun hoff hwhere i q hi => exec_block_off hi hoff hwhere⟩
  case fits => exact ⟨_, writeBlock_fits hfits, rfl, Canvas.fill_paintedFrom hc (blockFits_right hfits).1 p⟩
  case free =>
    have hblock := blockSquare_wholeBlock (k := k) (d := s.draws) h0 hw hh
    exact ⟨_, _, writeBlock_free h0 hw hh, rfl, hblock, Canvas.fill_paintedFrom hc (Area.wholeBlockOf_right hblock) p⟩

end Sys2Proof.Machine

namespace Sys2Proof.Machine

/-! ### The state a DECODE leaves (R181) -/

/-- The state DECODE leaves after a finished scan, by steps 6 and 7 of R181: the output, or InvalidEncoding. -/
def scannedState (s : State) (q : Seq) : State :=
  if legalText s.cfg.textRule (decoded q) = true then decodedState s q
  else raise .invalidEncoding { s with seq := corrected q }

theorem scannedState_legal {s : State} {q : Seq} (h : legalText s.cfg.textRule (decoded q) = true) :
    scannedState s q = decodedState s q := if_pos h

theorem scannedState_illegal {s : State} {q : Seq} (h : legalText s.cfg.textRule (decoded q) = false) :
    scannedState s q = raise .invalidEncoding { s with seq := corrected q } := if_neg (Bool.eq_false_iff.mp h)

/-- A DECODE whose scan finishes completes. -/
theorem execDecode_scanned {s : State} {q : Seq} (hb : badPixelSize s = false)
    (h : scanCanvas s.cfg.obufCap s.base s.canvas s.pixelSize.toNat = some q) :
    exec .decode s = .next (scannedState s q) := by
  cases ht : legalText s.cfg.textRule (decoded q) with
  | true => rw [scannedState_legal ht]; exact execDecode_ok hb h ht
  | false => rw [scannedState_illegal ht]; exact execDecode_text hb h ht

/-- `PHASE` is the phase the scan ended in, whether or not the text is legal (R183). -/
@[simp] theorem statusPhase_scannedState (s : State) (q : Seq) : statusPhase (scannedState s q).status = phaseBit q.phase := by
  cases ht : legalText s.cfg.textRule (decoded q) with
  | true => simp [scannedState_legal ht, decodedState]
  | false => simp [scannedState_illegal ht, corrected]

@[simp] theorem scannedState_canvas (s : State) (q : Seq) : (scannedState s q).canvas = s.canvas := by
  cases ht : legalText s.cfg.textRule (decoded q) with
  | true => rw [scannedState_legal ht, decodedState]
  | false => rw [scannedState_illegal ht, raise_canvas]

/-- Legal text is the output, without an error (R181, R29). -/
theorem scannedState_output {s : State} {q : Seq} (h : legalText s.cfg.textRule (decoded q) = true) :
    statusErr (scannedState s q).status = 0 ∧ (scannedState s q).obuf = cellsFrom 0 (decoded q) ∧
      ((decoded q).length < 4294967296 → (scannedState s q).olen.toNat = (decoded q).length) := by
  rw [scannedState_legal h]
  exact ⟨statusErr_withErr _ _, rfl, outputLength_toNat s.draws⟩

/-- Any other text gives InvalidEncoding and no output (R206). -/
theorem scannedState_noOutput {s : State} {q : Seq} (h : legalText s.cfg.textRule (decoded q) = false) :
    statusErr (scannedState s q).status = 3 ∧ (scannedState s q).olen = 0 ∧ (scannedState s q).obuf = [] := by
  rw [scannedState_illegal h]
  exact ⟨statusErr_raise .invalidEncoding _, rfl, rfl⟩

theorem scannedState_err_iff (s : State) (q : Seq) :
    statusErr (scannedState s q).status = 0 ↔ legalText s.cfg.textRule (decoded q) = true := by
  cases ht : legalText s.cfg.textRule (decoded q) with
  | true => simp [(scannedState_output ht).1]
  | false => simp [(scannedState_noOutput ht).1]

/-- A finished scan does not end in BufferOverrun. -/
theorem scannedState_err_ne_six (s : State) (q : Seq) : statusErr (scannedState s q).status ≠ 6 := by
  cases ht : legalText s.cfg.textRule (decoded q) with
  | true => rw [(scannedState_output ht).1]; decide
  | false => rw [(scannedState_noOutput ht).1]; decide

/-! ### The round trip (R185, R186) -/

/-- ENCODE of an accepted, written input leaves `encodedState`. -/
theorem encode_eq_encodedState {s t : State} {input : List Byte} (hin : s.hasInput input) (h : exec .encode s = .next t) :
    t = encodedState s input :=
  Host.Outcome.next.inj (h.symm.trans (execEncode_ok hin))

/-- Under the encoder's base color the scan ends after the separator, with the encoder's records, and they correct the buffer
to the input and its padding (R127, R185). -/
theorem scanCanvas_encodedState {s : State} {input : List Byte} (hcfg : s.cfg.wf = true) (hin : s.hasInput input) :
    ∃ q, scanCanvas s.cfg.obufCap s.base (encodedState s input).canvas s.pixelSize.toNat = some q ∧
      q.phase = .collectingOverflow ∧ q.recs.length = countOverflow s.base (chunkBytes input) ∧
      q.recs.foldl applyTriple q.buf = input ++ List.replicate (3 * ((input.length + 2) / 3) - input.length) 0 := by
  obtain ⟨q, hscan, hphase, hbuf, hrecs⟩ := scanCanvas_encoded hcfg hin s.base
  refine ⟨q, hscan, hphase, ?count, ?corrected⟩
  case count => rw [hrecs, asTriples, List.length_map, recordsFrom_length]
  case corrected => rw [hrecs, hbuf, corrected_chunks s.base _ (hasInput_chunks hin), chunkBytes_flat, chunkBytes_length]

/-- The corrected buffer is as long as the scanned one, so that one has three bytes for each chunk (R112). -/
theorem buf_length_of_corrected {q : Seq} {input : List Byte}
    (h : q.recs.foldl applyTriple q.buf = input ++ List.replicate (3 * ((input.length + 2) / 3) - input.length) 0) :
    q.buf.length = 3 * (chunkBytes input).length := by
  have hlen := congrArg List.length h
  rw [foldl_applyTriple_length, List.length_append, List.length_replicate] at hlen
  rw [hlen, chunkBytes_length]
  omega

/-- Settles O21: the scan of the encoded canvas (`scanCanvas_encodedState`) decodes to the stripped input, and
`scannedState_output` and `scannedState_noOutput` say how DECODE ends with it. The input comes back where it is its own STRIP
(`stripZeros_eq_self_iff`); stripping keeps UTF-8 legal (`legal_cut`). -/
theorem roundTripGivesTheInputStripped : Obligations.RoundTripGivesTheInputStripped := by
  intro s t input hcfg hin hencode
  obtain rfl := encode_eq_encodedState hin hencode
  obtain ⟨q, hscan, hphase, hcount, hcorrected⟩ := scanCanvas_encodedState hcfg hin
  obtain ⟨-, -, hnchunk, hnovf⟩ := planOf_fields (base := s.base) (size := s.pixelSize.toNat) (hasInput_chunks hin)
  have hdecoded : decoded q = stripZeros input := by rw [decoded, hcorrected, stripZeros_append_zeros]
  have hshort : (stripZeros input).length < 4294967296 := by
    have := stripZeros_length_le input
    have := hasInput_length_le hin
    omega
  have herr := scannedState_err_iff (encodedState s input) q
  have houtput := scannedState_output (s := encodedState s input) (q := q)
  have hnone := scannedState_noOutput (s := encodedState s input) (q := q)
  rw [hdecoded] at herr houtput hnone
  refine ⟨⟨q, hscan, ?buffer, hcount.trans hnovf.symm, hcorrected⟩,
    scannedState (encodedState s input) q, execDecode_scanned hin.2.1 hscan,
    (statusPhase_scannedState _ q).trans (congrArg phaseBit hphase), scannedState_canvas _ _,
    fun hlegal => ?legal, hnone, ?identity, fun hrule hlegal => ?utf8⟩
  case buffer => exact (buf_length_of_corrected hcorrected).trans (congrArg (3 * ·) hnchunk.symm)
  case legal =>
    obtain ⟨hzero, hobuf, holen⟩ := houtput hlegal
    exact ⟨hzero, hobuf, holen hshort⟩
  case identity =>
    rw [herr, ← stripZeros_eq_self_iff]
    constructor
    · rintro ⟨hlegal, hbytes⟩
      have hself : stripZeros input = input := by rwa [(houtput hlegal).2.1, cellBytes_cellsFrom] at hbytes
      rw [hself] at hlegal
      exact ⟨hlegal, hself⟩
    · rintro ⟨hlegal, hself⟩
      rw [← hself] at hlegal
      exact ⟨hlegal, by rw [(houtput hlegal).2.1, cellBytes_cellsFrom, hself]⟩
  case utf8 =>
    rw [hrule] at hlegal
    refine herr.mpr ?_
    rw [show (encodedState s input).cfg.textRule = .utf8 from hrule]
    exact legal_cut hlegal

/-- Without a chunk there is nothing to subtract from and no record, so the base color does not enter (R186). -/
theorem scanCanvas_encodedState_nil {s : State} (hcfg : s.cfg.wf = true) (hin : s.hasInput []) (key : Rgb) :
    ∃ q, scanCanvas s.cfg.obufCap key (encodedState s []).canvas s.pixelSize.toNat = some q ∧
      q.phase = .collectingOverflow ∧ decoded q = [] := by
  obtain ⟨q, hscan, hphase, hbuf, hrecs⟩ := scanCanvas_encoded hcfg hin key
  refine ⟨q, hscan, hphase, ?_⟩
  rw [decoded, hbuf, hrecs]
  rfl

/-- Settles O22: under every base color the empty input's canvas decodes to the empty sequence, which is legal text
(`scanCanvas_encodedState_nil`). -/
theorem emptyInputDecodesToEmptyUnderEveryKey : Obligations.EmptyInputDecodesToEmptyUnderEveryKey := by
  intro s t key hcfg hin hencode
  obtain rfl := encode_eq_encodedState hin hencode
  obtain ⟨q, hscan, hphase, hdecoded⟩ := scanCanvas_encodedState_nil hcfg hin key
  have hlegal : legalText s.cfg.textRule (decoded q) = true := by rw [hdecoded]; rfl
  obtain ⟨hzero, hobuf, holen⟩ := scannedState_output (s := { encodedState s [] with base := key }) hlegal
  rw [hdecoded] at hobuf holen
  exact ⟨_, execDecode_scanned hin.2.1 hscan, hzero, (statusPhase_scannedState _ q).trans (congrArg phaseBit hphase),
    BitVec.eq_of_toNat_eq (holen (by decide)), hobuf⟩

end Sys2Proof.Machine

namespace Sys2Proof.Machine

/-! ### The ends of a DECODE (R181 to R184, R206) -/

/-- InvalidEncoding writes `STATUS`, empties the output and ends the sequencer, and nothing else (R206). -/
theorem raise_invalidEncoding_eq (s : State) : raise .invalidEncoding s =
    { s with status := (raise .invalidEncoding s).status, olen := 0, obuf := [], seq := Seq.initial } := rfl

/-- Settles O17, by what the scan gives: `execDecode_overrun`, `execDecode_text` or `execDecode_ok`. -/
theorem decodeEndsInOutputOrTypedError : Obligations.DecodeEndsInOutputOrTypedError := by
  refine fun s hsize => ⟨fun hscan => ?overrun, fun q hscan hlegal => ?illegal, fun q hscan hlegal => ?legal⟩
  case overrun =>
    exact ⟨raise .bufferOverrun s, execDecode_overrun hsize hscan, raise_bufferOverrun_eq s,
      statusErr_raise .bufferOverrun s, statusPhase_raise_bufferOverrun s, statusHigh_raise .bufferOverrun s⟩
  case illegal =>
    exact ⟨raise .invalidEncoding { s with seq := corrected q }, execDecode_text hsize hscan hlegal, raise_invalidEncoding_eq _,
      statusErr_raise .invalidEncoding _, statusPhase_raise_invalidEncoding _, statusHigh_raise .invalidEncoding _⟩
  case legal =>
    refine ⟨decodedState s q, execDecode_ok hsize hscan hlegal, rfl,
      fun hlen => ⟨outputLength_toNat s.draws hlen, if_pos hlen⟩, statusErr_withErr _ _, ?phase, ?high⟩
    case phase => simp [decodedState]
    case high => simp [decodedState]

/-- The pixels that a scan of the canvas samples, in block order (R171). -/
theorem mem_samples {c : Canvas} {cols size n : Nat} {p : Pixel} :
    p ∈ samples c cols size 0 n ↔ ∃ k, k < n ∧ samplePixel c k cols size = p := by
  simp [samples]

/-- `PHASE` is 1 in the overflow phase (R24). -/
theorem phaseBit_eq_one_iff (ph : Phase) : phaseBit ph = 1 ↔ ph = .collectingOverflow := by
  cases ph <;> decide

/-- A finished scan is in the overflow phase exactly when a sampled pixel was the separator (R182). -/
theorem scanCanvas_phase {cap : Option Nat} {base : Rgb} {c : Canvas} {size : Nat} {q : Seq}
    (h : scanCanvas cap base c size = some q) :
    q.phase = .collectingOverflow ↔ ∃ k, k < scanSize c size ∧ samplePixel c k (c.cw.toNat / size) size = Pixel.zero := by
  rw [scanCanvas_eq] at h
  exact (scanList_phase rfl h).trans mem_samples

/-- Settles O19: a finished scan leaves its phase in `PHASE` (`statusPhase_scannedState`), which tells whether it met a
separator (`scanCanvas_phase`); BufferOverrun leaves 0. -/
theorem phaseTellsWhetherASeparatorWasMet : Obligations.PhaseTellsWhetherASeparatorWasMet := by
  intro s t hsize hdecode
  cases hscan : scanCanvas s.cfg.obufCap s.base s.canvas s.pixelSize.toNat with
  | none =>
    obtain rfl := Host.Outcome.next.inj ((execDecode_overrun hsize hscan).symm.trans hdecode)
    exact ⟨fun hne => absurd (statusErr_raise .bufferOverrun s) hne, fun _ => statusPhase_raise_bufferOverrun s⟩
  | some q =>
    obtain rfl := Host.Outcome.next.inj ((execDecode_scanned hsize hscan).symm.trans hdecode)
    refine ⟨fun _ => ?_, fun hsix => absurd hsix (scannedState_err_ne_six s q)⟩
    rw [statusPhase_scannedState, phaseBit_eq_one_iff, scanCanvas_phase hscan]

/-- A scan that meets no separator collects the differences of all blocks and no record (R184). -/
theorem scanCanvas_data {cap : Option Nat} {base : Rgb} {c : Canvas} {size : Nat}
    (hdata : ∀ k, k < scanSize c size → samplePixel c k (c.cw.toNat / size) size ≠ Pixel.zero)
    (hroom : withinObuf cap (3 * scanSize c size) = true) :
    ∃ q, scanCanvas cap base c size = some q ∧ q.phase = .collectingData ∧
      decoded q = stripZeros (dataBytes base c (c.cw.toNat / size) size (scanSize c size)) := by
  have hnonzero : ∀ p ∈ samples c (c.cw.toNat / size) size 0 (scanSize c size), p ≠ Pixel.zero := by
    intro p hp
    obtain ⟨k, hk, rfl⟩ := mem_samples.mp hp
    exact hdata k hk
  have hscan := scanList_dataRun (base := base) _ (q := scanStart c size) rfl hnonzero
    (by simpa [scanStart, Seq.initial] using hroom)
  refine ⟨_, (scanCanvas_eq cap base c size).trans hscan, rfl, ?_⟩
  rw [dataBytes_eq]
  rfl

/-- Settles O20: the scan gives the differences (`scanCanvas_data`), and DECODE ends with them by `scannedState_output` or
`scannedState_noOutput`. -/
theorem withoutSeparatorTheCanvasIsData : Obligations.WithoutSeparatorTheCanvasIsData := by
  intro s hsize hdata hroom
  obtain ⟨q, hscan, hphase, hdecoded⟩ := scanCanvas_data (base := s.base) hdata hroom
  refine ⟨scannedState s q, execDecode_scanned hsize hscan, (statusPhase_scannedState _ q).trans (congrArg phaseBit hphase),
    fun out hout => ?_⟩
  rw [hout, ← hdecoded]
  exact ⟨scannedState_output, scannedState_noOutput⟩

end Sys2Proof.Machine

namespace Sys2Proof.Machine

/-! ### The corrections (R176 to R178) -/

/-- Settles O23: both scans start from the same state, and without a record there is nothing to correct yet
(`streamBlocks_agree`). -/
theorem streamingCorrectionEqualsDeferred : Obligations.StreamingCorrectionEqualsDeferred := by
  intro cap base c size n q hrecs
  have hbuf : q.recs.foldl applyTriple q.buf = q.buf := by rw [hrecs]; rfl
  exact streamBlocks_agree cap base c size n q q hbuf rfl rfl rfl fun _ => hrecs

/-- The magnitudes addressed to a position add up to the same in any order. -/
theorem magnitudesAt_perm {recs recs' : List Triple} (h : recs.Perm recs') (pos len : Nat) :
    magnitudesAt pos len recs = magnitudesAt pos len recs' :=
  (h.map _).sum_eq

/-- Settles O24: the formula is `foldl_applyTriple_getD`, and the sum in it does not see the order (`magnitudesAt_perm`). -/
theorem correctionIsOrderIndependent : Obligations.CorrectionIsOrderIndependent := by
  refine ⟨fun buf recs pos _ => foldl_applyTriple_getD recs buf pos, fun buf recs recs' hperm => ?_⟩
  refine bytes_ext (by rw [foldl_applyTriple_length, foldl_applyTriple_length]) fun pos _ => ?_
  rw [foldl_applyTriple_getD, foldl_applyTriple_getD, magnitudesAt_perm hperm]

/-- A triple addresses the byte of its code's channel in its chunk; other codes address none (R176). -/
theorem triplePos_eq_some_iff (t : Triple) (pos : Nat) :
    triplePos t = some pos ↔ (t.code = 1 ∨ t.code = 2 ∨ t.code = 3) ∧ t.idx.toNat * 3 + (t.code.toNat - 1) = pos := by
  simp [triplePos]

/-- APPLY answers the data buffer corrected, in every state. -/
theorem exec_apply (t : Triple) (s : State) : exec (.apply t) s =
    .next { s with seq := { s.seq with buf := applyTriple s.seq.buf t }, result := .bytes (applyTriple s.seq.buf t) } := rfl

/-- Settles O43: the buffer APPLY answers (`exec_apply`) is described byte by byte by `applyTriple_getD`, and the address by
`triplePos_eq_some_iff`. -/
theorem applyCorrectsOneByteOrNone : Obligations.ApplyCorrectsOneByteOrNone := by
  refine fun s t => ⟨applyTriple s.seq.buf t, exec_apply t s, applyTriple_length _ _, fun pos hpos => ?_⟩
  rw [applyTriple_length] at hpos
  simp only [applyTriple_getD, triplePos_eq_some_iff, hpos, and_true]

end Sys2Proof.Machine

namespace Sys2Proof.Machine

/-! ### The decoder's operations run alone (R170 to R175, R179) -/

/-- A class's instruction does one round of the scan in every phase in which the pixel has the class (R88). -/
theorem exec_classInstr {s : State} {p : Pixel} {cls : PixelClass} (h : classify s.seq.phase p = cls) :
    exec (classInstr p cls) s = .next (afterRound s (scanStep s.cfg.obufCap s.base p s.seq)) := by
  rw [← h, ← decodeSample_eq, exec_decodeSample]

theorem stepData_within {cap : Option Nat} {q : Seq} (base : Rgb) (p : Pixel)
    (h : withinObuf cap (q.buf.length + 3) = true) :
    stepData cap base p q = some { q with buf := q.buf ++ rgbBytes (diffRgb base p), k := q.k + 1 } := by
  rw [stepData, unpackBytes_within _ h]

theorem stepData_beyond {cap : Option Nat} {q : Seq} (base : Rgb) (p : Pixel)
    (h : withinObuf cap (q.buf.length + 3) = false) : stepData cap base p q = none := by
  rw [stepData, unpackBytes_beyond _ h]

/-- Settles O41: the round of `exec_classInstr`, by the pixel's class in the phase; for DEC.DATA by the room that is left. -/
theorem classInstructionsStepTheStateMachine : Obligations.ClassInstructionsStepTheStateMachine := by
  refine fun s => ⟨fun hphase => ⟨?sep, fun p hp hroom => ?data, fun p hp hfull => ?overrun⟩,
    fun hphase => ⟨fun r g b => ?skip, fun p hp => ?record⟩⟩
  case sep =>
    have hclass : classify s.seq.phase Pixel.zero = .sep := (classify_sep_iff _ _).mpr ⟨hphase, rfl⟩
    refine (exec_classInstr hclass).trans ?_
    simp only [scanStep, hclass, stepSep, afterRound]
  case data =>
    have hclass : classify s.seq.phase p = .data := (classify_data_iff _ _).mpr ⟨hphase, hp⟩
    refine (exec_classInstr hclass).trans ?_
    simp only [scanStep, hclass, stepData_within s.base p hroom, afterRound, rgbBytes, diffRgb]
  case overrun =>
    have hclass : classify s.seq.phase p = .data := (classify_data_iff _ _).mpr ⟨hphase, hp⟩
    refine ⟨raise .bufferOverrun s, (exec_classInstr hclass).trans ?_, raise_bufferOverrun_eq s,
      statusErr_raise .bufferOverrun s, statusPhase_raise_bufferOverrun s⟩
    simp only [scanStep, hclass, stepData_beyond s.base p hfull, afterRound]
  case skip =>
    have hclass : classify s.seq.phase ⟨r, g, b, 0⟩ = .skip := by rw [hphase]; rfl
    refine (exec_classInstr hclass).trans ?_
    simp only [scanStep, hclass, stepSkip, afterRound]
  case record =>
    have hclass : classify s.seq.phase p = .record := by rw [hphase]; exact if_neg hp
    refine (exec_classInstr hclass).trans ?_
    simp only [scanStep, hclass, stepRecord, recUnpack, afterRound]

/-- Settles O42: ISSEP answers `isSep`, which compares the four channels, and DIFF `satSub` of each channel
(`satSub_toNat`). -/
theorem issepAndDiffAnswer : Obligations.IssepAndDiffAnswer := by
  refine fun s p => ⟨⟨isSep p, rfl, ?_⟩, diffRgb s.base p, rfl, satSub_toNat _ _, satSub_toNat _ _, satSub_toNat _ _⟩
  simp only [isSep, Bool.and_eq_true, decide_eq_true_eq, and_assoc]

/-- TEXTCHK of legal text answers 1 (R179). -/
theorem exec_textchk_legal {s : State} (h : legalText s.cfg.textRule s.seq.out = true) :
    exec .textchk s = .next { s with result := .bit true } := if_pos h

/-- TEXTCHK of any other sequence raises InvalidEncoding (R179). -/
theorem exec_textchk_illegal {s : State} (h : legalText s.cfg.textRule s.seq.out = false) :
    exec .textchk s = .next (raise .invalidEncoding s) := if_neg (Bool.eq_false_iff.mp h)

/-- Settles O44, by `exec_textchk_legal` and `exec_textchk_illegal`; the empty sequence is legal text under every rule. -/
theorem textchkPassesLegalTextOnly : Obligations.TextchkPassesLegalTextOnly := by
  refine fun s => ⟨exec_textchk_legal, fun hempty => exec_textchk_legal ?empty, fun hillegal => ?illegal⟩
  case empty => rw [hempty]; rfl
  case illegal =>
    exact ⟨raise .invalidEncoding s, exec_textchk_illegal hillegal, raise_invalidEncoding_eq s,
      statusErr_raise .invalidEncoding s, statusPhase_raise_invalidEncoding s, statusHigh_raise .invalidEncoding s⟩

end Sys2Proof.Machine

namespace Sys2Proof.Machine

/-! ### Well-formed UTF-8 (R180) -/

/-- No sequence of the table is empty. -/
theorem Utf8Sequence.ne_nil {p : List Byte} (hp : Utf8Sequence p) : p ≠ [] := by
  rintro rfl
  exact hp

/-- A sequence of the table at the head is the one that is found. -/
theorem afterSequence_utf8Sequence {p : List Byte} (hp : Utf8Sequence p) (rest : List Byte) :
    afterSequence utf8Rows (p ++ rest) = some rest := by
  obtain ⟨row, hrow, hranges⟩ := (utf8Sequence_iff p).mp hp
  obtain ⟨c, tail, rfl⟩ := List.exists_cons_of_ne_nil hp.ne_nil
  exact afterSequence_of_row (fun row hr => (utf8Rows_shape row hr).1) utf8Rows_rising hrow
    ((afterRow_iff row _ rest).mpr ⟨_, rfl, hranges⟩)

/-- No sequence of the table begins with another one. -/
theorem Utf8Sequence.rest_nil_of_append {p rest : List Byte} (hp : Utf8Sequence p) (h : Utf8Sequence (p ++ rest)) : rest = [] := by
  have hwhole := afterSequence_utf8Sequence h []
  rw [List.append_nil, afterSequence_utf8Sequence hp rest] at hwhole
  exact Option.some.inj hwhole

/-- A sequence of the table before some bytes does not change whether they are well-formed. -/
theorem wellFormedUtf8_sequence_append {p : List Byte} (hp : Utf8Sequence p) (rest : List Byte) :
    wellFormedUtf8 (p ++ rest) = wellFormedUtf8 rest := by
  have hafter := afterSequence_utf8Sequence hp rest
  obtain ⟨c, tail, rfl⟩ := List.exists_cons_of_ne_nil hp.ne_nil
  rw [List.cons_append] at hafter ⊢
  rw [wellFormedUtf8_cons, hafter]

/-- Well-formed UTF-8 with a byte begins with a sequence of the table, and goes on well-formed. -/
theorem wellFormedUtf8_head {c : Byte} {bs : List Byte} (h : wellFormedUtf8 (c :: bs) = true) :
    ∃ p rest, c :: bs = p ++ rest ∧ Utf8Sequence p ∧ wellFormedUtf8 rest = true := by
  rw [wellFormedUtf8_cons] at h
  cases hafter : afterSequence utf8Rows (c :: bs) with
  | none => rw [hafter] at h; cases h
  | some rest =>
    rw [hafter] at h
    obtain ⟨row, hrow, hmatch⟩ := afterSequence_row hafter
    obtain ⟨p, hsplit, hranges⟩ := (afterRow_iff row _ rest).mp hmatch
    exact ⟨p, rest, hsplit, (utf8Sequence_iff p).mpr ⟨row, hrow, hranges⟩, h⟩

/-- Well-formed UTF-8 splits into sequences of the table; the induction is on the bytes that are left. -/
theorem wellFormedUtf8_parts (n : Nat) (bs : List Byte) (hn : bs.length ≤ n) (h : wellFormedUtf8 bs = true) :
    ∃ parts : List (List Byte), bs = parts.flatten ∧ ∀ p ∈ parts, Utf8Sequence p := by
  induction n generalizing bs with
  | zero => exact ⟨[], List.length_eq_zero_iff.mp (Nat.le_zero.mp hn), by simp⟩
  | succ n ih =>
    cases bs with
    | nil => exact ⟨[], rfl, by simp⟩
    | cons c bs =>
      obtain ⟨p, rest, hsplit, hp, hrest⟩ := wellFormedUtf8_head h
      have hlen := congrArg List.length hsplit
      have hpos := List.length_pos_iff.mpr hp.ne_nil
      rw [List.length_append] at hlen
      obtain ⟨parts, rfl, hparts⟩ := ih rest (by omega) hrest
      exact ⟨p :: parts, hsplit, List.forall_mem_cons.mpr ⟨hp, hparts⟩⟩

/-- Sequences of the table one after the other are well-formed UTF-8. -/
theorem wellFormedUtf8_flatten {parts : List (List Byte)} (h : ∀ p ∈ parts, Utf8Sequence p) :
    wellFormedUtf8 parts.flatten = true := by
  induction parts with
  | nil => rfl
  | cons p parts ih =>
    obtain ⟨hp, hparts⟩ := List.forall_mem_cons.mp h
    rw [List.flatten_cons, wellFormedUtf8_sequence_append hp, ih hparts]

/-- Well-formed UTF-8 is the concatenations of sequences of the table (R180). -/
theorem wellFormedUtf8_iff_parts (bs : List Byte) :
    wellFormedUtf8 bs = true ↔ ∃ parts : List (List Byte), bs = parts.flatten ∧ ∀ p ∈ parts, Utf8Sequence p := by
  constructor
  · exact wellFormedUtf8_parts bs.length bs le_rfl
  · rintro ⟨parts, rfl, hparts⟩
    exact wellFormedUtf8_flatten hparts

/-- A sequence cut short is ill-formed, whatever well-formed UTF-8 stands before it (R180). -/
theorem wellFormedUtf8_cut_short {a cut rest : List Byte} (ha : wellFormedUtf8 a = true) (hseq : Utf8Sequence (cut ++ rest))
    (hcut : cut ≠ []) (hrest : rest ≠ []) : wellFormedUtf8 (a ++ cut) = false := by
  refine Bool.eq_false_iff.mpr fun hboth => hrest ?_
  obtain ⟨c, tail, rfl⟩ := List.exists_cons_of_ne_nil hcut
  obtain ⟨p, left, hsplit, hp, -⟩ := wellFormedUtf8_head (wellFormedUtf8_cancel _ a _ le_rfl ha hboth)
  rw [hsplit, List.append_assoc] at hseq
  exact (List.append_eq_nil_iff.mp (hp.rest_nil_of_append hseq)).2

/-- No range of the table holds C0, C1 or F5 to FF. -/
theorem utf8Rows_ranges : ∀ row ∈ utf8Rows, ∀ e ∈ row, (e.2 < 0xC0 ∨ 0xC2 ≤ e.1) ∧ e.2 < 0xF5 := by decide

/-- The bytes of a sequence of the table. -/
theorem Utf8Sequence.mem_ranges {p : List Byte} {b : Byte} (hp : Utf8Sequence p) (hb : b ∈ p) :
    (b.toNat < 0xC0 ∨ 0xC2 ≤ b.toNat) ∧ b.toNat < 0xF5 := by
  obtain ⟨row, hrow, hranges⟩ := (utf8Sequence_iff p).mp hp
  obtain ⟨hlen, hget⟩ := List.forall₂_iff_get.mp hranges
  obtain ⟨i, hi, rfl⟩ := List.mem_iff_getElem.mp hb
  obtain ⟨hlow, hhigh⟩ := hget i (by omega) hi
  have hrange := utf8Rows_ranges row hrow _ (List.get_mem row ⟨i, by omega⟩)
  simp only [List.get_eq_getElem] at hlow hhigh hrange
  omega

/-- Bytes C0, C1 and F5 to FF never occur in well-formed UTF-8 (R180). -/
theorem wellFormedUtf8_byte {bs : List Byte} {b : Byte} (h : wellFormedUtf8 bs = true) (hb : b ∈ bs) :
    b ≠ 0xC0 ∧ b ≠ 0xC1 ∧ b.toNat < 0xF5 := by
  obtain ⟨parts, rfl, hparts⟩ := (wellFormedUtf8_iff_parts bs).mp h
  obtain ⟨p, hp, hbp⟩ := List.mem_flatten.mp hb
  have hrange := (hparts p hp).mem_ranges hbp
  refine ⟨?c0, ?c1, hrange.2⟩
  case c0 => rintro rfl; simp at hrange
  case c1 => rintro rfl; simp at hrange

/-- Under the default rule legal text is well-formed UTF-8; the empty sequence is both (R179, R180). -/
theorem legalText_utf8 (bs : List Byte) : legalText .utf8 bs = wellFormedUtf8 bs := by
  cases bs with
  | nil => rfl
  | cons b bs => rfl

/-- Settles O45, each clause by the lemma that states it; the last two are `wellFormedUtf8_append` and
`wellFormedUtf8_cut`. -/
theorem wellFormedUtf8IsTheTablesConcatenations : Obligations.WellFormedUtf8IsTheTablesConcatenations :=
  ⟨wellFormedUtf8_iff_parts, fun _ _ _ => wellFormedUtf8_cut_short, fun _ _ => wellFormedUtf8_byte, legalText_utf8,
    fun a b => wellFormedUtf8_append _ a b le_rfl, fun a b => wellFormedUtf8_cut _ a b le_rfl⟩

end Sys2Proof.Machine

namespace Sys2Proof.Machine

/-! ### The errors of the commands (R200 to R206) -/

/-- Writing a code to `STATUS.ERR` leaves the rest of the state, which is what the first three rows of R206 list. -/
theorem onlyErr_withErr (s : State) (code : BitVec 3) : onlyErr s { s with status := withErr code s.status } code :=
  ⟨rfl, statusErr_withErr code s.status, statusPhase_withErr code s.status, statusHigh_withErr code s.status⟩

/-- ENCODE or PLAN completes with one of the two errors of its checks (R151), or without an error. -/
theorem encodeOrPlan_next {s t : State} (h : exec .encode s = .next t ∨ exec .plan s = .next t) :
    (765 < s.ilen.toNat ∧ onlyErr s t 1) ∨ (badPixelSize s = true ∧ onlyErr s t 2) ∨ statusErr t.status = 0 := by
  have ends : (765 < s.ilen.toNat ∧ t = raise .inputTooLarge s) ∨ (badPixelSize s = true ∧ t = raise .invalidPixelSize s) ∨
      statusErr t.status = 0 := by
    rcases h with h | h
    case inl =>
      refine (execEncode_next h).imp_right (Or.imp_right ?_)
      rintro ⟨input, -, rfl⟩
      exact statusErr_withErr 0 s.status
    case inr =>
      refine (execPlan_next h).imp_right (Or.imp_right ?_)
      rintro ⟨input, -, rfl⟩
      exact statusErr_withErr 0 s.status
  rcases ends with ⟨hlong, rfl⟩ | ⟨hbad, rfl⟩ | hzero
  · exact .inl ⟨hlong, onlyErr_withErr s 1⟩
  · exact .inr (.inl ⟨hbad, onlyErr_withErr s 2⟩)
  · exact .inr (.inr hzero)

/-- The errors a DECODE can end with; InvalidPixelSize needs an unusable `PIXEL_SIZE` (R181). -/
theorem statusErr_decode {s t : State} (h : exec .decode s = .next t) :
    (badPixelSize s = true ∧ statusErr t.status = 2) ∨ statusErr t.status = 6 ∨ statusErr t.status = 3 ∨
      statusErr t.status = 0 := by
  rcases execDecode_next h with ⟨hbad, rfl⟩ | rfl | ⟨q, -, rfl | ⟨-, rfl⟩⟩
  · exact .inl ⟨hbad, statusErr_raise .invalidPixelSize s⟩
  · exact .inr (.inl (statusErr_raise .bufferOverrun s))
  · exact .inr (.inr (.inl (statusErr_raise .invalidEncoding _)))
  · exact .inr (.inr (.inr (statusErr_withErr 0 _)))

/-- Settles O6: the length is checked first (`withInput_long`); the ends of the commands (`encodeOrPlan_next`,
`statusErr_decode`) have code 1 for a long input of ENCODE and PLAN alone. -/
theorem longInputIsRejectedFirst : Obligations.LongInputIsRejectedFirst := by
  refine ⟨fun s hlong => ?long, fun s t hlen hnext => ?short, fun s input hin _ => ?accepted, fun s t hnext => ?decode⟩
  case long => exact ⟨raise .inputTooLarge s, withInput_long _ hlong, withInput_long _ hlong, onlyErr_withErr s 1⟩
  case short =>
    rcases encodeOrPlan_next hnext with ⟨hlong, -⟩ | ⟨-, -, herr, -⟩ | herr
    · omega
    · simp [herr]
    · simp [herr]
  case accepted =>
    exact ⟨⟨_, execEncode_ok hin, statusErr_withErr 0 s.status⟩, ⟨_, execPlan_ok hin, statusErr_withErr 0 s.status⟩⟩
  case decode =>
    rcases statusErr_decode hnext with ⟨-, herr⟩ | herr | herr | herr <;> simp [herr]

/-- Settles O7: DECODE checks `PIXEL_SIZE` first (`execDecode_badSize`), ENCODE and PLAN after the length
(`withInput_badSize`); the ends of the commands have code 2 under an unusable `PIXEL_SIZE` alone. -/
theorem unusablePixelSizeIsRejected : Obligations.UnusablePixelSizeIsRejected := by
  refine ⟨fun s hsize => ?unusable, fun s t hpos hmax hnext => ?usable⟩
  case unusable =>
    have hbad : badPixelSize s = true := (badPixelSize_iff s).mpr hsize
    exact ⟨⟨raise .invalidPixelSize s, execDecode_badSize hbad, onlyErr_withErr s 2⟩, fun hlen =>
      ⟨raise .invalidPixelSize s, withInput_badSize _ hlen hbad, withInput_badSize _ hlen hbad, onlyErr_withErr s 2⟩⟩
  case usable =>
    have hgood : badPixelSize s ≠ true := by rw [Ne, badPixelSize_iff]; omega
    rcases or_assoc.mpr hnext with hlayout | hdecode
    · rcases encodeOrPlan_next hlayout with ⟨-, -, herr, -⟩ | ⟨hbad, -⟩ | herr
      · simp [herr]
      · exact absurd hbad hgood
      · simp [herr]
    · rcases statusErr_decode hdecode with ⟨hbad, -⟩ | herr | herr | herr
      · exact absurd hbad hgood
      all_goals simp [herr]

/-- Settles O11, by the command: the errors of ENCODE and PLAN are those of their checks (`encodeOrPlan_next`), a reserved
code writes `STATUS.ERR`, and DECODE's ends are those of `execDecode_next`, the last of which is no error. -/
theorem errorsChangeOnlyWhatTheirRowLists : Obligations.ErrorsChangeOnlyWhatTheirRowLists := by
  intro i s t hi hnext herr
  have hlayout (h : exec .encode s = .next t ∨ exec .plan s = .next t) : onlyErr s t 1 ∨ onlyErr s t 2 := by
    rcases encodeOrPlan_next h with ⟨-, h1⟩ | ⟨-, h2⟩ | hzero
    · exact .inl h1
    · exact .inr h2
    · exact absurd hzero herr
  rcases hi with rfl | rfl | rfl | ⟨c, rfl⟩
  case inl =>
    exact (hlayout (.inl hnext)).imp (⟨·, .inl rfl⟩) fun h2 => .inl ⟨h2, .inl rfl⟩
  case inr.inl =>
    exact (hlayout (.inr hnext)).imp (⟨·, .inr rfl⟩) fun h2 => .inl ⟨h2, .inr (.inl rfl)⟩
  case inr.inr.inl =>
    rcases execDecode_next hnext with ⟨-, rfl⟩ | rfl | ⟨q, hscan, rfl | ⟨-, rfl⟩⟩
    · exact .inr (.inl ⟨onlyErr_withErr s 2, .inr (.inr rfl)⟩)
    · exact .inr (.inr (.inr ⟨rfl, raise_bufferOverrun_eq s, statusHigh_raise .bufferOverrun s,
        .inl ⟨statusErr_raise .bufferOverrun s, statusPhase_raise_bufferOverrun s⟩⟩))
    · exact .inr (.inr (.inr ⟨rfl, raise_invalidEncoding_eq _, statusHigh_raise .invalidEncoding _,
        .inr ⟨statusErr_raise .invalidEncoding _, q, hscan, statusPhase_raise_invalidEncoding _⟩⟩))
    · exact absurd (statusErr_withErr 0 _) herr
  case inr.inr.inr =>
    obtain rfl := Host.Outcome.next.inj hnext
    exact .inr (.inr (.inl ⟨onlyErr_withErr s 5, c, rfl⟩))

/-! ### BufferOverrun (R112, R205) -/

/-- A scan overruns exactly when some first blocks are all data and need more bytes than there are (R112): `scanList_none_iff`
for the pixels the canvas is sampled at. -/
theorem scanCanvas_none_iff (cap : Option Nat) (base : Rgb) (c : Canvas) (size : Nat) :
    scanCanvas cap base c size = none ↔
      ∃ m, m ≤ scanSize c size ∧ withinObuf cap (3 * m) = false ∧
        ∀ k, k < m → samplePixel c k (c.cw.toNat / size) size ≠ Pixel.zero := by
  have hbuf (n : Nat) : (scanStart c size).buf.length + n = n := Nat.zero_add n
  rw [scanCanvas_eq, scanList_none_iff _ rfl]
  simp only [samples_length, samples_getElem, Nat.zero_add, hbuf]
  refine exists_congr fun m => and_congr_right fun hm => and_congr_right fun hfull => ?_
  have hpos : 0 < m := by
    rcases Nat.eq_zero_or_pos m with rfl | hpos
    · cases cap <;> simp [withinObuf] at hfull
    · exact hpos
  exact ⟨fun h k hk => h.2 k (by omega) hk, fun h => ⟨hpos, fun k _ hk => h k hk⟩⟩

/-- Settles O18: an overrun scan ends in BufferOverrun, a finished one does not (`scannedState_err_ne_six`), and
`scanCanvas_none_iff` says which scans overrun. -/
theorem bufferOverrunExactlyWhenDataExceedsCapacity : Obligations.BufferOverrunExactlyWhenDataExceedsCapacity := by
  intro s t hsize hdecode
  refine Iff.trans ?_ (scanCanvas_none_iff s.cfg.obufCap s.base s.canvas s.pixelSize.toNat)
  cases hscan : scanCanvas s.cfg.obufCap s.base s.canvas s.pixelSize.toNat with
  | none =>
    obtain rfl := Host.Outcome.next.inj ((execDecode_overrun hsize hscan).symm.trans hdecode)
    exact iff_of_true (statusErr_raise .bufferOverrun s) rfl
  | some q =>
    obtain rfl := Host.Outcome.next.inj ((execDecode_scanned hsize hscan).symm.trans hdecode)
    exact iff_of_false (scannedState_err_ne_six s q) (Option.some_ne_none q)

/-! ### Reserved command codes (R90, R203) -/

/-- The code that a written value other than 1, 2 and 3 leaves in 8 bits that hold it is reserved (R90). -/
theorem cmdReserved_wf_of_value {v : Word} (hv : v.toNat < 256) (h1 : v.toNat ≠ 1) (h2 : v.toNat ≠ 2) (h3 : v.toNat ≠ 3) :
    (Instr.cmdReserved (v.setWidth 8)).wf = true := by
  simp only [Instr.wf, decide_eq_true_eq]
  bv_omega

/-- A value wider than `CMD` is no command code (R203; log 10). -/
theorem writeReg_cmd_wide {v : Word} (h : 256 ≤ v.toNat) (s : State) :
    writeReg .cmd v s = .next (raise .illegalCommand s) := if_neg (by omega)

/-- Settles O8: a value of 8 bits is read as CMD.RESERVED, the decoding of its own encoding, and that instruction is run; a
wider one raises the error itself (`writeReg_cmd_wide`). -/
theorem reservedCodesRaiseIllegalCommand : Obligations.ReservedCodesRaiseIllegalCommand := by
  refine ⟨fun s code => ⟨raise .illegalCommand s, rfl, onlyErr_withErr s 5⟩, fun s v rest hs h1 h2 h3 => ?_⟩
  refine ⟨raise .illegalCommand { s with script := rest }, ?_, onlyErr_withErr _ 5⟩
  by_cases hv : v.toNat < 256
  case pos =>
    have hdecode := encodedInstructionsDecodeToThemselves _ .cmd _ [] (cmdReserved_wf_of_value hv h1 h2 h3) rfl
    exact stepRunsTheInstructionItDecodes.1 s v rest _ [] hs hv hdecode
  case neg => exact (step_wr hs).trans (writeReg_cmd_wide (by omega) _)

end Sys2Proof.Machine

namespace Sys2Proof.Machine

/-! ### An input with an unwritten cell (R27, R244, U9) -/

/-- CHUNK run alone stops where the input cannot be read (log 5). -/
theorem exec_chunk_unwritten {s : State} (hlen : s.ilen.toNat ≤ 765) (hread : readInput s.ibuf 0 s.ilen.toNat = none) :
    exec .chunk s = .refused .ibufUnwritten := by
  simp only [exec, execChunk, Config.inMax, if_pos hlen, hread]

/-- Settles O10: one unwritten cell leaves no input to read (`readInput_unwritten`), where each of the three stops. -/
theorem unwrittenInputIsRefused : Obligations.UnwrittenInputIsRefused := by
  intro s a hlen hsize ha hcell
  have hread : readInput s.ibuf 0 s.ilen.toNat = none := readInput_unwritten hcell (Nat.zero_le a) (by omega)
  exact ⟨withInput_unwritten _ hlen hsize hread, withInput_unwritten _ hlen hsize hread, exec_chunk_unwritten hlen hread⟩

/-! ### The commands after reset (R231) -/

/-- Over an input of accepted length, an unusable `PIXEL_SIZE` ends every command with InvalidPixelSize (R201). -/
theorem exec_command_badSize {s : State} {i : Instr} (hi : i = .encode ∨ i = .plan ∨ i = .decode)
    (hlen : s.ilen.toNat ≤ 765) (hbad : badPixelSize s = true) : exec i s = .next (raise .invalidPixelSize s) := by
  rcases hi with rfl | rfl | rfl
  · exact withInput_badSize _ hlen hbad
  · exact withInput_badSize _ hlen hbad
  · exact execDecode_badSize hbad

/-- In the reset state InvalidPixelSize makes `STATUS` 2. -/
theorem raise_invalidPixelSize_reset : raise .invalidPixelSize State.reset = { State.reset with status := 2 } := rfl

/-- Settles O9: nothing is pending at reset (`step_idle`), and its `PIXEL_SIZE` of 0 is unusable
(`exec_command_badSize`). -/
theorem commandsAfterResetOnlyReportPixelSize : Obligations.CommandsAfterResetOnlyReportPixelSize := by
  refine ⟨⟨step_idle rfl, rfl, rfl, rfl, rfl⟩, fun i hi => ?_⟩
  have hbad : badPixelSize State.reset = true := (badPixelSize_iff State.reset).mpr (.inl rfl)
  have hlen : State.reset.ilen.toNat ≤ 765 := Nat.zero_le 765
  rw [exec_command_badSize hi hlen hbad, raise_invalidPixelSize_reset]

end Sys2Proof.Machine
